-- ==== Sys2Proof/Word.lean ====
section
/-! DEFINITION. The widths and index ranges of BCn-CORE (00_scope.md rule R11): names for the word
types and for the numbers that select a pixel, a channel, a subset, an endpoint, an index stream or a
palette entry (00_scope.md rule R15, 10_state.md rules R21 to R29). Types only, no operation. -/

namespace Sys2Proof

/-- A command word, `CW` = 32 bits (R11, R82). -/
abbrev Word := BitVec 32

/-- A data register's value, `DW` = 16 bits, unsigned (R11). -/
abbrev Half := BitVec 16

/-- One byte of the output memory (R60). -/
abbrev Byte := BitVec 8

/-- The 128-bit block buffer (R11, R30). -/
abbrev Block := BitVec 128

/-- A channel number: 0 = R, 1 = G, 2 = B, 3 = A (R15). -/
abbrev Chan := Fin 4

/-- A pixel number, raster order (R15). -/
abbrev Pixel := Fin 16

/-- A subset number, 0..2 (R11, R22). -/
abbrev Subset := Fin 3

/-- An endpoint number, 0 = low, 1 = high (R19, R22). -/
abbrev EndNo := Fin 2

/-- An index stream number (R29). -/
abbrev Stream := Fin 2

/-- A palette entry number (R28). -/
abbrev Entry := Fin 16

/-- A channel mask: bit `c` set means channel `c` takes part (R15). -/
abbrev Mask := BitVec 4

end Sys2Proof
end

