-- ==== Sys2Proof/Syntax.lean ====
section
/-! DEFINITION. The commands of BCn-CORE as syntax: one constructor of `Instr` for each of the 25 rows
of the opcode map (30_encoding.md rule R94), carrying the operand fields of the row's format as the
word holds them (rules R83 to R93), so that a word whose operands are illegal (rule R95) is still the
command it spells and its meaning takes the fault the spec names. Also the names that decoding
resolves fields to: the fault causes (60_exceptions.md rule R261), the registers LDC writes
(10_state.md rule R38), the packer's sources (44_packer.md rule R172). -/

namespace Sys2Proof

/-- The 25 commands. Field widths are those of the formats in R84 to R92. -/
inductive Instr where
  | nop                                                                            -- R185
  | blkinit                                                                        -- R186
  | ldc (reg : BitVec 8) (imm : Half)                                              -- R188
  | ldpx (p : BitVec 4) (c : BitVec 2) (imm : Half)                                -- R189
  | lder (s : BitVec 2) (e : BitVec 1) (c : BitVec 2) (imm : Half)                 -- R190
  | keepmin                                                                        -- R191
  | emit (src : BitVec 1)                                                          -- R192
  | candinit                                                                       -- R187
  | qntl (s : BitVec 2) (e : BitVec 1) (cmask : Mask) (bits : BitVec 5)            -- R112
  | qntlp (s : BitVec 2) (e : BitVec 1) (cmask : Mask) (bits : BitVec 5)           -- R113
  | qnth (s : BitVec 2) (e : BitVec 1) (cmask : Mask) (bits : BitVec 5)            -- R114
  | unql (s : BitVec 2) (e : BitVec 1) (cmask : Mask) (bits : BitVec 5)            -- R116
  | unqlp (s : BitVec 2) (e : BitVec 1) (cmask : Mask) (bits : BitVec 5)           -- R117
  | unqh (s : BitVec 2) (e : BitVec 1) (cmask : Mask) (bits : BitVec 5)            -- R118
  | order (s : BitVec 2) (cmask : Mask)                                            -- R119
  | delta (s : BitVec 2) (e : BitVec 1) (cmask : Mask) (bits : BitVec 5)           -- R120
  | palw (s : BitVec 2) (cmask : Mask) (iw : BitVec 3)                             -- R132
  | palh (s : BitVec 2) (cmask : Mask) (iw : BitVec 3)                             -- R133
  | palt (s : BitVec 2) (cmask : Mask)                                             -- R134
  | pals (s : BitVec 2) (cmask : Mask)                                             -- R135
  | idxn (t : BitVec 1) (s : BitVec 2) (cmask : Mask) (iw : BitVec 3)              -- R146
  | idxp (t : BitVec 1) (s : BitVec 2) (cmask : Mask) (iw : BitVec 3)              -- R148
  | fix (t : BitVec 1) (s : BitVec 2) (cmask : Mask) (iw : BitVec 3)               -- R161
  | put (off : BitVec 7) (wm1 : BitVec 4) (sh : BitVec 4) (sel : BitVec 8)         -- R173
  | putix (t : BitVec 1) (off : BitVec 7) (iw : BitVec 3) (na : BitVec 2)          -- R175
  deriving DecidableEq, Repr

/-- The eleven command formats (R83 to R92). -/
inductive Format where
  | Z | C | P | E | Q | O | L | X | K | J | M
  deriving DecidableEq, Repr

/-- The six fault causes (R261). -/
inductive FaultCause where
  | illegalOpcode
  | reservedField
  | illegalOperand
  | packRange
  | emitRange
  | illegalRegister
  deriving DecidableEq, Repr

/-- What decoding makes of a command word before any operand check (R99). -/
inductive Decoded where
  | command (i : Instr)
  | illegalOpcode
  | reservedField
  deriving DecidableEq, Repr

/-- The control registers that LDC may write (R38, R188). -/
inductive CtrlReg where
  | cfg | pm1 | pm2 | anch | pbits | t | oaddrLo | oaddrHi
  deriving DecidableEq, Repr

/-- The registers that PUT may pack (R172). -/
inductive Source where
  | eq (s : Subset) (e : EndNo) (c : Chan)
  | ed (s : Subset) (e : EndNo) (c : Chan)
  | ix (t : Stream) (p : Pixel)
  | pb (s : Subset) (e : EndNo)
  | t
  deriving DecidableEq, Repr

/-- The target formats of `CFG.FMT` (R40). -/
inductive Target where
  | bc1 | bc3 | bc4 | bc5 | bc6h | bc7
  deriving DecidableEq, Repr

end Sys2Proof
end

