-- ==== Sys2Proof/Decode.lean ====
section
/-! DEFINITION. Decoding and encoding of command words (30_encoding.md): the fields of the eleven
formats (R83 to R92), the opcode map (R94) as a table, the total decoder (R96, R99), the operand
ranges of R93 and R95, and the encoder written from the same formats. -/

namespace Sys2Proof

/-! ### Fields -/

/-- `v[lo+n-1:lo]` of a command word (R14). -/
def field (w : Word) (lo n : Nat) : BitVec n := w.extractLsb' lo n

/-- `op = word[31:24]` (R82). -/
def opcodeOf (w : Word) : BitVec 8 := field w 24 8

/-- The reserved bits of a format, which must be 0 (R83 to R92). -/
def Format.reserved : Format → Word
  | .Z => 0x00FFFFFF
  | .C => 0x00000000
  | .P => 0x00030000
  | .E => 0x00070000
  | .Q => 0x00000FFF
  | .O => 0x0021FFFF
  | .L => 0x00203FFF
  | .X => 0x00003FFF
  | .K => 0x00001000
  | .J => 0x000007FF
  | .M => 0x007FFFFF

/-- One row of the opcode map (R94): the opcode, the format, and the command the fields make. -/
structure OpRow where
  op : BitVec 8
  fmt : Format
  build : Word → Instr

/-- Format Q's fields (R87), handed to the command's constructor. -/
def buildQ (k : BitVec 2 → BitVec 1 → Mask → BitVec 5 → Instr) (w : Word) : Instr :=
  k (field w 22 2) (field w 21 1) (field w 17 4) (field w 12 5)

/-- Format O's fields (R88). -/
def buildO (k : BitVec 2 → Mask → Instr) (w : Word) : Instr :=
  k (field w 22 2) (field w 17 4)

/-- Format L's fields (R89). -/
def buildL (k : BitVec 2 → Mask → BitVec 3 → Instr) (w : Word) : Instr :=
  k (field w 22 2) (field w 17 4) (field w 14 3)

/-- Format X's fields (R90). -/
def buildX (k : BitVec 1 → BitVec 2 → Mask → BitVec 3 → Instr) (w : Word) : Instr :=
  k (field w 23 1) (field w 21 2) (field w 17 4) (field w 14 3)

/-- The opcode map (R94), in its order. -/
def opcodeMap : List OpRow :=
  [ ⟨0x00, .Z, fun _ => .nop⟩,
    ⟨0x01, .Z, fun _ => .blkinit⟩,
    ⟨0x02, .C, fun w => .ldc (field w 16 8) (field w 0 16)⟩,
    ⟨0x03, .P, fun w => .ldpx (field w 20 4) (field w 18 2) (field w 0 16)⟩,
    ⟨0x04, .E, fun w => .lder (field w 22 2) (field w 21 1) (field w 19 2) (field w 0 16)⟩,
    ⟨0x05, .Z, fun _ => .keepmin⟩,
    ⟨0x06, .M, fun w => .emit (field w 23 1)⟩,
    ⟨0x07, .Z, fun _ => .candinit⟩,
    ⟨0x10, .Q, buildQ .qntl⟩,
    ⟨0x11, .Q, buildQ .qntlp⟩,
    ⟨0x12, .Q, buildQ .qnth⟩,
    ⟨0x13, .Q, buildQ .unql⟩,
    ⟨0x14, .Q, buildQ .unqlp⟩,
    ⟨0x15, .Q, buildQ .unqh⟩,
    ⟨0x16, .O, buildO .order⟩,
    ⟨0x17, .Q, buildQ .delta⟩,
    ⟨0x20, .L, buildL .palw⟩,
    ⟨0x21, .L, buildL .palh⟩,
    ⟨0x22, .O, buildO .palt⟩,
    ⟨0x23, .O, buildO .pals⟩,
    ⟨0x30, .X, buildX .idxn⟩,
    ⟨0x31, .X, buildX .idxp⟩,
    ⟨0x40, .X, buildX .fix⟩,
    ⟨0x50, .K, fun w => .put (field w 17 7) (field w 13 4) (field w 8 4) (field w 0 8)⟩,
    ⟨0x51, .J, fun w => .putix (field w 23 1) (field w 16 7) (field w 13 3) (field w 11 2)⟩ ]

/-- The row of an opcode; `none` for the opcodes R96 lists as reserved. -/
def rowOf (op : BitVec 8) : Option OpRow := opcodeMap.find? fun r => r.op == op

/-- Decoding, total on 32-bit words (R96, R99): the opcode first, then the reserved bits of its format
(R266 order (1), (2)). Operand values are checked by the meanings (R95). -/
def decode (w : Word) : Decoded :=
  match rowOf (opcodeOf w) with
  | none => .illegalOpcode
  | some r => if w &&& r.fmt.reserved = 0 then .command (r.build w) else .reservedField

/-- The instruction the decoder reads from the table's `nbits`-bit value `w`: a command is one 32-bit
word (R82) and not fetched from memory, so it has no byte order (20_memory.md R62). -/
def decodeTableWord (nbits w : Nat) : Option Instr :=
  match decode (BitVec.ofNat 32 (w % 2 ^ nbits)) with
  | .command i => some i
  | .illegalOpcode => none
  | .reservedField => none

/-! ### The encoder -/

/-- Format Z (R83). -/
def wordZ (op : BitVec 8) : Word := op ++ 0#24

/-- Format C (R84). -/
def wordC (op reg : BitVec 8) (imm : Half) : Word := op ++ reg ++ imm

/-- Format P (R85). -/
def wordP (op : BitVec 8) (p : BitVec 4) (c : BitVec 2) (imm : Half) : Word := op ++ p ++ c ++ 0#2 ++ imm

/-- Format E (R86). -/
def wordE (op : BitVec 8) (s : BitVec 2) (e : BitVec 1) (c : BitVec 2) (imm : Half) : Word :=
  op ++ s ++ e ++ c ++ 0#3 ++ imm

/-- Format Q (R87). -/
def wordQ (op : BitVec 8) (s : BitVec 2) (e : BitVec 1) (m : Mask) (bits : BitVec 5) : Word :=
  op ++ s ++ e ++ m ++ bits ++ 0#12

/-- Format O (R88). -/
def wordO (op : BitVec 8) (s : BitVec 2) (m : Mask) : Word := op ++ s ++ 0#1 ++ m ++ 0#17

/-- Format L (R89). -/
def wordL (op : BitVec 8) (s : BitVec 2) (m : Mask) (iw : BitVec 3) : Word :=
  op ++ s ++ 0#1 ++ m ++ iw ++ 0#14

/-- Format X (R90). -/
def wordX (op : BitVec 8) (t : BitVec 1) (s : BitVec 2) (m : Mask) (iw : BitVec 3) : Word :=
  op ++ t ++ s ++ m ++ iw ++ 0#14

/-- Format K (R91). -/
def wordK (op : BitVec 8) (off : BitVec 7) (wm1 sh : BitVec 4) (sel : BitVec 8) : Word :=
  op ++ off ++ wm1 ++ 0#1 ++ sh ++ sel

/-- Format J (R92). -/
def wordJ (op : BitVec 8) (t : BitVec 1) (off : BitVec 7) (iw : BitVec 3) (na : BitVec 2) : Word :=
  op ++ t ++ off ++ iw ++ na ++ 0#11

/-- Format M (R92). -/
def wordM (op : BitVec 8) (src : BitVec 1) : Word := op ++ src ++ 0#23

/-- The word that spells a command (R83 to R94). -/
def encode : Instr → Word
  | .nop => wordZ 0x00
  | .blkinit => wordZ 0x01
  | .ldc reg imm => wordC 0x02 reg imm
  | .ldpx p c imm => wordP 0x03 p c imm
  | .lder s e c imm => wordE 0x04 s e c imm
  | .keepmin => wordZ 0x05
  | .emit src => wordM 0x06 src
  | .candinit => wordZ 0x07
  | .qntl s e m b => wordQ 0x10 s e m b
  | .qntlp s e m b => wordQ 0x11 s e m b
  | .qnth s e m b => wordQ 0x12 s e m b
  | .unql s e m b => wordQ 0x13 s e m b
  | .unqlp s e m b => wordQ 0x14 s e m b
  | .unqh s e m b => wordQ 0x15 s e m b
  | .order s m => wordO 0x16 s m
  | .delta s e m b => wordQ 0x17 s e m b
  | .palw s m iw => wordL 0x20 s m iw
  | .palh s m iw => wordL 0x21 s m iw
  | .palt s m => wordO 0x22 s m
  | .pals s m => wordO 0x23 s m
  | .idxn t s m iw => wordX 0x30 t s m iw
  | .idxp t s m iw => wordX 0x31 t s m iw
  | .fix t s m iw => wordX 0x40 t s m iw
  | .put off wm1 sh sel => wordK 0x50 off wm1 sh sel
  | .putix t off iw na => wordJ 0x51 t off iw na

/-! ### Operand values (R93) and their legal sets (R95) -/

/-- `s ≠ 3` (R93, R95). -/
def subsetOk (s : BitVec 2) : Bool := decide (s.toNat < 3)

/-- The subset a legal `s` names; read only where `subsetOk s`. -/
def subsetOf (s : BitVec 2) : Subset := ⟨s.toNat % 3, Nat.mod_lt _ (by decide)⟩

/-- `cmask ≠ 0` (R93, R95). -/
def maskOk (m : Mask) : Bool := decide (m ≠ 0)

/-- `lo ≤ bits ≤ hi`, the range being the command's (R95, R111). -/
def bitsOk (lo hi : Nat) (bits : BitVec 5) : Bool := decide (lo ≤ bits.toNat ∧ bits.toNat ≤ hi)

/-- `iw ∈ {2, 3, 4}` (R93, R95). -/
def widthOk (iw : BitVec 3) : Bool := decide (2 ≤ iw.toNat ∧ iw.toNat ≤ 4)

/-- The registers LDC may write, by number; `none` is the `IllegalRegister` case (R38, R188). -/
def ldcTarget (reg : BitVec 8) : Option CtrlReg :=
  match reg.toNat with
  | 0x00 => some .cfg
  | 0x02 => some .pm1
  | 0x03 => some .pm2
  | 0x04 => some .anch
  | 0x05 => some .pbits
  | 0x06 => some .t
  | 0x08 => some .oaddrLo
  | 0x09 => some .oaddrHi
  | _ => none

/-- Which values LDC may store (R39, R40, R43, R44, R188). -/
def ldcLegal (r : CtrlReg) (v : Half) : Bool :=
  match r with
  | .cfg => decide (v.toNat % 8 ≤ 5 ∧ v.toNat / 8 % 2 = 0 ∧ v.toNat / 16 % 4 ≠ 3 ∧ v.toNat / 64 = 0)
  | .anch => decide (v.toNat / 256 = 0)
  | .pbits => decide (v.toNat / 64 = 0)
  | .pm1 | .pm2 | .t | .oaddrLo | .oaddrHi => true

/-- The packer's source selectors (R172); `none` for the undefined values. -/
def selSource (sel : BitVec 8) : Option Source :=
  let n := sel.toNat
  if n < 0x18 then some (.eq (Fin.ofNat 3 (n / 8)) (Fin.ofNat 2 (n / 4)) (Fin.ofNat 4 n))
  else if n < 0x20 then none
  else if n < 0x38 then
    some (.ed (Fin.ofNat 3 ((n - 0x20) / 8)) (Fin.ofNat 2 ((n - 0x20) / 4)) (Fin.ofNat 4 (n - 0x20)))
  else if n < 0x40 then none
  else if n < 0x60 then some (.ix (Fin.ofNat 2 ((n - 0x40) / 16)) (Fin.ofNat 16 (n - 0x40)))
  else if n < 0x66 then some (.pb (Fin.ofNat 3 ((n - 0x60) / 2)) (Fin.ofNat 2 (n - 0x60)))
  else if n = 0x70 then some .t
  else none

/-- `sel` is a defined selector (R95, R172). -/
def selOk (sel : BitVec 8) : Bool := (selSource sel).isSome

/-- The packed width `wm1 + 1` (R93). -/
def putWidth (wm1 : BitVec 4) : Nat := wm1.toNat + 1

/-- `off + wm1 + 1 ≤ 128` (R95, R173). -/
def putFits (off : BitVec 7) (wm1 : BitVec 4) : Bool := decide (off.toNat + putWidth wm1 ≤ 128)

end Sys2Proof
end

