-- ==== Sys2Proof/Config.lean ====
section
/-! DEFINITION. What the spec leaves open: the values no rule fixes, as constants without a body, so
that no proof can see which value they have. The two open parameters of the hardware, QUANT_H
(40_quantize.md rule R115) and ASSIGN_LUT (42_index.md rule R149), are here as raw functions;
Machine/Tables.lean holds them to the properties the spec allows a model to assume. -/

namespace Sys2Proof

/-- The name of a data register whose reset value is unspecified (R35, R285). -/
inductive DataName where
  | px (p : Pixel) (c : Chan)
  | er (s : Subset) (e : EndNo) (c : Chan)
  | eq (s : Subset) (e : EndNo) (c : Chan)
  | ed (s : Subset) (e : EndNo) (c : Chan)
  | eu (s : Subset) (e : EndNo) (c : Chan)
  | pal (s : Subset) (k : Entry) (c : Chan)
  deriving DecidableEq, Repr

namespace Config

/-- FREE VALUE (log 2). What the command numbered `draw` reads from a data register that no command has
written since reset: "any value of the register's width (a free draw per read)" (R35, U1). -/
opaque unspecified : (draw : Nat) → DataName → Half

/-- FREE VALUE (log 7). How many bytes of an EMIT abandoned by reset had been written (R285, U18).
The machine reduces it to the range 0..n. -/
opaque abandonedPrefix : (draw : Nat) → Nat

/-- OPEN PARAMETER (log 8). The implementation's quantize function before it is held to R115. -/
opaque rawQuantH : Half → (bits : Nat) → Nat

/-- OPEN PARAMETER (log 9). The implementation's assignment tables before they are held to R149. -/
opaque rawAssignLut : (iw : Nat) → (f : Nat) → Nat

end Config

end Sys2Proof
end

