-- ==== Sys2Proof/Machine/State.lean ====
section
/-! DEFINITION. The state of one BCn-CORE instance as plain data (10_state.md rules R20 to R52), the
output memory (20_memory.md rule R60), what the host does and sees on the port (30_encoding.md rule
R80), the two stop types, and the machine right after reset (70_reset_and_hazards.md rule R285). -/

namespace Sys2Proof.Machine

/-- A data register whose reset value is unspecified: its 16 bits, and whether a command has written it
since reset (R35). The bits of a register with `written = false` are never read: a read of it is a free
draw (`DataReg.read` in Machine/Ops.lean; log 2). -/
structure DataReg where
  bits : Half
  written : Bool
  deriving DecidableEq, Repr

/-- A data register after reset (R52, R285 "unspecified"). DESIGN CHOICE (log 1): the bits are 0. -/
def DataReg.unspecified : DataReg := ⟨0, false⟩

/-- `PX[p][c]` (R21). -/
abbrev PixelFile := Vector (Vector DataReg 4) 16

/-- `ER`, `EQ`, `ED` or `EU`, indexed `[s][e][c]` (R22 to R25). -/
abbrev EndpointFile := Vector (Vector (Vector DataReg 4) 2) 3

/-- `PAL[s][k][c]` (R28). -/
abbrev PaletteFile := Vector (Vector (Vector DataReg 4) 16) 3

/-- `IX[t][p]` (R29). -/
abbrev IndexFile := Vector (Vector (BitVec 4) 16) 2

/-- The five flags of `STATUS` (R37). -/
structure Status where
  fault : Bool
  dovf : Bool
  trunc : Bool
  eql : Bool
  bvalid : Bool
  deriving DecidableEq, Repr

/-- The output memory: the bytes written so far, by address (R60). Its canonical form is `Memory.wf` in
Machine/Ops.lean. An address not listed has no value (log 4). -/
abbrev Memory := List Host.Cell

/-- What the host does next on the port of R80: present a command word, read a control register number
(R48), assert reset between commands, or assert it while a command is in execution (R285). -/
inductive PortEvent where
  | command (w : Word)
  | read (num : BitVec 8)
  | reset
  | resetDuring (w : Word)
  deriving DecidableEq, Repr

/-- What the unit drives on the port of R80: one byte write to the output memory, the data of the read
port, or the acknowledgement of a command (R81). -/
inductive PortOutput where
  | byteWrite (addr : BitVec 32) (data : Byte)
  | readData (data : Half)
  | ack
  deriving DecidableEq, Repr

/-- Reasons for the machine to stop with a fault: NONE. The spec's six faults are recorded in state and
the unit goes on, discarding commands (R262, R263), so a step that raises one answers a next state
(log 10). Nobody raises a value of this type; that is safe. -/
inductive Fault
  deriving DecidableEq, Repr

/-- Reasons for a command to have no meaning here. -/
inductive Refusal where
  /-- Raised by `exec` for a command whose meaning is not written yet, by its mnemonic; safe, since no
  next state is claimed. No arm raises it: all 25 commands have their meaning. -/
  | notModelled (mnemonic : String)
  deriving DecidableEq, Repr

/-- The state of one instance. The fields down to `fcidx` are exactly the state of R20 (`ID` is
hard-wired, R47, and stands in the read operation); `mem` is the output memory (R60); `draws`,
`pending` and `out` are the model's own (logs 2, 5, 6). -/
structure State where
  px : PixelFile
  er : EndpointFile
  eq : EndpointFile
  ed : EndpointFile
  eu : EndpointFile
  pal : PaletteFile
  ix : IndexFile
  ob : Block
  bestOb : Block
  err : BitVec 64
  bestErr : BitVec 64
  t : Half
  cidx : BitVec 32
  status : Status
  cfg : Half
  pm1 : Half
  pm2 : Half
  anch : Half
  pbits : Half
  oaddr : BitVec 32
  fcode : BitVec 8
  fcidx : BitVec 32
  mem : Memory
  draws : Nat
  pending : List PortEvent
  out : List PortOutput
  deriving DecidableEq, Repr

/-- The error sentinel `ERR_INF` = 2^64 − 1 (R11, R32). -/
def errInf : BitVec 64 := 0xFFFFFFFFFFFFFFFF

/-- An endpoint file after reset (R285). -/
def EndpointFile.unspecified : EndpointFile :=
  Vector.replicate 3 (Vector.replicate 2 (Vector.replicate 4 DataReg.unspecified))

/-- The machine right after reset (R52, R285). -/
def State.reset : State where
  px := Vector.replicate 16 (Vector.replicate 4 DataReg.unspecified)
  er := EndpointFile.unspecified
  eq := EndpointFile.unspecified
  ed := EndpointFile.unspecified
  eu := EndpointFile.unspecified
  pal := Vector.replicate 3 (Vector.replicate 16 (Vector.replicate 4 DataReg.unspecified))
  ix := Vector.replicate 2 (Vector.replicate 16 0)
  ob := 0
  bestOb := 0
  err := 0
  bestErr := errInf
  t := 0
  cidx := 0
  status := ⟨false, false, false, false, false⟩
  cfg := 0
  pm1 := 0
  pm2 := 0
  anch := 0
  pbits := 0
  oaddr := 0
  fcode := 0
  fcidx := 0
  mem := []
  draws := 0
  pending := []
  out := []

end Sys2Proof.Machine
end

