-- ==== Sys2Proof/Machine/Tables.lean ====
section
/-! DEFINITION. The constant data of BCn-CORE (10_state.md rule R50): the interpolation weights, and the
two open parameters held to what the spec lets a model assume of them, with the defaults that the
spec's examples use. -/

namespace Sys2Proof.Machine

/-- `WEIGHTS[iw]` (R131). -/
def weightTable : Nat → List Nat
  | 2 => [0, 21, 43, 64]
  | 3 => [0, 9, 18, 27, 37, 46, 55, 64]
  | 4 => [0, 4, 9, 13, 17, 21, 26, 30, 34, 38, 43, 47, 51, 55, 60, 64]
  | _ => []

/-- `WEIGHTS[iw][k]` (R131), for `iw` 2, 3, 4 and `k < 2^iw`. -/
def weight (iw k : Nat) : Nat := (weightTable iw).getD k 0

/-- Holds a raw quantize function to R115: below `2^bits`, 0 at 0, a function of `h` and `bits` alone.
Every function R115 admits is its own image. -/
def boundQuantH (raw : Half → Nat → Nat) (h : Half) (bits : Nat) : Nat :=
  if h = 0 then 0 else raw h bits % 2 ^ bits

/-- `QUANT_H` (R115), an open parameter (log 8). -/
def quantH (h : Half) (bits : Nat) : Nat := boundQuantH Config.rawQuantH h bits

/-- The default `QUANT_H` of R115, used by the spec's examples; the machine does not assume it. -/
def defaultQuantH (h : Half) (bits : Nat) : Nat :=
  min ((h.toNat <<< bits) / 0x7C00) (2 ^ bits - 1)

/-- Holds a raw table to R149: 0 at 0, non-decreasing, `2^iw − 1` from 63 on. Every table R149 admits is
its own image. -/
def boundLut (raw : Nat → Nat → Nat) (iw : Nat) : Nat → Nat
  | 0 => 0
  | f + 1 => if 63 ≤ f + 1 then 2 ^ iw - 1 else min (2 ^ iw - 1) (max (boundLut raw iw f) (raw iw (f + 1)))

/-- `ASSIGN_LUT[iw][f]` (R149), an open parameter (log 9). -/
def assignLut (iw f : Nat) : Nat := boundLut Config.rawAssignLut iw f

/-- The first of the numbers `0..n` at which `d` is least. -/
def firstLeast (d : Nat → Nat) : Nat → Nat
  | 0 => 0
  | k + 1 => if d (k + 1) < d (firstLeast d k) then k + 1 else firstLeast d k

/-- The default `ASSIGN_LUT` of R150, the index whose weight is nearest to the fraction; used by the
spec's examples, not assumed by the machine. -/
def defaultLut (iw f : Nat) : Nat :=
  firstLeast (fun k => ((63 * (weight iw k : Int) - 64 * (f : Int)).natAbs)) (2 ^ iw - 1)

end Sys2Proof.Machine
end

