-- ==== Sys2Proof/Machine/Ops.lean ====
section
/-! DEFINITION. The named operations over registers and memory: reading and writing the register
files (10_state.md), the output memory (20_memory.md), taking a fault and leaving the faulted state
(60_exceptions.md rules R262, R263, R270; 70_reset_and_hazards.md rule R285), and ending a command
(10_state.md rule R36). -/

namespace Sys2Proof.Machine

/-- What a command's meaning answers. -/
abbrev Result := Host.Outcome State Fault Refusal

/-! ### Channels and pixels (R15, R17) -/

/-- Whether channel `c` is in the mask (R15). -/
def inMask (m : Mask) (c : Chan) : Bool := m.getLsbD c.val

/-- The channels, ascending. -/
def allChans : List Chan := [0, 1, 2, 3]

/-- `chans(cmask)`: the ascending list of channels whose mask bit is set (R17). -/
def chans (m : Mask) : List Chan := allChans.filter (inMask m)

/-- The pixels in raster order. -/
def allPixels : List Pixel := [0, 1, 2, 3, 4, 5, 6, 7, 8, 9, 10, 11, 12, 13, 14, 15]

/-! ### Data registers -/

/-- Read a data register: its bits once written, a free draw before (R35; log 2). -/
def DataReg.read (r : DataReg) (free : Half) : Half := if r.written then r.bits else free

/-- A data register that a command has written with `v`. -/
def DataReg.ofValue (v : Half) : DataReg := ⟨v, true⟩

/-- A data register that a command has written with the integer `n`, truncated to the register. -/
def DataReg.ofNat (n : Nat) : DataReg := .ofValue (BitVec.ofNat 16 n)

/-- `PX[p][c]` as the command in execution reads it (R21). -/
def State.readPX (s : State) (p : Pixel) (c : Chan) : Half :=
  (s.px[p][c]).read (Config.unspecified s.draws (.px p c))

/-- `ER[s][e][c]` (R22). -/
def State.readER (s : State) (b : Subset) (e : EndNo) (c : Chan) : Half :=
  (s.er[b][e][c]).read (Config.unspecified s.draws (.er b e c))

/-- `EQ[s][e][c]` (R23). -/
def State.readEQ (s : State) (b : Subset) (e : EndNo) (c : Chan) : Half :=
  (s.eq[b][e][c]).read (Config.unspecified s.draws (.eq b e c))

/-- `ED[s][e][c]` (R24). -/
def State.readED (s : State) (b : Subset) (e : EndNo) (c : Chan) : Half :=
  (s.ed[b][e][c]).read (Config.unspecified s.draws (.ed b e c))

/-- `EU[s][e][c]` (R25). -/
def State.readEU (s : State) (b : Subset) (e : EndNo) (c : Chan) : Half :=
  (s.eu[b][e][c]).read (Config.unspecified s.draws (.eu b e c))

/-- `PAL[s][k][c]` (R28). -/
def State.readPAL (s : State) (b : Subset) (k : Entry) (c : Chan) : Half :=
  (s.pal[b][k][c]).read (Config.unspecified s.draws (.pal b k c))

/-- `PX[p][c] <- v` (R189). -/
def PixelFile.write (f : PixelFile) (p : Pixel) (c : Chan) (r : DataReg) : PixelFile :=
  Vector.ofFn fun p' => Vector.ofFn fun c' => if p' = p ∧ c' = c then r else f[p'][c']

/-- Write the channels of the mask of endpoint `e` of subset `b`; leave the rest (R110). -/
def EndpointFile.write (f : EndpointFile) (b : Subset) (e : EndNo) (m : Mask) (v : Chan → DataReg) :
    EndpointFile :=
  Vector.ofFn fun b' => Vector.ofFn fun e' => Vector.ofFn fun c =>
    if b' = b ∧ e' = e ∧ inMask m c then v c else f[b'][e'][c]

/-- The other endpoint of a pair. -/
def otherEnd (e : EndNo) : EndNo := if e = 0 then 1 else 0

/-- Exchange the two endpoints of subset `b` in the channels of the mask (R121). The register's contents
move whole, an unspecified one staying unspecified (log 3). -/
def EndpointFile.exchange (f : EndpointFile) (b : Subset) (m : Mask) : EndpointFile :=
  Vector.ofFn fun b' => Vector.ofFn fun e => Vector.ofFn fun c =>
    if b' = b ∧ inMask m c then f[b'][otherEnd e][c] else f[b'][e][c]

/-- Write entries `0..n−1` of subset `b` in the channels of the mask; leave the rest (R130). -/
def PaletteFile.write (f : PaletteFile) (b : Subset) (m : Mask) (n : Nat) (v : Entry → Chan → DataReg) :
    PaletteFile :=
  Vector.ofFn fun b' => Vector.ofFn fun k => Vector.ofFn fun c =>
    if b' = b ∧ k.val < n ∧ inMask m c then v k c else f[b'][k][c]

/-- The entry `max − k` of a palette whose last entry is `max` (R161). -/
def mirror (max : Nat) (k : Entry) : Entry := Fin.ofNat 16 (max - k.val)

/-- Reverse entries `0..max` of subset `b` in the channels of the mask (R161). -/
def PaletteFile.reverse (f : PaletteFile) (b : Subset) (m : Mask) (max : Nat) : PaletteFile :=
  Vector.ofFn fun b' => Vector.ofFn fun k => Vector.ofFn fun c =>
    if b' = b ∧ k.val ≤ max ∧ inMask m c then f[b'][mirror max k][c] else f[b'][k][c]

/-- Write the indices of the chosen pixels of stream `t`; leave the rest (R145). -/
def IndexFile.write (f : IndexFile) (t : Stream) (sel : Pixel → Bool) (v : Pixel → BitVec 4) : IndexFile :=
  Vector.ofFn fun t' => Vector.ofFn fun p => if t' = t ∧ sel p then v p else f[t'][p]

/-- `IX[t][p] <- 0` for all t, p (R186, R187). -/
def IndexFile.zero : IndexFile := Vector.ofFn fun _ => Vector.ofFn fun _ => 0

/-! ### Fields of the control registers -/

/-- `CFG.FMT` (R40). -/
def State.fmt (s : State) : Nat := s.cfg.toNat % 8

/-- `CFG.QUAL` (R40). -/
def State.qual (s : State) : Nat := s.cfg.toNat / 16 % 4

/-- `anchor(s)`: pixel 0, `ANCH.A1`, `ANCH.A2` (R43, R160). -/
def State.anchor (s : State) (b : Subset) : Pixel :=
  match b with
  | 0 => 0
  | 1 => Fin.ofNat 16 s.anch.toNat
  | 2 => Fin.ofNat 16 (s.anch.toNat / 16)

/-- The subset of a pixel under two masks (R42). -/
def maskSubset (pm1 pm2 : Half) (p : Pixel) : Subset :=
  if pm2.getLsbD p.val then 2 else if pm1.getLsbD p.val then 1 else 0

/-- `subset(p)` (R42). -/
def State.subsetAt (s : State) (p : Pixel) : Subset := maskSubset s.pm1 s.pm2 p

/-- `PB[s][e]`, bit `2s + e` of `PBITS` (R44). -/
def State.pb (s : State) (b : Subset) (e : EndNo) : Bool := s.pbits.getLsbD (2 * b.val + e.val)

/-- `PBITS` with `PB[s][0]` and `PB[s][1]` exchanged (R121). -/
def exchangePBits (v : Half) (b : Subset) : Half :=
  BitVec.ofFnLE fun i : Fin 16 =>
    if i.val = 2 * b.val then v.getLsbD (2 * b.val + 1)
    else if i.val = 2 * b.val + 1 then v.getLsbD (2 * b.val)
    else v.getLsbD i.val

/-- `swap_endpoints(s, cmask)` (R121): `ER`, `EQ`, `EU` in the channels of the mask, and the subset's
p-bits whatever the mask. -/
def State.swapEndpoints (s : State) (b : Subset) (m : Mask) : State :=
  { s with
    er := s.er.exchange b m
    eq := s.eq.exchange b m
    eu := s.eu.exchange b m
    pbits := exchangePBits s.pbits b }

/-- The 16-bit view of `STATUS` (R37). -/
def Status.word (f : Status) : Half :=
  BitVec.ofBool f.bvalid ++ BitVec.ofBool f.eql ++ BitVec.ofBool f.trunc ++ BitVec.ofBool f.dovf
    ++ BitVec.ofBool f.fault |>.setWidth 16

/-- `ID`, hard-wired (R47). -/
def idWord : Half := 0xBC01

/-- Half `j` (16 bits) of a wide register's view (R38). -/
def halfOf {n : Nat} (v : BitVec n) (j : Nat) : Half := v.extractLsb' (16 * j) 16

/-- The host read port: the 16-bit view of a control register number, 0 for a reserved one (R38, R48). -/
def State.readPort (s : State) (num : BitVec 8) : Half :=
  match num.toNat with
  | 0x00 => s.cfg
  | 0x01 => s.status.word
  | 0x02 => s.pm1
  | 0x03 => s.pm2
  | 0x04 => s.anch
  | 0x05 => s.pbits
  | 0x06 => s.t
  | 0x08 => halfOf s.oaddr 0
  | 0x09 => halfOf s.oaddr 1
  | 0x0A => halfOf s.cidx 0
  | 0x0B => halfOf s.cidx 1
  | 0x0C => s.fcode.setWidth 16
  | 0x0D => halfOf s.fcidx 0
  | 0x0E => halfOf s.fcidx 1
  | 0x0F => idWord
  | n =>
    if 0x10 ≤ n ∧ n ≤ 0x13 then halfOf s.err (n - 0x10)
    else if 0x14 ≤ n ∧ n ≤ 0x17 then halfOf s.bestErr (n - 0x14)
    else if 0x20 ≤ n ∧ n ≤ 0x27 then halfOf s.ob (n - 0x20)
    else if 0x28 ≤ n ∧ n ≤ 0x2F then halfOf s.bestOb (n - 0x28)
    else 0

/-- The fault line of the port (R80, R262). -/
def State.faultLine (s : State) : Bool := s.status.fault

/-- Store the 16-bit view of a control register (R39, R45, R188); the value is legal for it. -/
def State.storeCtrl (s : State) (r : CtrlReg) (v : Half) : State :=
  match r with
  | .cfg => { s with cfg := v }
  | .pm1 => { s with pm1 := v }
  | .pm2 => { s with pm2 := v }
  | .anch => { s with anch := v }
  | .pbits => { s with pbits := v }
  | .t => { s with t := v }
  | .oaddrLo => { s with oaddr := halfOf s.oaddr 1 ++ v }
  | .oaddrHi => { s with oaddr := v ++ halfOf s.oaddr 0 }

/-! ### The error accumulator -/

/-- `sat64(v)` (R17). -/
def sat64 (v : Nat) : BitVec 64 := BitVec.ofNat 64 (min v (2 ^ 64 - 1))

/-! ### The output memory -/

/-- The addresses rise strictly from `lo` on and stay below 2^32 (R60). -/
def risingFrom (lo : Nat) : Memory → Bool
  | [] => true
  | (a, _) :: rest => decide (lo ≤ a) && decide (a < 2 ^ 32) && risingFrom (a + 1) rest

/-- The canonical form of the output memory. No entry can equal what an unlisted address reads as, since
that is no value (log 4). -/
def Memory.wf (m : Memory) : Bool := risingFrom 0 m

/-- The byte at an address; `none` where no command has written (log 4). The hardware never reads (R61):
this is the observer's view. -/
def Memory.read : Memory → Nat → Option Byte
  | [], _ => none
  | (a, b) :: rest, x => if x = a then some b else Memory.read rest x

/-- Write one byte (R60, R64). -/
def Memory.write : Memory → Nat → Byte → Memory
  | [], x, v => [(x, v)]
  | (a, b) :: rest, x, v =>
    if x < a then (x, v) :: (a, b) :: rest
    else if x = a then (a, v) :: rest
    else (a, b) :: Memory.write rest x v

/-- Write bytes at ascending addresses from `x` (R62, R69). -/
def Memory.writeBytes : Memory → Nat → List Byte → Memory
  | m, _, [] => m
  | m, x, v :: vs => Memory.writeBytes (Memory.write m x v) (x + 1) vs

/-- The `n` low bytes of a block, least significant first (R14, R62). -/
def blockBytes (v : Block) (n : Nat) : List Byte := (List.range n).map fun i => v.extractLsb' (8 * i) 8

/-- The byte writes the unit drives for `vs` from address `x`, in order (R69, R80). -/
def byteWrites (x : Nat) : List Byte → List PortOutput
  | [] => []
  | v :: vs => .byteWrite (BitVec.ofNat 32 x) v :: byteWrites (x + 1) vs

/-- `MemWrite(OADDR, n, v)` for the bytes `vs` of `v` (R17, R62). -/
def State.storeAtOADDR (s : State) (vs : List Byte) : State :=
  { s with
    mem := s.mem.writeBytes s.oaddr.toNat vs
    out := s.out ++ byteWrites s.oaddr.toNat vs }

/-! ### Ending a command, taking a fault, reset -/

/-- A command completes: `CIDX <- (CIDX + 1) mod 2^32` (R36, R196). The draw counter moves on, so that the
next command reads unspecified registers afresh (R35; log 2). -/
def State.complete (s : State) : State := { s with cidx := s.cidx + 1, draws := s.draws + 1 }

/-- The fault codes (R261). -/
def faultCode : FaultCause → BitVec 8
  | .illegalOpcode => 1
  | .reservedField => 2
  | .illegalOperand => 3
  | .packRange => 4
  | .emitRange => 5
  | .illegalRegister => 6

/-- TAKING A FAULT (R262): the record is written once, by the first fault; nothing else changes. -/
def State.raise (s : State) (f : FaultCause) : State :=
  if s.status.fault then s
  else { s with fcode := faultCode f, fcidx := s.cidx, status := { s.status with fault := true } }

/-- RESET (R285), the only way out of the faulted state (R263, R270): every piece of state gets its reset
value; the output memory keeps its bytes. The draw counter moves on, since an unspecified value is not
the same from one reset to the next (R286); what the host does next and what the port showed stay. -/
def State.assertReset (s : State) : State :=
  { State.reset with mem := s.mem, draws := s.draws + 1, pending := s.pending, out := s.out }

/-- The checks of a command, made in order before its first write (R262, R266): the first that fails
raises its fault; if none does, the command has the effect `run`. -/
def checked : List (Bool × FaultCause) → State → State → Result
  | [], _, run => .next run
  | (ok, f) :: rest, s, run => if ok then checked rest s run else .next (s.raise f)

end Sys2Proof.Machine
end

