-- ==== Sys2Proof/Machine/Flags.lean ====
section
/-! DEFINITION. The flag computations of `STATUS` (10_state.md rule R37): what sets DOVF, TRUNC, EQL and
BVALID and what clears them. FAULT is set by `State.raise` and cleared by `State.assertReset`
(Machine/Ops.lean). -/

namespace Sys2Proof.Machine

/-- The lexicographic order of ORDER: the first differing channel decides (R119). -/
def lexLess : List Nat → List Nat → Bool
  | a :: as, b :: bs => if a < b then true else if b < a then false else lexLess as bs
  | _, _ => false

/-- `[ EQ[s][e][c] for c in chans(cmask) ]` (R119). -/
def State.eqList (s : State) (b : Subset) (e : EndNo) (m : Mask) : List Nat :=
  (chans m).map fun c => (s.readEQ b e c).toNat

/-- `A == B`, the value ORDER writes to EQL (R119). -/
def State.endpointsEqual (s : State) (b : Subset) (m : Mask) : Bool :=
  decide (s.eqList b 0 m = s.eqList b 1 m)

/-- `A < B`, when ORDER exchanges (R119). -/
def State.endpointsRise (s : State) (b : Subset) (m : Mask) : Bool :=
  lexLess (s.eqList b 0 m) (s.eqList b 1 m)

/-- `STATUS.EQL <- v` (R119). -/
def State.setEql (s : State) (v : Bool) : State := { s with status := { s.status with eql := v } }

/-- The least value of a signed field of `bits` bits (R120). -/
def deltaMin (bits : Nat) : Int := -2 ^ (bits - 1)

/-- The greatest value of a signed field of `bits` bits (R120). -/
def deltaMax (bits : Nat) : Int := 2 ^ (bits - 1) - 1

/-- `EQ[s][e][c] − EQ[0][0][c]`, a signed mathematical integer (R120). -/
def State.deltaOf (s : State) (b : Subset) (e : EndNo) (c : Chan) : Int :=
  ((s.readEQ b e c).toNat : Int) - ((s.readEQ 0 0 c).toNat : Int)

/-- Whether a delta is outside the signed range of its field (R37, R120). -/
def deltaOverflows (bits : Nat) (d : Int) : Bool := decide (d < deltaMin bits) || decide (deltaMax bits < d)

/-- Some channel of the mask overflows: DELTA then sets DOVF and the error sentinel (R120). -/
def State.anyDeltaOverflows (s : State) (b : Subset) (e : EndNo) (m : Mask) (bits : Nat) : Bool :=
  (chans m).any fun c => deltaOverflows bits (s.deltaOf b e c)

/-- `STATUS.DOVF <- 1; ERR <- ERR_INF`, when `v` (R120). -/
def State.markOverflow (s : State) (v : Bool) : State :=
  if v then { s with status := { s.status with dovf := true }, err := errInf } else s

/-- `(v >> w) != 0`, when a pack sets TRUNC (R171). -/
def truncates (v : Half) (w : Nat) : Bool := decide (v.toNat >>> w ≠ 0)

/-- The flags BLKINIT clears (R37, R186). -/
def Status.blockStart (f : Status) : Status :=
  { f with dovf := false, trunc := false, eql := false, bvalid := false }

/-- The flags CANDINIT clears (R37, R187). -/
def Status.candidateStart (f : Status) : Status :=
  { f with dovf := false, trunc := false, eql := false }

/-- Whether KEEPMIN keeps the candidate: none is held, or its error is strictly less, unsigned (R191). -/
def State.candidateWins (s : State) : Bool := !s.status.bvalid || decide (s.err.toNat < s.bestErr.toNat)

end Sys2Proof.Machine
end

