-- ==== Sys2Proof/Machine/Operands.lean ====
section
/-! DEFINITION. How operand fields become operands (30_encoding.md rule R93), and the operand values and
checks that read State: the packer's sources (44_packer.md rule R172), the widths of an index stream
(rule R175), the block EMIT writes and its size (45_control.md rule R192). -/

namespace Sys2Proof.Machine

/-- `e`, an endpoint number (R93). -/
def endOf (e : BitVec 1) : EndNo := e.toFin

/-- `t`, a stream number (R93). -/
def streamOf (t : BitVec 1) : Stream := t.toFin

/-- `c`, a channel number (R93). -/
def chanOf (c : BitVec 2) : Chan := c.toFin

/-- `p`, a pixel number (R93). -/
def pixelOf (p : BitVec 4) : Pixel := p.toFin

/-- A palette entry number, from an index. -/
def entryOf (k : Nat) : Entry := Fin.ofNat 16 k

/-- The operand checks that the commands on one subset and a mask share (R95). -/
def subsetChecks (s : BitVec 2) (m : Mask) : List (Bool × FaultCause) :=
  [(subsetOk s, .illegalOperand), (maskOk m, .illegalOperand)]

/-- The value a selector names, zero-extended to 16 bits (R172). -/
def State.sourceValue (s : State) : Source → Half
  | .eq b e c => s.readEQ b e c
  | .ed b e c => s.readED b e c
  | .ix t p => (s.ix[t][p]).setWidth 16
  | .pb b e => (BitVec.ofBool (s.pb b e)).setWidth 16
  | .t => s.t

/-- Whether pixel `p` is in the set `A` of pixels that PUTIX packs one bit short (R175). -/
def State.packedShort (s : State) (na : BitVec 2) (p : Pixel) : Bool :=
  (decide (1 ≤ na.toNat) && decide (p = 0)) || (decide (2 ≤ na.toNat) && decide (p = s.anchor 1))
    || (decide (na.toNat = 3) && decide (p = s.anchor 2))

/-- `w(p)` (R175). -/
def State.indexBits (s : State) (iw : Nat) (na : BitVec 2) (p : Pixel) : Nat :=
  if s.packedShort na p then iw - 1 else iw

/-- `total` (R175). -/
def State.streamBits (s : State) (iw : Nat) (na : BitVec 2) : Nat := (allPixels.map (s.indexBits iw na)).sum

/-- `off + total ≤ 128` (R95, R175). -/
def State.streamFits (s : State) (off : BitVec 7) (iw : Nat) (na : BitVec 2) : Bool :=
  decide (off.toNat + s.streamBits iw na ≤ 128)

/-- The number of bytes of a block of the selected format (R4, R192). -/
def State.blockSize (s : State) : Nat := if s.fmt = 0 ∨ s.fmt = 2 then 8 else 16

/-- `OADDR + n ≤ 2^32` (R65, R95). -/
def State.emitFits (s : State) : Bool := decide (s.oaddr.toNat + s.blockSize ≤ 2 ^ 32)

/-- `v = OB if src == 0 else BESTOB` (R192). -/
def State.emitBlock (s : State) (src : BitVec 1) : Block := if src = 0 then s.ob else s.bestOb

/-- The bytes EMIT writes, first at `OADDR` (R62, R192). -/
def State.emitBytes (s : State) (src : BitVec 1) : List Byte := blockBytes (s.emitBlock src) s.blockSize

end Sys2Proof.Machine
end

