-- ==== Sys2Proof/Machine/Palette.lean ====
section
/-! DEFINITION. The palette interpolator (41_palette.md rules R130 to R135). -/

namespace Sys2Proof.Machine

/-- The weighted interpolation `(low*(64-w) + high*w + 32) >> 6` (R132). -/
def interpolate (low high w : Nat) : Nat := (low * (64 - w) + high * w + 32) >>> 6

/-- Entry `k` of a PALW palette (R132). -/
def palwEntry (iw : Nat) (low high : Nat) (k : Entry) : Nat := interpolate low high (weight iw k.val)

/-- Entry `k` of a PALH palette: the interpolated value scaled to a half pattern (R133). -/
def palhEntry (iw : Nat) (low high : Nat) (k : Entry) : Nat :=
  (interpolate low high (weight iw k.val) * 31) >>> 6

/-- Entry `k` of a PALT palette, k = 0..3 (R134). -/
def paltEntry (c0 c1 : Nat) (k : Entry) : Nat :=
  match k.val with
  | 0 => c0
  | 1 => c1
  | 2 => (2 * c0 + c1 + 1) / 3
  | _ => (c0 + 2 * c1 + 1) / 3

/-- Entry `k` of a PALS palette, k = 0..7 (R135). -/
def palsEntry (e0 e1 : Nat) (k : Entry) : Nat :=
  match k.val with
  | 0 => e0
  | 1 => e1
  | j => ((8 - j) * e0 + (j - 1) * e1 + 3) / 7

/-- Write entries `0..n−1` of subset `b` from `EU[s][0]` and `EU[s][1]`, channel by channel (R130). -/
def State.buildPalette (s : State) (b : Subset) (m : Mask) (n : Nat) (f : Nat → Nat → Entry → Nat) : State :=
  { s with
    pal := s.pal.write b m n fun k c =>
      .ofNat (f (s.readEU b 0 c).toNat (s.readEU b 1 c).toNat k) }

/-- The operand checks of the commands with an index width (R95). -/
def indexWidthChecks (s : BitVec 2) (m : Mask) (iw : BitVec 3) : List (Bool × FaultCause) :=
  subsetChecks s m ++ [(widthOk iw, .illegalOperand)]

/-- PALW (R132). -/
def execPalw (b : BitVec 2) (m : Mask) (iw : BitVec 3) (s : State) : Result :=
  checked (indexWidthChecks b m iw) s
    (s.buildPalette (subsetOf b) m (2 ^ iw.toNat) (palwEntry iw.toNat)).complete

/-- PALH (R133). -/
def execPalh (b : BitVec 2) (m : Mask) (iw : BitVec 3) (s : State) : Result :=
  checked (indexWidthChecks b m iw) s
    (s.buildPalette (subsetOf b) m (2 ^ iw.toNat) (palhEntry iw.toNat)).complete

/-- PALT (R134). -/
def execPalt (b : BitVec 2) (m : Mask) (s : State) : Result :=
  checked (subsetChecks b m) s (s.buildPalette (subsetOf b) m 4 paltEntry).complete

/-- PALS (R135). -/
def execPals (b : BitVec 2) (m : Mask) (s : State) : Result :=
  checked (subsetChecks b m) s (s.buildPalette (subsetOf b) m 8 palsEntry).complete

end Sys2Proof.Machine
end

