-- ==== Sys2Proof/Machine/Anchor.lean ====
section
/-! DEFINITION. The anchor-bit fixer (43_anchor.md rules R160 to R162). -/

namespace Sys2Proof.Machine

/-- Whether the anchor's index of stream `t` has its top bit set (R160, R161). -/
def State.anchorHigh (s : State) (t : Stream) (b : Subset) (iw : Nat) : Bool :=
  (s.ix[t][s.anchor b]).getLsbD (iw - 1)

/-- `(max − i) mod 16` (R161, R162). -/
def complementIndex (iw : Nat) (i : BitVec 4) : BitVec 4 := BitVec.ofNat 4 (2 ^ iw - 1) - i

/-- FIX's effect (R161). -/
def State.fixAnchor (s : State) (t : Stream) (b : Subset) (m : Mask) (iw : Nat) : State :=
  if s.anchorHigh t b iw then
    { s.swapEndpoints b m with
      pal := s.pal.reverse b m (2 ^ iw - 1)
      ix := s.ix.write t (fun p => s.subsetAt p = b) fun p => complementIndex iw s.ix[t][p] }
  else s

/-- FIX (R161). -/
def execFix (t : BitVec 1) (b : BitVec 2) (m : Mask) (iw : BitVec 3) (s : State) : Result :=
  checked (indexWidthChecks b m iw) s
    (s.fixAnchor (streamOf t) (subsetOf b) m iw.toNat).complete

end Sys2Proof.Machine
end

