-- ==== Sys2Proof/Machine/Index.lean ====
section
/-! DEFINITION. The nearest-palette index assigner (42_index.md rules R145 to R150). -/

namespace Sys2Proof.Machine

/-- `(a − b)^2` (R146). -/
def sqDist (a b : Half) : Nat := ((a.toNat : Int) - (b.toNat : Int)).natAbs ^ 2

/-- The squared distance of pixel `p` from entry `k`, over the channels of the mask (R146, R147). -/
def State.dist (s : State) (b : Subset) (m : Mask) (p : Pixel) (k : Entry) : Nat :=
  ((chans m).map fun c => sqDist (s.readPX p c) (s.readPAL b k c)).sum

/-- The pixels of subset `b` (R42, R145). -/
def State.pixelsOf (s : State) (b : Subset) : List Pixel := allPixels.filter fun p => s.subsetAt p = b

/-- Give every pixel of the subset the index `choose p` and add the error of that choice (R145 to R148).
The saturated sum does not depend on the order of the pixels (R145; log 12). -/
def State.assignIndices (s : State) (t : Stream) (b : Subset) (m : Mask) (choose : Pixel → Nat) : State :=
  { s with
    ix := s.ix.write t (fun p => s.subsetAt p = b) fun p => BitVec.ofNat 4 (choose p)
    err := sat64 (s.err.toNat + ((s.pixelsOf b).map fun p => s.dist b m p (entryOf (choose p))).sum) }

/-- IDXN's index of a pixel: the smallest `k` whose distance is minimal (R146). -/
def State.nearestIndex (s : State) (b : Subset) (m : Mask) (iw : Nat) (p : Pixel) : Nat :=
  firstLeast (fun k => s.dist b m p (entryOf k)) (2 ^ iw - 1)

/-- `span[c] = hi[c] − lo[c]`, from the first to the last palette entry (R148). -/
def State.lineSpan (s : State) (b : Subset) (iw : Nat) (c : Chan) : Int :=
  ((s.readPAL b (entryOf (2 ^ iw - 1)) c).toNat : Int) - ((s.readPAL b 0 c).toNat : Int)

/-- `n`, the sum of the squared spans (R148). -/
def State.lineNorm (s : State) (b : Subset) (m : Mask) (iw : Nat) : Int :=
  ((chans m).map fun c => s.lineSpan b iw c ^ 2).sum

/-- `d`, the pixel's projection on the line (R148). -/
def State.lineDot (s : State) (b : Subset) (m : Mask) (iw : Nat) (p : Pixel) : Int :=
  ((chans m).map fun c =>
    s.lineSpan b iw c * (((s.readPX p c).toNat : Int) - ((s.readPAL b 0 c).toNat : Int))).sum

/-- `f`, the projection in 63 steps, clamped to the ends (R148). -/
def projectionStep (n d : Int) : Nat :=
  if n = 0 ∨ d ≤ 0 then 0
  else if n ≤ d then 63
  else ((126 * d + n) / (2 * n)).toNat

/-- IDXP's index of a pixel, under the table `lut` (R148). -/
def State.projectedIndex (s : State) (lut : Nat → Nat → Nat) (b : Subset) (m : Mask) (iw : Nat) (p : Pixel) :
    Nat :=
  lut iw (projectionStep (s.lineNorm b m iw) (s.lineDot b m iw p))

/-- IDXN (R146). -/
def execIdxn (t : BitVec 1) (b : BitVec 2) (m : Mask) (iw : BitVec 3) (s : State) : Result :=
  checked (indexWidthChecks b m iw) s
    (s.assignIndices (streamOf t) (subsetOf b) m (s.nearestIndex (subsetOf b) m iw.toNat)).complete

/-- IDXP (R148), with the open parameter ASSIGN_LUT (R149). -/
def execIdxp (t : BitVec 1) (b : BitVec 2) (m : Mask) (iw : BitVec 3) (s : State) : Result :=
  checked (indexWidthChecks b m iw) s
    (s.assignIndices (streamOf t) (subsetOf b) m
      (s.projectedIndex assignLut (subsetOf b) m iw.toNat)).complete

end Sys2Proof.Machine
end

