-- ==== Sys2Proof/Machine/Packer.lean ====
section
/-! DEFINITION. The variable-width bit-field packer (44_packer.md rules R170 to R175). -/

namespace Sys2Proof.Machine

/-- `OB[off+w-1 : off] <- v[w-1 : 0]`, the other bits unchanged (R170, R171). -/
def packBits (ob : Block) (off w : Nat) (v : Half) : Block :=
  (ob &&& ~~~(BitVec.ofNat 128 (2 ^ w - 1) <<< off)) ||| (BitVec.ofNat 128 (v.toNat % 2 ^ w) <<< off)

/-- `pack(off, w, v)` (R171). -/
def State.pack (s : State) (off w : Nat) (v : Half) : State :=
  { s with
    ob := packBits s.ob off w v
    status := { s.status with trunc := s.status.trunc || truncates v w } }

/-- Pack the values of the listed pixels one after another from bit `pos` (R175). -/
def packAll (width : Pixel → Nat) (value : Pixel → Half) : List Pixel → Nat → State → State
  | [], _, s => s
  | p :: ps, pos, s => packAll width value ps (pos + width p) (s.pack pos (width p) (value p))

/-- PUT (R173): the selector is checked first, then the range. -/
def execPut (off : BitVec 7) (wm1 sh : BitVec 4) (sel : BitVec 8) (s : State) : Result :=
  match selSource sel with
  | none => .next (s.raise .illegalOperand)
  | some src => checked [(putFits off wm1, .packRange)] s
      (s.pack off.toNat (putWidth wm1) (s.sourceValue src >>> sh.toNat)).complete

/-- PUTIX (R175): the whole stream must fit before any bit is written. -/
def execPutix (t : BitVec 1) (off : BitVec 7) (iw : BitVec 3) (na : BitVec 2) (s : State) : Result :=
  checked [(widthOk iw, .illegalOperand), (s.streamFits off iw.toNat na, .packRange)] s
    (packAll (s.indexBits iw.toNat na) (fun p => (s.ix[streamOf t][p]).setWidth 16) allPixels off.toNat
      s).complete

end Sys2Proof.Machine
end

