-- ==== Sys2Proof/Machine/Quantize.lean ====
section
/-! DEFINITION. The quantize-to-endpoint unit (40_quantize.md rules R110 to R121). -/

namespace Sys2Proof.Machine

/-! ### The functions of one channel -/

/-- QNTL's function: expand, scale, round, truncate (R112). -/
def quantL (bits : Nat) (raw : Half) : Nat :=
  let v := raw.toNat % 256
  (((v <<< 8) + v) * (2 ^ bits - 1) + 32768) >>> 16

/-- QNTLP's function: quantize to `bits + 1` bits and drop the lowest (R113). -/
def quantLP (bits : Nat) (raw : Half) : Nat := quantL (bits + 1) raw >>> 1

/-- Bit replication of a `bits`-bit value to 8 bits (R116). -/
def replicateBits (bits q : Nat) : Nat :=
  let v := (q <<< (8 - bits)) % 256
  v ||| (v >>> bits)

/-- UNQL's function (R116). -/
def unquantL (bits : Nat) (q : Half) : Nat := replicateBits bits (q.toNat % 2 ^ bits)

/-- UNQLP's function: the p-bit is the low bit before the expansion (R117). -/
def unquantLP (bits : Nat) (pb : Bool) (q : Half) : Nat :=
  replicateBits (bits + 1) (((q.toNat % 2 ^ bits) <<< 1) ||| pb.toNat)

/-- UNQH's function (R118). -/
def unquantH (bits : Nat) (h : Half) : Nat :=
  let q := h.toNat % 2 ^ bits
  if bits ≥ 15 then q
  else if q = 0 then 0
  else if q = 2 ^ bits - 1 then 0xFFFF
  else ((q <<< 16) + 0x8000) >>> bits

/-- A delta clamped to its field's signed range (R120). -/
def clampDelta (bits : Nat) (d : Int) : Int := max (deltaMin bits) (min (deltaMax bits) d)

/-- A clamped delta as its field holds it: two's complement in `bits` bits, zero above (R24, R120). -/
def deltaField (bits : Nat) (d : Int) : Nat := (clampDelta bits d % 2 ^ bits).toNat

/-! ### The effects -/

/-- Write `EQ` of one endpoint from its `ER`, channel by channel (R112, R113, R114). -/
def State.quantize (s : State) (b : Subset) (e : EndNo) (m : Mask) (f : Half → Nat) : State :=
  { s with eq := s.eq.write b e m fun c => .ofNat (f (s.readER b e c)) }

/-- Write `EU` of one endpoint from its `EQ`, channel by channel (R116, R117, R118). -/
def State.unquantize (s : State) (b : Subset) (e : EndNo) (m : Mask) (f : Half → Nat) : State :=
  { s with eu := s.eu.write b e m fun c => .ofNat (f (s.readEQ b e c)) }

/-- Write `ED` of one endpoint, and mark an overflow (R120). -/
def State.deltaCode (s : State) (b : Subset) (e : EndNo) (m : Mask) (bits : Nat) : State :=
  { s with ed := s.ed.write b e m fun c => .ofNat (deltaField bits (s.deltaOf b e c)) }.markOverflow
    (s.anyDeltaOverflows b e m bits)

/-- ORDER's effect (R119). -/
def State.orderEndpoints (s : State) (b : Subset) (m : Mask) : State :=
  (if s.endpointsRise b m then s.swapEndpoints b m else s).setEql (s.endpointsEqual b m)

/-! ### The commands -/

/-- The operand checks of format Q commands, with the command's range of widths (R95, R111). -/
def widthChecks (s : BitVec 2) (m : Mask) (lo hi : Nat) (bits : BitVec 5) : List (Bool × FaultCause) :=
  subsetChecks s m ++ [(bitsOk lo hi bits, .illegalOperand)]

/-- QNTL (R112). -/
def execQntl (b : BitVec 2) (e : BitVec 1) (m : Mask) (bits : BitVec 5) (s : State) : Result :=
  checked (widthChecks b m 4 8 bits) s
    (s.quantize (subsetOf b) (endOf e) m (quantL bits.toNat)).complete

/-- QNTLP (R113). -/
def execQntlp (b : BitVec 2) (e : BitVec 1) (m : Mask) (bits : BitVec 5) (s : State) : Result :=
  checked (widthChecks b m 4 7 bits) s
    (s.quantize (subsetOf b) (endOf e) m (quantLP bits.toNat)).complete

/-- QNTH (R114), with the open parameter QUANT_H (R115). -/
def execQnth (b : BitVec 2) (e : BitVec 1) (m : Mask) (bits : BitVec 5) (s : State) : Result :=
  checked (widthChecks b m 1 16 bits) s
    (s.quantize (subsetOf b) (endOf e) m fun h => quantH h bits.toNat).complete

/-- UNQL (R116). -/
def execUnql (b : BitVec 2) (e : BitVec 1) (m : Mask) (bits : BitVec 5) (s : State) : Result :=
  checked (widthChecks b m 4 8 bits) s
    (s.unquantize (subsetOf b) (endOf e) m (unquantL bits.toNat)).complete

/-- UNQLP (R117). -/
def execUnqlp (b : BitVec 2) (e : BitVec 1) (m : Mask) (bits : BitVec 5) (s : State) : Result :=
  checked (widthChecks b m 4 7 bits) s
    (s.unquantize (subsetOf b) (endOf e) m
      (unquantLP bits.toNat (s.pb (subsetOf b) (endOf e)))).complete

/-- UNQH (R118). -/
def execUnqh (b : BitVec 2) (e : BitVec 1) (m : Mask) (bits : BitVec 5) (s : State) : Result :=
  checked (widthChecks b m 1 16 bits) s
    (s.unquantize (subsetOf b) (endOf e) m (unquantH bits.toNat)).complete

/-- ORDER (R119). -/
def execOrder (b : BitVec 2) (m : Mask) (s : State) : Result :=
  checked (subsetChecks b m) s (s.orderEndpoints (subsetOf b) m).complete

/-- DELTA (R120). -/
def execDelta (b : BitVec 2) (e : BitVec 1) (m : Mask) (bits : BitVec 5) (s : State) : Result :=
  checked (widthChecks b m 2 16 bits) s
    (s.deltaCode (subsetOf b) (endOf e) m bits.toNat).complete

end Sys2Proof.Machine
end

