-- ==== Sys2Proof/Machine/Shell.lean ====
section
/-! DEFINITION. The load, candidate and output commands (45_control.md rules R185 to R192). -/

namespace Sys2Proof.Machine

/-- NOP: only the count of completed commands moves (R185). -/
def execNop (s : State) : Result := .next s.complete

/-- BLKINIT's effect (R186). -/
def State.blockStart (s : State) : State :=
  { s with
    ob := 0
    bestOb := 0
    err := 0
    bestErr := errInf
    ix := IndexFile.zero
    status := s.status.blockStart }

/-- BLKINIT (R186). -/
def execBlkinit (s : State) : Result := .next s.blockStart.complete

/-- CANDINIT's effect (R187). -/
def State.candidateStart (s : State) : State :=
  { s with
    ob := 0
    err := 0
    ix := IndexFile.zero
    status := s.status.candidateStart }

/-- CANDINIT (R187). -/
def execCandinit (s : State) : Result := .next s.candidateStart.complete

/-- LDC: the register number is checked before the value (R188, R266). -/
def execLdc (reg : BitVec 8) (imm : Half) (s : State) : Result :=
  match ldcTarget reg with
  | none => .next (s.raise .illegalRegister)
  | some r => checked [(ldcLegal r imm, .illegalOperand)] s (s.storeCtrl r imm).complete

/-- LDPX: `PX[p][c] <- imm16` (R189). -/
def execLdpx (p : BitVec 4) (c : BitVec 2) (imm : Half) (s : State) : Result :=
  .next { s with px := s.px.write (pixelOf p) (chanOf c) (.ofValue imm) }.complete

/-- The mask that holds channel `c` alone. -/
def chanMask (c : Chan) : Mask := 1 <<< c.val

/-- LDER: `ER[s][e][c] <- imm16` (R190). -/
def execLder (b : BitVec 2) (e : BitVec 1) (c : BitVec 2) (imm : Half) (s : State) : Result :=
  checked [(subsetOk b, .illegalOperand)] s
    { s with
      er := s.er.write (subsetOf b) (endOf e) (chanMask (chanOf c)) fun _ => .ofValue imm }.complete

/-- KEEPMIN's effect (R191). -/
def State.keepMin (s : State) : State :=
  if s.candidateWins then
    { s with bestErr := s.err, bestOb := s.ob, status := { s.status with bvalid := true } }
  else s

/-- KEEPMIN (R191). -/
def execKeepmin (s : State) : Result := .next s.keepMin.complete

/-- EMIT (R192): the block's bytes at `OADDR` upward, unless the slot would pass the end of the memory. -/
def execEmit (src : BitVec 1) (s : State) : Result :=
  checked [(s.emitFits, .emitRange)] s (s.storeAtOADDR (s.emitBytes src)).complete

end Sys2Proof.Machine
end

