-- ==== Sys2Proof/Machine/Dispatch.lean ====
section
/-! DEFINITION. The meaning of each command (30_encoding.md rule R94), one arm per constructor. -/

namespace Sys2Proof.Machine

def exec (i : Instr) (s : State) : Host.Outcome State Fault Refusal :=
  match i with
  -- 45_control.md
  | .nop => Sys2Proof.Machine.execNop s
  | .blkinit => Sys2Proof.Machine.execBlkinit s
  | .ldc reg imm => Sys2Proof.Machine.execLdc reg imm s
  | .ldpx p c imm => Sys2Proof.Machine.execLdpx p c imm s
  | .lder b e c imm => Sys2Proof.Machine.execLder b e c imm s
  | .keepmin => Sys2Proof.Machine.execKeepmin s
  | .emit src => Sys2Proof.Machine.execEmit src s
  | .candinit => Sys2Proof.Machine.execCandinit s
  -- 40_quantize.md
  | .qntl b e m bits => Sys2Proof.Machine.execQntl b e m bits s
  | .qntlp b e m bits => Sys2Proof.Machine.execQntlp b e m bits s
  | .qnth b e m bits => Sys2Proof.Machine.execQnth b e m bits s
  | .unql b e m bits => Sys2Proof.Machine.execUnql b e m bits s
  | .unqlp b e m bits => Sys2Proof.Machine.execUnqlp b e m bits s
  | .unqh b e m bits => Sys2Proof.Machine.execUnqh b e m bits s
  | .order b m => Sys2Proof.Machine.execOrder b m s
  | .delta b e m bits => Sys2Proof.Machine.execDelta b e m bits s
  -- 41_palette.md
  | .palw b m iw => Sys2Proof.Machine.execPalw b m iw s
  | .palh b m iw => Sys2Proof.Machine.execPalh b m iw s
  | .palt b m => Sys2Proof.Machine.execPalt b m s
  | .pals b m => Sys2Proof.Machine.execPals b m s
  -- 42_index.md
  | .idxn t b m iw => Sys2Proof.Machine.execIdxn t b m iw s
  | .idxp t b m iw => Sys2Proof.Machine.execIdxp t b m iw s
  -- 43_anchor.md
  | .fix t b m iw => Sys2Proof.Machine.execFix t b m iw s
  -- 44_packer.md
  | .put off wm1 sh sel => Sys2Proof.Machine.execPut off wm1 sh sel s
  | .putix t off iw na => Sys2Proof.Machine.execPutix t off iw na s

end Sys2Proof.Machine
end

