-- ==== Sys2Proof/Machine/Port.lean ====
section
/-! DEFINITION. The command port, the read port and the reset line (30_encoding.md rules R80, R81;
10_state.md rule R48; 60_exceptions.md rules R262, R263; 70_reset_and_hazards.md rule R285): how the
unit serves what the host does next. -/

namespace Sys2Proof.Machine

/-- Acknowledge the command just finished, after all its effects (R81). -/
def acknowledge : Result → Result
  | .next s => .next { s with out := s.out ++ [.ack] }
  | .fault r => .fault r
  | .refused r => .refused r

/-- Decode a command word and perform it: the opcode, then the reserved bits, then the command's own
checks and effect (R96, R99, R266). -/
def runWord (w : Word) (s : State) : Result :=
  match decode w with
  | .command i => exec i s
  | .illegalOpcode => .next (s.raise .illegalOpcode)
  | .reservedField => .next (s.raise .reservedField)

/-- Accept a command word. In the faulted state it is acknowledged and discarded, undecoded (R263). -/
def acceptWord (w : Word) (s : State) : Result :=
  acknowledge (if s.status.fault then .next s else runWord w s)

/-- What of a command's memory writes was performed when reset abandons it (R285): for an EMIT that
would have run, a prefix of its bytes whose length is a free value 0..n (U18; log 7); for any other
command, nothing. -/
def State.abandon (w : Word) (s : State) : State :=
  if s.status.fault then s
  else match decode w with
    | .command (.emit src) =>
      if s.emitFits then
        s.storeAtOADDR ((s.emitBytes src).take (Config.abandonedPrefix s.draws % (s.blockSize + 1)))
      else s
    | _ => s

/-- Serve one event of the port; `s` no longer holds it, and its outputs are cleared. An abandoned command
is not acknowledged (R81, R285). -/
def servePort (ev : PortEvent) (s : State) : Result :=
  match ev with
  | .command w => acceptWord w s
  | .read num => .next { s with out := s.out ++ [.readData (s.readPort num)] }
  | .reset => .next s.assertReset
  | .resetDuring w => .next (s.abandon w).assertReset

/-- One step of the unit: serve the next event of the port; with none, wait, holding all state (R279,
R301). -/
def stepPort (s : State) : Result :=
  match s.pending with
  | [] => .next { s with out := [] }
  | ev :: rest => servePort ev { s with pending := rest, out := [] }

/-- The command word of the table's `nbits`-bit value `w` (R82). -/
def tableWord (nbits w : Nat) : Word := BitVec.ofNat 32 (w % 2 ^ nbits)

/-- The host presents a command word next (R80). -/
def State.present (s : State) (w : Word) : State := { s with pending := .command w :: s.pending }

end Sys2Proof.Machine
end

