-- ==== Sys2Proof/Machine/Step.lean ====
section
/-! DEFINITION. The step function, and the placing of one command word where the next step takes it from
(30_encoding.md rule R80; log 5). -/

namespace Sys2Proof.Machine

/-- One step of BCn-CORE. -/
def step (s : State) : Host.Outcome State Fault Refusal := stepPort s

/-- `s` with the command of the table's bits `w` presented next on the command port (R80). The unit fetches
nothing (20_memory.md R73), so this stands for the host's presenting of the word (log 5). -/
def State.withFetchWord (s : State) (nbits w : Nat) : State := s.present (tableWord nbits w)

end Sys2Proof.Machine
end

