-- ==== Sys2Proof/Machine/Asm.lean ====
section
/-! DEFINITION. The assembly notation (30_encoding.md rule R97) and the pseudo-instructions (rule R98). No
part of the machine: the host and the spec's listings use them. -/

namespace Sys2Proof.Machine

/-! ### Commands from typed operands (R97) -/

/-- `s<s>` as a field. -/
def subsetField (b : Subset) : BitVec 2 := BitVec.ofNat 2 b.val

/-- `e<e>` as a field. -/
def endField (e : EndNo) : BitVec 1 := BitVec.ofNat 1 e.val

/-- `t<t>` as a field. -/
def streamField (t : Stream) : BitVec 1 := BitVec.ofNat 1 t.val

/-- `.<ch>` as a field. -/
def chanField (c : Chan) : BitVec 2 := BitVec.ofNat 2 c.val

/-- `p<p>` as a field. -/
def pixelField (p : Pixel) : BitVec 4 := BitVec.ofNat 4 p.val

/-- The number of a control register that LDC may write (R38). -/
def ctrlNumber : CtrlReg → BitVec 8
  | .cfg => 0x00
  | .pm1 => 0x02
  | .pm2 => 0x03
  | .anch => 0x04
  | .pbits => 0x05
  | .t => 0x06
  | .oaddrLo => 0x08
  | .oaddrHi => 0x09

/-- The selector of a packer source (R172). -/
def sourceSelector : Source → BitVec 8
  | .eq b e c => BitVec.ofNat 8 (8 * b.val + 4 * e.val + c.val)
  | .ed b e c => BitVec.ofNat 8 (0x20 + 8 * b.val + 4 * e.val + c.val)
  | .ix t p => BitVec.ofNat 8 (0x40 + 16 * t.val + p.val)
  | .pb b e => BitVec.ofNat 8 (0x60 + 2 * b.val + e.val)
  | .t => 0x70

/-- `LDC reg, imm16`. -/
def asmLdc (r : CtrlReg) (v : Half) : Instr := .ldc (ctrlNumber r) v

/-- `LDPX p<p>.<ch>, imm16`. -/
def asmLdpx (p : Pixel) (c : Chan) (v : Half) : Instr := .ldpx (pixelField p) (chanField c) v

/-- `LDER s<s>.e<e>.<ch>, imm16`. -/
def asmLder (b : Subset) (e : EndNo) (c : Chan) (v : Half) : Instr :=
  .lder (subsetField b) (endField e) (chanField c) v

/-- `OP s<s>.e<e>, cmask, bits` for a format Q command. -/
def asmQ (k : BitVec 2 → BitVec 1 → Mask → BitVec 5 → Instr) (b : Subset) (e : EndNo) (m : Mask) (bits : Nat) :
    Instr :=
  k (subsetField b) (endField e) m (BitVec.ofNat 5 bits)

/-- `OP s<s>, cmask` for a format O command. -/
def asmO (k : BitVec 2 → Mask → Instr) (b : Subset) (m : Mask) : Instr := k (subsetField b) m

/-- `OP s<s>, cmask, iw` for a format L command. -/
def asmL (k : BitVec 2 → Mask → BitVec 3 → Instr) (b : Subset) (m : Mask) (iw : Nat) : Instr :=
  k (subsetField b) m (BitVec.ofNat 3 iw)

/-- `OP t<t>, s<s>, cmask, iw` for a format X command. -/
def asmX (k : BitVec 1 → BitVec 2 → Mask → BitVec 3 → Instr) (t : Stream) (b : Subset) (m : Mask) (iw : Nat) :
    Instr :=
  k (streamField t) (subsetField b) m (BitVec.ofNat 3 iw)

/-- `PUT off, width, src >> sh`; the assembler stores `width − 1` (R97). -/
def asmPut (off width : Nat) (src : Source) (sh : Nat := 0) : Instr :=
  .put (BitVec.ofNat 7 off) (BitVec.ofNat 4 (width - 1)) (BitVec.ofNat 4 sh) (sourceSelector src)

/-- `PUTIX t<t>, off, iw, na`. -/
def asmPutix (t : Stream) (off iw na : Nat) : Instr :=
  .putix (streamField t) (BitVec.ofNat 7 off) (BitVec.ofNat 3 iw) (BitVec.ofNat 2 na)

/-- `EMIT OB`. -/
def emitOB : Instr := .emit 0

/-- `EMIT BEST`. -/
def emitBest : Instr := .emit 1

/-- The mask names of R15. -/
def maskRgb : Mask := 0b0111

/-- `rgba` (R15). -/
def maskRgba : Mask := 0b1111

/-- `rb`, as in the examples of R97. -/
def maskRb : Mask := 0b0101

/-- A mask of one channel: `r`, `g`, `b` or `a` (R15). -/
def maskOf (c : Chan) : Mask := 1 <<< c.val

/-! ### Pseudo-instructions (R98) -/

/-- `LDA addr32`. -/
def pseudoLda (addr : BitVec 32) : List Instr :=
  [asmLdc .oaddrLo (halfOf addr 0), asmLdc .oaddrHi (halfOf addr 1)]

/-- `PUTC off, width, imm16` (R98, R174). -/
def pseudoPutc (off width : Nat) (v : Half) : List Instr := [asmLdc .t v, asmPut off width .t]

/-- `LDPX4 p<p>, r, g, b, a`. -/
def pseudoLdpx4 (p : Pixel) (r g b a : Half) : List Instr :=
  [asmLdpx p 0 r, asmLdpx p 1 g, asmLdpx p 2 b, asmLdpx p 3 a]

/-- `LDER3 s<s>.e<e>, r, g, b`. -/
def pseudoLder3 (s : Subset) (e : EndNo) (r g b : Half) : List Instr :=
  [asmLder s e 0 r, asmLder s e 1 g, asmLder s e 2 b]

/-! ### Text (R97) -/

/-- A channel's letter. -/
def chanText (c : Nat) : String :=
  match c with
  | 0 => "r"
  | 1 => "g"
  | 2 => "b"
  | _ => "a"

/-- A mask as a string of channel letters, or the number 0. -/
def maskText (m : Mask) : String :=
  if m = 0 then "0" else String.join ((chans m).map fun c => chanText c.val)

/-- The name of a register that LDC may write, else its number. -/
def regText (reg : BitVec 8) : String :=
  match ldcTarget reg with
  | some .cfg => "CFG"
  | some .pm1 => "PM1"
  | some .pm2 => "PM2"
  | some .anch => "ANCH"
  | some .pbits => "PBITS"
  | some .t => "T"
  | some .oaddrLo => "OADDR_LO"
  | some .oaddrHi => "OADDR_HI"
  | none => toString reg.toNat

/-- `s<s>.e<e>`. -/
def pairText (b e : Nat) : String := "s" ++ toString b ++ ".e" ++ toString e

/-- The source of a PUT, else the selector's number. -/
def sourceText (sel : BitVec 8) : String :=
  match selSource sel with
  | some (.eq b e c) => "EQ." ++ pairText b.val e.val ++ "." ++ chanText c.val
  | some (.ed b e c) => "ED." ++ pairText b.val e.val ++ "." ++ chanText c.val
  | some (.ix t p) => "IX.t" ++ toString t.val ++ ".p" ++ toString p.val
  | some (.pb b e) => "PB." ++ pairText b.val e.val
  | some .t => "T"
  | none => toString sel.toNat

/-- Operands of a format Q command. -/
def textQ (name : String) (b : BitVec 2) (e : BitVec 1) (m : Mask) (bits : BitVec 5) : String :=
  name ++ " " ++ pairText b.toNat e.toNat ++ ", " ++ maskText m ++ ", " ++ toString bits.toNat

/-- Operands of a format O command. -/
def textO (name : String) (b : BitVec 2) (m : Mask) : String :=
  name ++ " s" ++ toString b.toNat ++ ", " ++ maskText m

/-- Operands of a format L command. -/
def textL (name : String) (b : BitVec 2) (m : Mask) (iw : BitVec 3) : String :=
  textO name b m ++ ", " ++ toString iw.toNat

/-- Operands of a format X command. -/
def textX (name : String) (t : BitVec 1) (b : BitVec 2) (m : Mask) (iw : BitVec 3) : String :=
  name ++ " t" ++ toString t.toNat ++ ", s" ++ toString b.toNat ++ ", " ++ maskText m ++ ", " ++ toString iw.toNat

/-- A command in the spec's assembly notation (R97). -/
def asmText : Instr → String
  | .nop => "NOP"
  | .blkinit => "BLKINIT"
  | .ldc reg imm => "LDC " ++ regText reg ++ ", " ++ toString imm.toNat
  | .ldpx p c imm => "LDPX p" ++ toString p.toNat ++ "." ++ chanText c.toNat ++ ", " ++ toString imm.toNat
  | .lder b e c imm =>
    "LDER " ++ pairText b.toNat e.toNat ++ "." ++ chanText c.toNat ++ ", " ++ toString imm.toNat
  | .keepmin => "KEEPMIN"
  | .emit src => if src = 0 then "EMIT OB" else "EMIT BEST"
  | .candinit => "CANDINIT"
  | .qntl b e m n => textQ "QNTL" b e m n
  | .qntlp b e m n => textQ "QNTLP" b e m n
  | .qnth b e m n => textQ "QNTH" b e m n
  | .unql b e m n => textQ "UNQL" b e m n
  | .unqlp b e m n => textQ "UNQLP" b e m n
  | .unqh b e m n => textQ "UNQH" b e m n
  | .order b m => textO "ORDER" b m
  | .delta b e m n => textQ "DELTA" b e m n
  | .palw b m iw => textL "PALW" b m iw
  | .palh b m iw => textL "PALH" b m iw
  | .palt b m => textO "PALT" b m
  | .pals b m => textO "PALS" b m
  | .idxn t b m iw => textX "IDXN" t b m iw
  | .idxp t b m iw => textX "IDXP" t b m iw
  | .fix t b m iw => textX "FIX" t b m iw
  | .put off wm1 sh sel =>
    "PUT " ++ toString off.toNat ++ ", " ++ toString (putWidth wm1) ++ ", " ++ sourceText sel
      ++ (if sh = 0 then "" else " >> " ++ toString sh.toNat)
  | .putix t off iw na =>
    "PUTIX t" ++ toString t.toNat ++ ", " ++ toString off.toNat ++ ", " ++ toString iw.toNat ++ ", "
      ++ toString na.toNat

end Sys2Proof.Machine
end

