-- ==== Sys2Proof/WellFormed.lean ====
section
/-! DEFINITION. Which commands have legal operands: the checks of 30_encoding.md rule R95 that depend
on the command alone. The two checks that also read State, the range of PUTIX (44_packer.md rule R175)
and of EMIT (20_memory.md rule R65), are in Machine/Operands.lean and Machine/Ops.lean. -/

namespace Sys2Proof

/-- The operand checks of R95, command by command. -/
def Instr.wellFormed : Instr → Bool
  | .nop => true
  | .blkinit => true
  | .ldc reg imm => match ldcTarget reg with
    | some r => ldcLegal r imm
    | none => false
  | .ldpx _ _ _ => true
  | .lder s _ _ _ => subsetOk s
  | .keepmin => true
  | .emit _ => true
  | .candinit => true
  | .qntl s _ m b => subsetOk s && maskOk m && bitsOk 4 8 b
  | .qntlp s _ m b => subsetOk s && maskOk m && bitsOk 4 7 b
  | .qnth s _ m b => subsetOk s && maskOk m && bitsOk 1 16 b
  | .unql s _ m b => subsetOk s && maskOk m && bitsOk 4 8 b
  | .unqlp s _ m b => subsetOk s && maskOk m && bitsOk 4 7 b
  | .unqh s _ m b => subsetOk s && maskOk m && bitsOk 1 16 b
  | .order s m => subsetOk s && maskOk m
  | .delta s _ m b => subsetOk s && maskOk m && bitsOk 2 16 b
  | .palw s m iw => subsetOk s && maskOk m && widthOk iw
  | .palh s m iw => subsetOk s && maskOk m && widthOk iw
  | .palt s m => subsetOk s && maskOk m
  | .pals s m => subsetOk s && maskOk m
  | .idxn _ s m iw => subsetOk s && maskOk m && widthOk iw
  | .idxp _ s m iw => subsetOk s && maskOk m && widthOk iw
  | .fix _ s m iw => subsetOk s && maskOk m && widthOk iw
  | .put off wm1 _ sel => selOk sel && putFits off wm1
  | .putix _ _ iw _ => widthOk iw

end Sys2Proof
end

