-- ==== Sys2Proof/Safety.lean ====
section
/-! DEFINITION. What counts as a safe run of BCn-CORE, in the terms claims use: a command that raises no
fault (60_exceptions.md rule R265), the fault record (rule R262), the invariant of the unit's state, when
no run can tell two states apart (10_state.md rule R35), and the sums and places that the spec's formulas
name (42_index.md rules R146, R148; 44_packer.md rule R175). -/

namespace Sys2Proof.Machine

/-- The range checks that read State: EMIT's slot ends inside the memory (R65), PUTIX's stream ends inside
the block (R175). -/
def State.rangeOk (s : State) : Instr → Bool
  | .nop => true
  | .blkinit => true
  | .ldc _ _ => true
  | .ldpx _ _ _ => true
  | .lder _ _ _ _ => true
  | .keepmin => true
  | .emit _ => s.emitFits
  | .candinit => true
  | .qntl _ _ _ _ => true
  | .qntlp _ _ _ _ => true
  | .qnth _ _ _ _ => true
  | .unql _ _ _ _ => true
  | .unqlp _ _ _ _ => true
  | .unqh _ _ _ _ => true
  | .order _ _ => true
  | .delta _ _ _ _ => true
  | .palw _ _ _ => true
  | .palh _ _ _ => true
  | .palt _ _ => true
  | .pals _ _ => true
  | .idxn _ _ _ _ => true
  | .idxp _ _ _ _ => true
  | .fix _ _ _ _ => true
  | .put _ _ _ _ => true
  | .putix _ off iw na => s.streamFits off iw.toNat na

/-- A command that a well-formed host may issue in `s`: legal operands, the field or stream inside 128
bits, room for the block (R265). -/
def State.legal (s : State) (i : Instr) : Bool := i.wellFormed && s.rangeOk i

/-- The unit is not in the faulted state (R263). -/
def State.healthy (s : State) : Prop := s.status.fault = false

/-- `s` with the record of a first fault of the given code, and nothing else changed (R262). -/
def State.faultRecord (s : State) (code : BitVec 8) : State :=
  { s with fcode := code, fcidx := s.cidx, status := { s.status with fault := true } }

/-- What every state of a run satisfies. -/
structure Inv (s : State) : Prop where
  /-- The output memory is in canonical form. -/
  memory : s.mem.wf = true
  /-- Every stored control value is legal (R39, R40, R43, R44). -/
  controls : ldcLegal .cfg s.cfg = true ∧ ldcLegal .anch s.anch = true ∧ ldcLegal .pbits s.pbits = true
  /-- In the faulted state the record names a cause, and `CIDX = FCIDX` (R261, R264). -/
  recorded : s.status.fault = true → 1 ≤ s.fcode.toNat ∧ s.fcode.toNat ≤ 6 ∧ s.fcidx = s.cidx
  /-- Out of it the record is empty (R46). -/
  unrecorded : s.status.fault = false → s.fcode = 0 ∧ s.fcidx = 0
  /-- A candidate with an overflowing delta has the error sentinel (R32, R120). -/
  sentinel : s.status.dovf = true → s.err = errInf
  /-- With no candidate kept the candidate store is empty (R33, R186). -/
  emptyStore : s.status.bvalid = false → s.bestOb = 0 ∧ s.bestErr = errInf

/-! ### States that no run can tell apart -/

/-- Two data registers that agree in all a command can see: both written, with one value, or neither
(R35). -/
def DataReg.Alike (r r' : DataReg) : Prop :=
  r.written = r'.written ∧ (r.written = true → r.bits = r'.bits)

/-- Two states that differ at most in the stored bits of registers no command has written (logs 1, 2). -/
structure Alike (s s' : State) : Prop where
  px : ∀ (p : Pixel) (c : Chan), (s.px[p][c]).Alike (s'.px[p][c])
  er : ∀ (b : Subset) (e : EndNo) (c : Chan), (s.er[b][e][c]).Alike (s'.er[b][e][c])
  eq : ∀ (b : Subset) (e : EndNo) (c : Chan), (s.eq[b][e][c]).Alike (s'.eq[b][e][c])
  ed : ∀ (b : Subset) (e : EndNo) (c : Chan), (s.ed[b][e][c]).Alike (s'.ed[b][e][c])
  eu : ∀ (b : Subset) (e : EndNo) (c : Chan), (s.eu[b][e][c]).Alike (s'.eu[b][e][c])
  pal : ∀ (b : Subset) (k : Entry) (c : Chan), (s.pal[b][k][c]).Alike (s'.pal[b][k][c])
  rest : s' = { s with px := s'.px, er := s'.er, eq := s'.eq, ed := s'.ed, eu := s'.eu, pal := s'.pal }

/-! ### The quantities of the spec's formulas -/

/-- `sum over c in chans(cmask) of (PX[p][c] − PAL[s][k][c])^2` (R146, R147). -/
def State.squaredError (s : State) (b : Subset) (m : Mask) (p : Pixel) (k : Entry) : Int :=
  ∑ c : Chan, if inMask m c then ((s.readPX p c).toNat - (s.readPAL b k c).toNat : Int) ^ 2 else 0

/-- `n = sum over c of span[c]^2`, the palette's last entry being `last` (R148). -/
def State.spanNorm (s : State) (b : Subset) (m : Mask) (last : Entry) : Int :=
  ∑ c : Chan, if inMask m c then
    ((s.readPAL b last c).toNat - (s.readPAL b 0 c).toNat : Int) ^ 2 else 0

/-- `d = sum over c of span[c] * (PX[p][c] − lo[c])` (R148). -/
def State.spanDot (s : State) (b : Subset) (m : Mask) (last : Entry) (p : Pixel) : Int :=
  ∑ c : Chan, if inMask m c then
    ((s.readPAL b last c).toNat - (s.readPAL b 0 c).toNat : Int)
      * ((s.readPX p c).toNat - (s.readPAL b 0 c).toNat : Int) else 0

/-- The bit of `OB` at which PUTIX packs pixel `p`: `off` plus the widths of the pixels before it (R175). -/
def State.pixelStart (s : State) (off iw : Nat) (na : BitVec 2) (p : Pixel) : Nat :=
  off + ∑ q : Pixel, if q < p then s.indexBits iw na q else 0

end Sys2Proof.Machine
end

