-- ==== Sys2Proof/Certificates/Slice0/Obligations.lean ====
section
/-! DEFINITION. The statements for the provers. `Obligations.<Name>` is a proposition about the model; its
docstring names the rules of the spec it formalises. Frames are written as record equalities: `t = { s with
f := t.f, … }` says that every field not listed is as before. Operand fields are raw; `subsetOf`, `endOf`,
`streamOf`, `chanOf`, `pixelOf` name what they select (`Obligations.OperandFieldsNameTheirNumbers`). -/

section

open Sys2Proof Sys2Proof.Machine

/-! ### Encoding (30_encoding.md) -/

/-- Every command's word decodes to the command, with every operand at every value its field admits. -/
def Obligations.DecodeOfEncode : Prop :=
  ∀ i : Instr, decode (encode i) = .command i

/-- A word that decodes to a command is the one word that spells it: no reserved bit is ignored (R96). -/
def Obligations.EncodeOfDecode : Prop :=
  ∀ (w : Word) (i : Instr), decode w = .command i → encode i = w

/-- R94: a word spells the command iff `w & mask = match`, with the match and mask of the table's row. -/
def Obligations.WordsSpellByMatchAndMask : Prop :=
  ∀ w : Word,
    (decode w = .command .nop ↔ w &&& 0xFFFFFFFF = 0x00000000) ∧
    (decode w = .command .blkinit ↔ w &&& 0xFFFFFFFF = 0x01000000) ∧
    ((∃ reg imm, decode w = .command (.ldc reg imm)) ↔ w &&& 0xFF000000 = 0x02000000) ∧
    ((∃ p c imm, decode w = .command (.ldpx p c imm)) ↔ w &&& 0xFF030000 = 0x03000000) ∧
    ((∃ b e c imm, decode w = .command (.lder b e c imm)) ↔ w &&& 0xFF070000 = 0x04000000) ∧
    (decode w = .command .keepmin ↔ w &&& 0xFFFFFFFF = 0x05000000) ∧
    ((∃ src, decode w = .command (.emit src)) ↔ w &&& 0xFF7FFFFF = 0x06000000) ∧
    (decode w = .command .candinit ↔ w &&& 0xFFFFFFFF = 0x07000000) ∧
    ((∃ b e m n, decode w = .command (.qntl b e m n)) ↔ w &&& 0xFF000FFF = 0x10000000) ∧
    ((∃ b e m n, decode w = .command (.qntlp b e m n)) ↔ w &&& 0xFF000FFF = 0x11000000) ∧
    ((∃ b e m n, decode w = .command (.qnth b e m n)) ↔ w &&& 0xFF000FFF = 0x12000000) ∧
    ((∃ b e m n, decode w = .command (.unql b e m n)) ↔ w &&& 0xFF000FFF = 0x13000000) ∧
    ((∃ b e m n, decode w = .command (.unqlp b e m n)) ↔ w &&& 0xFF000FFF = 0x14000000) ∧
    ((∃ b e m n, decode w = .command (.unqh b e m n)) ↔ w &&& 0xFF000FFF = 0x15000000) ∧
    ((∃ b m, decode w = .command (.order b m)) ↔ w &&& 0xFF21FFFF = 0x16000000) ∧
    ((∃ b e m n, decode w = .command (.delta b e m n)) ↔ w &&& 0xFF000FFF = 0x17000000) ∧
    ((∃ b m iw, decode w = .command (.palw b m iw)) ↔ w &&& 0xFF203FFF = 0x20000000) ∧
    ((∃ b m iw, decode w = .command (.palh b m iw)) ↔ w &&& 0xFF203FFF = 0x21000000) ∧
    ((∃ b m, decode w = .command (.palt b m)) ↔ w &&& 0xFF21FFFF = 0x22000000) ∧
    ((∃ b m, decode w = .command (.pals b m)) ↔ w &&& 0xFF21FFFF = 0x23000000) ∧
    ((∃ t b m iw, decode w = .command (.idxn t b m iw)) ↔ w &&& 0xFF003FFF = 0x30000000) ∧
    ((∃ t b m iw, decode w = .command (.idxp t b m iw)) ↔ w &&& 0xFF003FFF = 0x31000000) ∧
    ((∃ t b m iw, decode w = .command (.fix t b m iw)) ↔ w &&& 0xFF003FFF = 0x40000000) ∧
    ((∃ off wm1 sh sel, decode w = .command (.put off wm1 sh sel)) ↔ w &&& 0xFF001000 = 0x50000000) ∧
    ((∃ t off iw na, decode w = .command (.putix t off iw na)) ↔ w &&& 0xFF0007FF = 0x51000000)

/-- R83 to R92: where each field of each format sits, as the sum of the fields at their lowest bits. -/
def Obligations.EncodedWordIsSumOfFields : Prop :=
  ∀ (b c na : BitVec 2) (e t src : BitVec 1) (m p wm1 sh : BitVec 4) (n : BitVec 5) (iw : BitVec 3)
    (off : BitVec 7) (reg sel : BitVec 8) (imm : Half),
    (encode .nop).toNat = 0 ∧
    (encode .blkinit).toNat = 0x01 * 2 ^ 24 ∧
    (encode (.ldc reg imm)).toNat = 0x02 * 2 ^ 24 + reg.toNat * 2 ^ 16 + imm.toNat ∧
    (encode (.ldpx p c imm)).toNat = 0x03 * 2 ^ 24 + p.toNat * 2 ^ 20 + c.toNat * 2 ^ 18 + imm.toNat ∧
    (encode (.lder b e c imm)).toNat
      = 0x04 * 2 ^ 24 + b.toNat * 2 ^ 22 + e.toNat * 2 ^ 21 + c.toNat * 2 ^ 19 + imm.toNat ∧
    (encode .keepmin).toNat = 0x05 * 2 ^ 24 ∧
    (encode (.emit src)).toNat = 0x06 * 2 ^ 24 + src.toNat * 2 ^ 23 ∧
    (encode .candinit).toNat = 0x07 * 2 ^ 24 ∧
    (∀ k op, (k, op) ∈ [((.qntl b e m n : Instr), 0x10), (.qntlp b e m n, 0x11), (.qnth b e m n, 0x12),
        (.unql b e m n, 0x13), (.unqlp b e m n, 0x14), (.unqh b e m n, 0x15), (.delta b e m n, 0x17)] →
      (encode k).toNat
        = op * 2 ^ 24 + b.toNat * 2 ^ 22 + e.toNat * 2 ^ 21 + m.toNat * 2 ^ 17 + n.toNat * 2 ^ 12) ∧
    (∀ k op, (k, op) ∈ [((.order b m : Instr), 0x16), (.palt b m, 0x22), (.pals b m, 0x23)] →
      (encode k).toNat = op * 2 ^ 24 + b.toNat * 2 ^ 22 + m.toNat * 2 ^ 17) ∧
    (∀ k op, (k, op) ∈ [((.palw b m iw : Instr), 0x20), (.palh b m iw, 0x21)] →
      (encode k).toNat = op * 2 ^ 24 + b.toNat * 2 ^ 22 + m.toNat * 2 ^ 17 + iw.toNat * 2 ^ 14) ∧
    (∀ k op, (k, op) ∈ [((.idxn t b m iw : Instr), 0x30), (.idxp t b m iw, 0x31), (.fix t b m iw, 0x40)] →
      (encode k).toNat
        = op * 2 ^ 24 + t.toNat * 2 ^ 23 + b.toNat * 2 ^ 21 + m.toNat * 2 ^ 17 + iw.toNat * 2 ^ 14) ∧
    (encode (.put off wm1 sh sel)).toNat
      = 0x50 * 2 ^ 24 + off.toNat * 2 ^ 17 + wm1.toNat * 2 ^ 13 + sh.toNat * 2 ^ 8 + sel.toNat ∧
    (encode (.putix t off iw na)).toNat
      = 0x51 * 2 ^ 24 + t.toNat * 2 ^ 23 + off.toNat * 2 ^ 16 + iw.toNat * 2 ^ 13 + na.toNat * 2 ^ 11

/-- Words printed in the spec's rules decode to the commands the rules print beside them. -/
def Obligations.PrintedWordsDecode : Prop :=
  decode 0x02000015 = .command (.ldc 0x00 0x0015) ∧
  decode 0x03540080 = .command (.ldpx 5 1 0x80) ∧
  decode 0x042000FF = .command (.lder 0 1 0 255) ∧
  decode 0x06800000 = .command (.emit 1) ∧
  decode 0x100A5000 = .command (.qntl 0 0 0b0101 5) ∧
  decode 0x160E0000 = .command (.order 0 0b0111) ∧
  decode 0x214EC000 = .command (.palh 1 0b0111 3) ∧
  decode 0x23820000 = .command (.pals 2 0b0001) ∧
  decode 0x3002C000 = .command (.idxn 0 0 0b0001 3) ∧
  decode 0x4022C000 = .command (.fix 0 1 0b0001 3) ∧
  decode 0x50580A00 = .command (.put 44 0 10 0x00) ∧
  decode 0x51418800 = .command (.putix 0 65 4 1)

/-- R93: what the operand fields name. -/
def Obligations.OperandFieldsNameTheirNumbers : Prop :=
  (∀ b : BitVec 2, b ≠ 3 → (subsetOf b).val = b.toNat) ∧
  (∀ e : BitVec 1, (endOf e).val = e.toNat) ∧
  (∀ t : BitVec 1, (streamOf t).val = t.toNat) ∧
  (∀ c : BitVec 2, (chanOf c).val = c.toNat) ∧
  (∀ p : BitVec 4, (pixelOf p).val = p.toNat)

/-! ### The port, faults and reset (30_encoding.md, 60_exceptions.md, 70_reset_and_hazards.md) -/

/-- R80: a step on a presented command word is `exec` of the command the word decodes to, followed by the
acknowledgement; the word leaves the port and the outputs are those of this step alone. -/
def Obligations.StepRunsTheDecodedCommand : Prop :=
  ∀ (s : State) (w : Word) (rest : List PortEvent) (i : Instr),
    s.pending = .command w :: rest → s.status.fault = false → decode w = .command i →
    step s = acknowledge (exec i { s with pending := rest, out := [] })

/-- R279, R301: with nothing presented the unit holds its state and drives nothing. -/
def Obligations.IdleUnitWaits : Prop :=
  ∀ s : State, s.pending = [] → step s = .next { s with out := [] }

/-- R48: a read answers the 16-bit view and has no side effect, in the faulted state too. -/
def Obligations.ReadPortHasNoSideEffect : Prop :=
  ∀ (s : State) (num : BitVec 8) (rest : List PortEvent), s.pending = .read num :: rest →
    step s = .next { s with pending := rest, out := [.readData (s.readPort num)] }

/-- R38: the control register map of the read port. -/
def Obligations.ReadPortMap : Prop :=
  ∀ s : State,
    s.readPort 0x00 = s.cfg ∧
    (∀ j, (s.readPort 0x01).getLsbD j
      = ((j = 0 && s.status.fault) || (j = 1 && s.status.dovf) || (j = 2 && s.status.trunc)
        || (j = 3 && s.status.eql) || (j = 4 && s.status.bvalid))) ∧
    s.readPort 0x02 = s.pm1 ∧ s.readPort 0x03 = s.pm2 ∧ s.readPort 0x04 = s.anch ∧
    s.readPort 0x05 = s.pbits ∧ s.readPort 0x06 = s.t ∧
    s.readPort 0x09 ++ s.readPort 0x08 = s.oaddr ∧
    s.readPort 0x0B ++ s.readPort 0x0A = s.cidx ∧
    (s.readPort 0x0C).toNat = s.fcode.toNat ∧
    s.readPort 0x0E ++ s.readPort 0x0D = s.fcidx ∧
    s.readPort 0x0F = 0xBC01 ∧
    s.readPort 0x13 ++ s.readPort 0x12 ++ s.readPort 0x11 ++ s.readPort 0x10 = s.err ∧
    s.readPort 0x17 ++ s.readPort 0x16 ++ s.readPort 0x15 ++ s.readPort 0x14 = s.bestErr ∧
    s.readPort 0x27 ++ s.readPort 0x26 ++ s.readPort 0x25 ++ s.readPort 0x24 ++ s.readPort 0x23
      ++ s.readPort 0x22 ++ s.readPort 0x21 ++ s.readPort 0x20 = s.ob ∧
    s.readPort 0x2F ++ s.readPort 0x2E ++ s.readPort 0x2D ++ s.readPort 0x2C ++ s.readPort 0x2B
      ++ s.readPort 0x2A ++ s.readPort 0x29 ++ s.readPort 0x28 = s.bestOb ∧
    ∀ n : BitVec 8, n.toNat = 0x07 ∨ (0x18 ≤ n.toNat ∧ n.toNat ≤ 0x1F) ∨ 0x30 ≤ n.toNat →
      s.readPort n = 0

/-- R81: a command, faulting or not, is acknowledged once, after all it drives; a command that reset
abandons is not. -/
def Obligations.CommandsAreAcknowledgedOnce : Prop :=
  ∀ (s : State) (w : Word) (rest : List PortEvent),
    (s.pending = .command w :: rest →
      ∃ t ws, step s = .next t ∧ t.out = ws ++ [.ack] ∧ PortOutput.ack ∉ ws) ∧
    (s.pending = .resetDuring w :: rest → ∃ t, step s = .next t ∧ PortOutput.ack ∉ t.out)

/-- R96: a word whose opcode is none of the 25 raises IllegalOpcode; nothing but the record changes. -/
def Obligations.UndefinedOpcodeFaults : Prop :=
  ∀ (s : State) (w : Word) (rest : List PortEvent),
    s.pending = .command w :: rest → s.status.fault = false →
    w.toNat / 2 ^ 24 ∉ [0x00, 0x01, 0x02, 0x03, 0x04, 0x05, 0x06, 0x07, 0x10, 0x11, 0x12, 0x13, 0x14, 0x15,
      0x16, 0x17, 0x20, 0x21, 0x22, 0x23, 0x30, 0x31, 0x40, 0x50, 0x51] →
    step s = .next { s.faultRecord 1 with pending := rest, out := [.ack] }

/-- R96, R266: a defined opcode with a 1 in a reserved bit of its format raises ReservedField, whatever the
operand fields hold; nothing but the record changes. -/
def Obligations.ReservedBitFaults : Prop :=
  ∀ (s : State) (w : Word) (rest : List PortEvent) (op : Nat) (reserved : Word),
    s.pending = .command w :: rest → s.status.fault = false →
    (op, reserved) ∈ [(0x00, (0x00FFFFFF : Word)), (0x01, 0x00FFFFFF), (0x05, 0x00FFFFFF),
      (0x07, 0x00FFFFFF), (0x03, 0x00030000), (0x04, 0x00070000), (0x06, 0x007FFFFF), (0x10, 0x00000FFF),
      (0x11, 0x00000FFF), (0x12, 0x00000FFF), (0x13, 0x00000FFF), (0x14, 0x00000FFF), (0x15, 0x00000FFF),
      (0x17, 0x00000FFF), (0x16, 0x0021FFFF), (0x22, 0x0021FFFF), (0x23, 0x0021FFFF), (0x20, 0x00203FFF),
      (0x21, 0x00203FFF), (0x30, 0x00003FFF), (0x31, 0x00003FFF), (0x40, 0x00003FFF), (0x50, 0x00001000),
      (0x51, 0x000007FF)] →
    w.toNat / 2 ^ 24 = op → w &&& reserved ≠ 0 →
    step s = .next { s.faultRecord 2 with pending := rest, out := [.ack] }

/-- R95, R261 code 3: subset 3, an empty channel mask, a width outside the command's range and an index
width other than 2, 3, 4 raise IllegalOperand; nothing but the record changes. -/
def Obligations.IllegalOperandsFault : Prop :=
  ∀ (s : State) (b : BitVec 2) (e t : BitVec 1) (c na : BitVec 2) (m : Mask) (n : BitVec 5) (iw : BitVec 3)
    (off : BitVec 7) (imm : Half),
    s.status.fault = false →
    (b = 3 → exec (.lder b e c imm) s = .next (s.faultRecord 3)) ∧
    (b = 3 ∨ m = 0 →
      exec (.order b m) s = .next (s.faultRecord 3) ∧ exec (.palt b m) s = .next (s.faultRecord 3) ∧
      exec (.pals b m) s = .next (s.faultRecord 3)) ∧
    (b = 3 ∨ m = 0 ∨ n.toNat < 4 ∨ 8 < n.toNat →
      exec (.qntl b e m n) s = .next (s.faultRecord 3) ∧ exec (.unql b e m n) s = .next (s.faultRecord 3)) ∧
    (b = 3 ∨ m = 0 ∨ n.toNat < 4 ∨ 7 < n.toNat →
      exec (.qntlp b e m n) s = .next (s.faultRecord 3) ∧
      exec (.unqlp b e m n) s = .next (s.faultRecord 3)) ∧
    (b = 3 ∨ m = 0 ∨ n.toNat < 1 ∨ 16 < n.toNat →
      exec (.qnth b e m n) s = .next (s.faultRecord 3) ∧ exec (.unqh b e m n) s = .next (s.faultRecord 3)) ∧
    (b = 3 ∨ m = 0 ∨ n.toNat < 2 ∨ 16 < n.toNat →
      exec (.delta b e m n) s = .next (s.faultRecord 3)) ∧
    (b = 3 ∨ m = 0 ∨ iw.toNat < 2 ∨ 4 < iw.toNat →
      exec (.palw b m iw) s = .next (s.faultRecord 3) ∧ exec (.palh b m iw) s = .next (s.faultRecord 3) ∧
      exec (.idxn t b m iw) s = .next (s.faultRecord 3) ∧ exec (.idxp t b m iw) s = .next (s.faultRecord 3) ∧
      exec (.fix t b m iw) s = .next (s.faultRecord 3)) ∧
    (iw.toNat < 2 ∨ 4 < iw.toNat → exec (.putix t off iw na) s = .next (s.faultRecord 3))

/-- R188, R266: LDC of a number that is read-only or reserved raises IllegalRegister whatever the value; of
an illegal value, IllegalOperand. No register changes. -/
def Obligations.IllegalLoadsFault : Prop :=
  ∀ (s : State) (reg : BitVec 8) (imm : Half), s.status.fault = false →
    (reg.toNat = 0x01 ∨ reg.toNat = 0x07 ∨ 0x0A ≤ reg.toNat →
      exec (.ldc reg imm) s = .next (s.faultRecord 6)) ∧
    (reg.toNat = 0x00 →
      5 < imm.toNat % 8 ∨ imm.toNat / 8 % 2 = 1 ∨ imm.toNat / 16 % 4 = 3 ∨ 64 ≤ imm.toNat →
      exec (.ldc reg imm) s = .next (s.faultRecord 3)) ∧
    (reg.toNat = 0x04 → 256 ≤ imm.toNat → exec (.ldc reg imm) s = .next (s.faultRecord 3)) ∧
    (reg.toNat = 0x05 → 64 ≤ imm.toNat → exec (.ldc reg imm) s = .next (s.faultRecord 3))

/-- R172, R173, R175, R266: an undefined selector raises IllegalOperand even where the range is wrong too; a
field or stream that would pass bit 127 raises PackRange. `OB` and TRUNC keep their values. -/
def Obligations.PackingFaults : Prop :=
  ∀ (s : State) (off : BitVec 7) (wm1 sh : BitVec 4) (sel : BitVec 8) (t : BitVec 1) (iw : BitVec 3)
    (na : BitVec 2),
    s.status.fault = false →
    ((0x18 ≤ sel.toNat ∧ sel.toNat ≤ 0x1F) ∨ (0x38 ≤ sel.toNat ∧ sel.toNat ≤ 0x3F) ∨
        (0x66 ≤ sel.toNat ∧ sel.toNat ≤ 0x6F) ∨ 0x71 ≤ sel.toNat →
      exec (.put off wm1 sh sel) s = .next (s.faultRecord 3)) ∧
    (sel.toNat < 0x18 ∨ (0x20 ≤ sel.toNat ∧ sel.toNat < 0x38) ∨ (0x40 ≤ sel.toNat ∧ sel.toNat < 0x66) ∨
        sel.toNat = 0x70 →
      128 < off.toNat + (wm1.toNat + 1) → exec (.put off wm1 sh sel) s = .next (s.faultRecord 4)) ∧
    (2 ≤ iw.toNat → iw.toNat ≤ 4 → 128 < off.toNat + ∑ p : Pixel, s.indexBits iw.toNat na p →
      exec (.putix t off iw na) s = .next (s.faultRecord 4))

/-- R65: an EMIT whose slot passes the end of the memory raises EmitRange and writes no byte. -/
def Obligations.EmitPastTheEndFaults : Prop :=
  ∀ (s : State) (src : BitVec 1) (n : Nat), s.status.fault = false →
    n = (if s.cfg.toNat % 8 = 0 ∨ s.cfg.toNat % 8 = 2 then 8 else 16) → 2 ^ 32 < s.oaddr.toNat + n →
    ∃ t, exec (.emit src) s = .next t ∧ t = s.faultRecord 5 ∧ ∀ a, t.mem.read a = s.mem.read a

/-- R262, R264: when a step raises the first fault, the step served a command, the record names a cause and
the command's index, `CIDX` stays, the fault line follows, the command is acknowledged, and nothing else
changes. -/
def Obligations.RaisingAFaultWritesTheRecord : Prop :=
  ∀ s t : State, s.status.fault = false → step s = .next t → t.status.fault = true →
    ∃ (w : Word) (rest : List PortEvent) (f : FaultCause), s.pending = .command w :: rest ∧
      t = { s with
        fcode := faultCode f, fcidx := s.cidx, status := { s.status with fault := true },
        pending := rest, out := [.ack] } ∧
      t.faultLine = true ∧ ∀ a, t.mem.read a = s.mem.read a

/-- R263: in the faulted state a command is acknowledged and discarded, a read works as usual, and only
reset leaves the state. -/
def Obligations.FaultedUnitDiscards : Prop :=
  ∀ s : State, s.status.fault = true →
    (∀ w rest, s.pending = .command w :: rest →
      step s = .next { s with pending := rest, out := [.ack] }) ∧
    (∀ num rest, s.pending = .read num :: rest →
      step s = .next { s with pending := rest, out := [.readData (s.readPort num)] }) ∧
    ∀ t, step s = .next t → t.status.fault = false →
      ∃ rest, s.pending = .reset :: rest ∨ ∃ w, s.pending = .resetDuring w :: rest

/-- R52: the state after reset. The data files hold no specified value: no command has written them. -/
def Obligations.ResetStateHasTheListedValues : Prop :=
  let r := State.reset
  (∀ (t : Stream) (p : Pixel), r.ix[t][p] = 0) ∧ r.ob = 0 ∧ r.bestOb = 0 ∧ r.err = 0 ∧
  r.bestErr = 0xFFFFFFFFFFFFFFFF ∧ r.t = 0 ∧ r.cidx = 0 ∧ r.readPort 0x01 = 0 ∧ r.cfg = 0 ∧ r.pm1 = 0 ∧ r.pm2 = 0 ∧ r.anch = 0 ∧
  r.pbits = 0 ∧ (∀ b e, r.pb b e = false) ∧ r.oaddr = 0 ∧ r.fcode = 0 ∧ r.fcidx = 0 ∧ r.readPort 0x0F = 0xBC01 ∧
  (∀ (p : Pixel) (c : Chan), r.px[p][c].written = false) ∧
  (∀ (b : Subset) (e : EndNo) (c : Chan), r.er[b][e][c].written = false ∧ r.eq[b][e][c].written = false ∧
    r.ed[b][e][c].written = false ∧ r.eu[b][e][c].written = false) ∧
  ∀ (b : Subset) (k : Entry) (c : Chan), r.pal[b][k][c].written = false

/-- R285: reset gives every piece of state its reset value, in the faulted state too; the output memory is
not changed. -/
def Obligations.ResetRestoresTheState : Prop :=
  ∀ (s : State) (rest : List PortEvent), s.pending = .reset :: rest →
    ∃ t, step s = .next t ∧
      t = { State.reset with mem := t.mem, draws := t.draws, pending := rest, out := [] } ∧
      ∀ a, t.mem.read a = s.mem.read a

/-- R285, U18: reset during a command gives the reset state; of an EMIT's bytes a prefix of any length up to
the whole may stand in memory, and no other byte changes. -/
def Obligations.ResetAbandonsTheCommand : Prop :=
  ∀ (s : State) (w : Word) (rest : List PortEvent), s.pending = .resetDuring w :: rest →
    ∃ t, step s = .next t ∧
      t = { State.reset with mem := t.mem, draws := t.draws, pending := rest, out := t.out } ∧
      ((∀ a, t.mem.read a = s.mem.read a) ∨
        ∃ (src : BitVec 1) (k : Nat), decode w = .command (.emit src) ∧ s.status.fault = false ∧
          k ≤ (if s.cfg.toNat % 8 = 0 ∨ s.cfg.toNat % 8 = 2 then 8 else 16) ∧
          ∀ a, t.mem.read a
            = if s.oaddr.toNat ≤ a ∧ a < s.oaddr.toNat + k then
                some ((if src = 0 then s.ob else s.bestOb).extractLsb' (8 * (a - s.oaddr.toNat)) 8)
              else s.mem.read a)

/-! ### The whole machine -/

/-- The invariant of `Inv` is kept by every step, from every state that has it. -/
def Obligations.StepKeepsTheInvariant : Prop :=
  ∀ s t : State, Inv s → step s = .next t → Inv t

/-- The reset state has the invariant. -/
def Obligations.ResetMeetsTheInvariant : Prop := Inv State.reset

/-- R260: every command is total: it answers a next state in every state, whatever its operands. -/
def Obligations.EveryCommandAnswersANextState : Prop :=
  ∀ (i : Instr) (s : State), ∃ t, exec i s = .next t

/-- R36, R196: a command that completes counts one, one that faults counts none; no command but EMIT touches
memory. -/
def Obligations.CommandsCountAndOnlyEmitStores : Prop :=
  ∀ (i : Instr) (s t : State), s.status.fault = false → exec i s = .next t →
    (t.status.fault = false → t.cidx = s.cidx + 1) ∧
    (t.status.fault = true → t.cidx = s.cidx ∧ t.fcidx = s.cidx) ∧
    ((∀ src, i ≠ .emit src) → ∀ a, t.mem.read a = s.mem.read a)

/-- R265: a command with legal operands, its field or stream inside 128 bits and room for its block never
faults, whatever the data. -/
def Obligations.LegalCommandsNeverFault : Prop :=
  ∀ (i : Instr) (s : State), s.status.fault = false → i.wellFormed = true →
    (∀ src, i = .emit src →
      s.oaddr.toNat + (if s.cfg.toNat % 8 = 0 ∨ s.cfg.toNat % 8 = 2 then 8 else 16) ≤ 2 ^ 32) →
    (∀ t off iw na, i = .putix t off iw na →
      off.toNat + ∑ p : Pixel, s.indexBits iw.toNat na p ≤ 128) →
    ∃ t, exec i s = .next t ∧ t.status.fault = false

/-- R32, R151 (4): outside BLKINIT and CANDINIT the error never decreases, and the sentinel stays. -/
def Obligations.ErrorNeverDecreases : Prop :=
  ∀ (i : Instr) (s t : State), i ≠ .blkinit → i ≠ .candinit → exec i s = .next t →
    s.err.toNat ≤ t.err.toNat ∧ (s.err = 0xFFFFFFFFFFFFFFFF → t.err = 0xFFFFFFFFFFFFFFFF)

/-- R12, R40: CFG matters to no command but by its low three bits, FMT, and those to EMIT alone: a command
that does not write CFG does the same under any other CFG with the same FMT, and one that is not EMIT under
any other CFG at all. -/
def Obligations.QualityHasNoEffect : Prop :=
  ∀ (i : Instr) (s t : State) (v : Half), (∀ imm, i ≠ .ldc 0x00 imm) →
    v.toNat % 8 = s.cfg.toNat % 8 ∨ (∀ src, i ≠ .emit src) → exec i s = .next t →
    exec i { s with cfg := v } = .next { t with cfg := v }

/-- R37, R295: no command reads DOVF, TRUNC or EQL: with other values of these flags a command leaves the
same state but for these flags. -/
def Obligations.AdvisoryFlagsAreNeverRead : Prop :=
  ∀ (i : Instr) (s t : State) (d tr q : Bool), exec i s = .next t →
    ∃ t', exec i { s with status := { s.status with dovf := d, trunc := tr, eql := q } } = .next t' ∧
      t' = { t with
        status := { t.status with
          dovf := t'.status.dovf, trunc := t'.status.trunc, eql := t'.status.eql } }

/-- R35: what the model stores in a register that no command has written is never seen: two states that
differ there alone drive the same outputs and stay so, step by step. (The stored bits are the model's
choice, log 1; this says that the choice has no effect.) -/
def Obligations.UnwrittenBitsAreNeverSeen : Prop :=
  ∀ s s' t : State, Alike s s' → step s = .next t →
    ∃ t', step s' = .next t' ∧ Alike t t' ∧ t'.out = t.out

/-! ### Load, candidate and output commands (45_control.md) -/

/-- R185: NOP only counts. -/
def Obligations.NopOnlyCounts : Prop :=
  ∀ s : State, ∃ t, exec .nop s = .next t ∧ t = { s with cidx := s.cidx + 1, draws := s.draws + 1 } ∧
    ∀ a, t.mem.read a = s.mem.read a

/-- R186, R187: what BLKINIT and CANDINIT clear and what they keep. -/
def Obligations.InitCommandsClear : Prop :=
  ∀ s : State,
    (∃ t, exec .blkinit s = .next t ∧
      t = { s with
        ob := 0, bestOb := 0, err := 0, bestErr := 0xFFFFFFFFFFFFFFFF, ix := t.ix,
        status := ⟨s.status.fault, false, false, false, false⟩,
        cidx := s.cidx + 1, draws := s.draws + 1 } ∧
      (∀ (k : Stream) (p : Pixel), t.ix[k][p] = 0) ∧ ∀ a, t.mem.read a = s.mem.read a) ∧
    ∃ t, exec .candinit s = .next t ∧
      t = { s with
        ob := 0, err := 0, ix := t.ix,
        status := ⟨s.status.fault, false, false, false, s.status.bvalid⟩,
        cidx := s.cidx + 1, draws := s.draws + 1 } ∧
      (∀ (k : Stream) (p : Pixel), t.ix[k][p] = 0) ∧ ∀ a, t.mem.read a = s.mem.read a

/-- R188, R39 to R45: LDC of a legal value writes the one register, or the one half of OADDR, and nothing
else. -/
def Obligations.LdcWritesTheRegister : Prop :=
  ∀ (s : State) (imm : Half),
    let u : State := { s with cidx := s.cidx + 1, draws := s.draws + 1 }
    (imm.toNat % 8 ≤ 5 → imm.toNat / 8 % 2 = 0 → imm.toNat / 16 % 4 ≠ 3 → imm.toNat < 64 →
      exec (.ldc 0x00 imm) s = .next { u with cfg := imm }) ∧
    exec (.ldc 0x02 imm) s = .next { u with pm1 := imm } ∧
    exec (.ldc 0x03 imm) s = .next { u with pm2 := imm } ∧
    (imm.toNat < 256 → exec (.ldc 0x04 imm) s = .next { u with anch := imm }) ∧
    (imm.toNat < 64 → exec (.ldc 0x05 imm) s = .next { u with pbits := imm }) ∧
    exec (.ldc 0x06 imm) s = .next { u with t := imm } ∧
    (∃ t, exec (.ldc 0x08 imm) s = .next t ∧ t = { u with oaddr := t.oaddr } ∧
      t.oaddr.toNat = s.oaddr.toNat / 2 ^ 16 * 2 ^ 16 + imm.toNat) ∧
    ∃ t, exec (.ldc 0x09 imm) s = .next t ∧ t = { u with oaddr := t.oaddr } ∧
      t.oaddr.toNat = imm.toNat * 2 ^ 16 + s.oaddr.toNat % 2 ^ 16

/-- R189, R190: LDPX and LDER write one register with the value given, and nothing else. -/
def Obligations.LoadsWriteOneRegister : Prop :=
  ∀ (s : State) (p : BitVec 4) (c b : BitVec 2) (e : BitVec 1) (imm : Half),
    (∃ t, exec (.ldpx p c imm) s = .next t ∧
      t = { s with px := t.px, cidx := s.cidx + 1, draws := s.draws + 1 } ∧
      (∀ (p' : Pixel) (c' : Chan),
        t.px[p'][c'] = if p' = pixelOf p ∧ c' = chanOf c then .ofValue imm else s.px[p'][c']) ∧
      ∀ a, t.mem.read a = s.mem.read a) ∧
    (b ≠ 3 → ∃ t, exec (.lder b e c imm) s = .next t ∧
      t = { s with er := t.er, cidx := s.cidx + 1, draws := s.draws + 1 } ∧
      (∀ (b' : Subset) (e' : EndNo) (c' : Chan),
        t.er[b'][e'][c']
          = if b' = subsetOf b ∧ e' = endOf e ∧ c' = chanOf c then .ofValue imm else s.er[b'][e'][c']) ∧
      ∀ a, t.mem.read a = s.mem.read a)

/-- R191: KEEPMIN keeps the candidate iff none is held or its error is strictly less. -/
def Obligations.KeepminKeepsTheBetter : Prop :=
  ∀ s : State,
    (s.status.bvalid = false ∨ s.err.toNat < s.bestErr.toNat →
      exec .keepmin s = .next { s with
        bestErr := s.err, bestOb := s.ob, status := { s.status with bvalid := true },
        cidx := s.cidx + 1, draws := s.draws + 1 }) ∧
    (s.status.bvalid = true → s.bestErr.toNat ≤ s.err.toNat →
      exec .keepmin s = .next { s with cidx := s.cidx + 1, draws := s.draws + 1 })

/-- R62, R64, R69, R192: EMIT stores the 8 or 16 low bytes of its block at OADDR upward, byte `i` being bits
8i+7 to 8i, drives those byte writes in ascending order, and stores to no other byte. -/
def Obligations.EmitStoresTheBlock : Prop :=
  ∀ (s : State) (src : BitVec 1) (n : Nat),
    n = (if s.cfg.toNat % 8 = 0 ∨ s.cfg.toNat % 8 = 2 then 8 else 16) → s.oaddr.toNat + n ≤ 2 ^ 32 →
    ∃ t, exec (.emit src) s = .next t ∧
      t = { s with mem := t.mem, out := t.out, cidx := s.cidx + 1, draws := s.draws + 1 } ∧
      (∀ i, i < n → t.mem.read (s.oaddr.toNat + i)
        = some ((if src = 0 then s.ob else s.bestOb).extractLsb' (8 * i) 8)) ∧
      (∀ a, a < s.oaddr.toNat ∨ s.oaddr.toNat + n ≤ a → t.mem.read a = s.mem.read a) ∧
      t.out = s.out ++ (List.range n).map fun i =>
        .byteWrite (BitVec.ofNat 32 (s.oaddr.toNat + i))
          ((if src = 0 then s.ob else s.bestOb).extractLsb' (8 * i) 8)

/-! ### The quantize unit (40_quantize.md) -/

/-- R112, R113, R114: QNTL, QNTLP and QNTH write the quantized channels of one endpoint to EQ, and nothing
else. -/
def Obligations.QuantizeWritesEq : Prop :=
  ∀ (s : State) (b : BitVec 2) (e : BitVec 1) (m : Mask) (n : BitVec 5), b ≠ 3 → m ≠ 0 →
    (∀ (i : Instr) (lo hi : Nat) (f : Nat → Nat),
      (i, lo, hi, f) ∈ [
        (.qntl b e m n, 4, 8, fun v => (257 * (v % 256) * (2 ^ n.toNat - 1) + 32768) / 65536),
        (.qntlp b e m n, 4, 7, fun v => (257 * (v % 256) * (2 ^ (n.toNat + 1) - 1) + 32768) / 65536 / 2),
        (.qnth b e m n, 1, 16, fun v => quantH (BitVec.ofNat 16 v) n.toNat)] →
      lo ≤ n.toNat → n.toNat ≤ hi →
      ∃ t, exec i s = .next t ∧ t = { s with eq := t.eq, cidx := s.cidx + 1, draws := s.draws + 1 } ∧
        (∀ (b' : Subset) (e' : EndNo) (c : Chan),
          t.eq[b'][e'][c]
            = if b' = subsetOf b ∧ e' = endOf e ∧ inMask m c then
                .ofNat (f (s.readER b' e' c).toNat)
              else s.eq[b'][e'][c]) ∧
        ∀ a, t.mem.read a = s.mem.read a)

/-- R116, R117, R118: UNQL, UNQLP and UNQH write the reconstructed channels of one endpoint to EU, and
nothing else. -/
def Obligations.UnquantizeWritesEu : Prop :=
  ∀ (s : State) (b : BitVec 2) (e : BitVec 1) (m : Mask) (n : BitVec 5), b ≠ 3 → m ≠ 0 →
    (∀ (i : Instr) (lo hi : Nat) (f : Nat → Nat),
      (i, lo, hi, f) ∈ [
        (.unql b e m n, 4, 8, fun v =>
          let q := v % 2 ^ n.toNat
          q * 2 ^ (8 - n.toNat) + q / 2 ^ (2 * n.toNat - 8)),
        (.unqlp b e m n, 4, 7, fun v =>
          let q := 2 * (v % 2 ^ n.toNat)
            + (s.pbits.getLsbD (2 * (subsetOf b).val + (endOf e).val)).toNat
          q * 2 ^ (7 - n.toNat) + q / 2 ^ (2 * n.toNat - 6)),
        (.unqh b e m n, 1, 16, fun v =>
          let q := v % 2 ^ n.toNat
          if 15 ≤ n.toNat then q
          else if q = 0 then 0
          else if q = 2 ^ n.toNat - 1 then 65535
          else (q * 65536 + 32768) / 2 ^ n.toNat)] →
      lo ≤ n.toNat → n.toNat ≤ hi →
      ∃ t, exec i s = .next t ∧ t = { s with eu := t.eu, cidx := s.cidx + 1, draws := s.draws + 1 } ∧
        (∀ (b' : Subset) (e' : EndNo) (c : Chan),
          t.eu[b'][e'][c]
            = if b' = subsetOf b ∧ e' = endOf e ∧ inMask m c then
                .ofNat (f (s.readEQ b' e' c).toNat)
              else s.eu[b'][e'][c]) ∧
        ∀ a, t.mem.read a = s.mem.read a)

/-- R122 (1), (2), (3): QNTL's function is monotone, maps 0 to 0 and 255 to the maximum, is the identity at
8 bits, and inverts UNQL's. -/
def Obligations.QuantizeRoundTrips : Prop :=
  ∀ n, 4 ≤ n → n ≤ 8 →
    (∀ v v' : Half, v.toNat ≤ v'.toNat → v'.toNat ≤ 255 → quantL n v ≤ quantL n v') ∧
    quantL n 0 = 0 ∧ quantL n 255 = 2 ^ n - 1 ∧
    (∀ v : Half, v.toNat ≤ 255 → quantL 8 v = v.toNat) ∧
    ∀ q : Half, q.toNat < 2 ^ n → quantL n (BitVec.ofNat 16 (unquantL n q)) = q.toNat

/-- R115: QUANT_H is below 2^bits and maps 0 to 0, and so does the default formula; every function so
bounded is one that the model's parameter can be. -/
def Obligations.QuantHIsBounded : Prop :=
  (∀ (h : Half) (n : Nat), 1 ≤ n → n ≤ 16 → quantH h n < 2 ^ n) ∧
  (∀ n, 1 ≤ n → n ≤ 16 → quantH 0 n = 0) ∧
  (∀ (h : Half) (n : Nat), 1 ≤ n → n ≤ 16 →
    boundQuantH defaultQuantH h n = min (h.toNat * 2 ^ n / 0x7C00) (2 ^ n - 1)) ∧
  ∀ raw : Half → Nat → Nat, (∀ n, raw 0 n = 0) → (∀ h n, raw h n < 2 ^ n) → boundQuantH raw = raw

/-- R119: ORDER compares the endpoints channel by channel, the first that differs deciding; it exchanges
`ER`, `EQ`, `EU` in the channels of the mask and the p-bits iff endpoint 0 is the less, and writes EQL. -/
def Obligations.OrderPutsTheLargerFirst : Prop :=
  ∀ (s : State) (b : BitVec 2) (m : Mask), b ≠ 3 → m ≠ 0 →
    ∃ t, exec (.order b m) s = .next t ∧
      t = { s with
        er := t.er, eq := t.eq, eu := t.eu, pbits := t.pbits, status := { s.status with eql := t.status.eql },
        cidx := s.cidx + 1, draws := s.draws + 1 } ∧
      (t.status.eql = true ↔
        ∀ c : Chan, inMask m c → s.readEQ (subsetOf b) 0 c = s.readEQ (subsetOf b) 1 c) ∧
      ((∃ c : Chan, inMask m c = true ∧
          (s.readEQ (subsetOf b) 0 c).toNat < (s.readEQ (subsetOf b) 1 c).toNat ∧
          ∀ c' : Chan, c' < c → inMask m c' →
            s.readEQ (subsetOf b) 0 c' = s.readEQ (subsetOf b) 1 c') →
        (let u := s.swapEndpoints (subsetOf b) m
        t.er = u.er ∧ t.eq = u.eq ∧ t.eu = u.eu ∧ t.pbits = u.pbits)) ∧
      (¬(∃ c : Chan, inMask m c = true ∧
          (s.readEQ (subsetOf b) 0 c).toNat < (s.readEQ (subsetOf b) 1 c).toNat ∧
          ∀ c' : Chan, c' < c → inMask m c' →
            s.readEQ (subsetOf b) 0 c' = s.readEQ (subsetOf b) 1 c') →
        t.er = s.er ∧ t.eq = s.eq ∧ t.eu = s.eu ∧ t.pbits = s.pbits) ∧
      ∀ a, t.mem.read a = s.mem.read a

/-- R121: what `swap_endpoints` exchanges, whatever the mask for the p-bits, and that it touches nothing
else. -/
def Obligations.SwapEndpointsExchanges : Prop :=
  ∀ (s : State) (b : Subset) (m : Mask),
    let t := s.swapEndpoints b m
    t = { s with er := t.er, eq := t.eq, eu := t.eu, pbits := t.pbits } ∧
    (∀ (b' : Subset) (c : Chan), b' = b ∧ inMask m c = true →
      t.er[b'][(0 : EndNo)][c] = s.er[b'][(1 : EndNo)][c] ∧
      t.er[b'][(1 : EndNo)][c] = s.er[b'][(0 : EndNo)][c] ∧
      t.eq[b'][(0 : EndNo)][c] = s.eq[b'][(1 : EndNo)][c] ∧
      t.eq[b'][(1 : EndNo)][c] = s.eq[b'][(0 : EndNo)][c] ∧
      t.eu[b'][(0 : EndNo)][c] = s.eu[b'][(1 : EndNo)][c] ∧
      t.eu[b'][(1 : EndNo)][c] = s.eu[b'][(0 : EndNo)][c]) ∧
    (∀ (b' : Subset) (e : EndNo) (c : Chan), ¬(b' = b ∧ inMask m c = true) →
      t.er[b'][e][c] = s.er[b'][e][c] ∧ t.eq[b'][e][c] = s.eq[b'][e][c] ∧
      t.eu[b'][e][c] = s.eu[b'][e][c]) ∧
    t.pbits.getLsbD (2 * b.val) = s.pbits.getLsbD (2 * b.val + 1) ∧
    t.pbits.getLsbD (2 * b.val + 1) = s.pbits.getLsbD (2 * b.val) ∧
    ∀ j, j ≠ 2 * b.val → j ≠ 2 * b.val + 1 → t.pbits.getLsbD j = s.pbits.getLsbD j

/-- R24, R120: DELTA writes the clamped difference from endpoint 0 of subset 0 as a two's complement field;
a difference outside the field's range sets DOVF and the error sentinel. -/
def Obligations.DeltaClampsAndMarks : Prop :=
  ∀ (s : State) (b : BitVec 2) (e : BitVec 1) (m : Mask) (n : BitVec 5), b ≠ 3 → m ≠ 0 → 2 ≤ n.toNat →
    n.toNat ≤ 16 →
    ∃ t, exec (.delta b e m n) s = .next t ∧
      t = { s with
        ed := t.ed, status := { s.status with dovf := t.status.dovf }, err := t.err,
        cidx := s.cidx + 1, draws := s.draws + 1 } ∧
      (let d := fun c => ((s.readEQ (subsetOf b) (endOf e) c).toNat - (s.readEQ 0 0 c).toNat : Int)
      let out := fun c : Chan => d c < -2 ^ (n.toNat - 1) ∨ 2 ^ (n.toNat - 1) - 1 < d c
      let kept := fun c => max (-2 ^ (n.toNat - 1)) (min (2 ^ (n.toNat - 1) - 1) (d c))
      (∀ (b' : Subset) (e' : EndNo) (c : Chan),
        b' = subsetOf b ∧ e' = endOf e ∧ inMask m c = true →
          t.ed[b'][e'][c].written = true ∧
          (t.ed[b'][e'][c].bits.toNat : Int) = if kept c < 0 then kept c + 2 ^ n.toNat else kept c) ∧
      (∀ (b' : Subset) (e' : EndNo) (c : Chan),
        ¬(b' = subsetOf b ∧ e' = endOf e ∧ inMask m c = true) →
          t.ed[b'][e'][c] = s.ed[b'][e'][c]) ∧
      ((∃ c : Chan, inMask m c = true ∧ out c) →
        t.status.dovf = true ∧ t.err = 0xFFFFFFFFFFFFFFFF) ∧
      (¬(∃ c : Chan, inMask m c = true ∧ out c) → t.status.dovf = s.status.dovf ∧ t.err = s.err)) ∧
      ∀ a, t.mem.read a = s.mem.read a

/-! ### The palette interpolator (41_palette.md) -/

/-- R131: the interpolation weights, and their symmetry. -/
def Obligations.WeightsAreTheTables : Prop :=
  (List.range 4).map (weight 2) = [0, 21, 43, 64] ∧
  (List.range 8).map (weight 3) = [0, 9, 18, 27, 37, 46, 55, 64] ∧
  (List.range 16).map (weight 4) = [0, 4, 9, 13, 17, 21, 26, 30, 34, 38, 43, 47, 51, 55, 60, 64] ∧
  ∀ iw, 2 ≤ iw → iw ≤ 4 → ∀ k, k < 2 ^ iw → weight iw (2 ^ iw - 1 - k) = 64 - weight iw k

/-- R130, R132, R133, R136 (1): PALW and PALH write entries 0 to 2^iw − 1 in the channels of the mask with
the weighted interpolation of EU, PALH scaled by 31/64, and nothing else; a PALW palette runs from the one
endpoint to the other exactly. -/
def Obligations.WeightedPalettesInterpolate : Prop :=
  ∀ (s : State) (b : BitVec 2) (m : Mask) (iw : BitVec 3), b ≠ 3 → m ≠ 0 → 2 ≤ iw.toNat → iw.toNat ≤ 4 →
    let low := fun c => (s.readEU (subsetOf b) 0 c).toNat
    let high := fun c => (s.readEU (subsetOf b) 1 c).toNat
    let u := fun (k : Entry) (c : Chan) =>
      (low c * (64 - weight iw.toNat k.val) + high c * weight iw.toNat k.val + 32) / 64
    (∃ t, exec (.palw b m iw) s = .next t ∧
      t = { s with pal := t.pal, cidx := s.cidx + 1, draws := s.draws + 1 } ∧
      (∀ (b' : Subset) (k : Entry) (c : Chan),
        t.pal[b'][k][c]
          = if b' = subsetOf b ∧ k.val < 2 ^ iw.toNat ∧ inMask m c then .ofNat (u k c)
            else s.pal[b'][k][c]) ∧
      (∀ c : Chan, u 0 c = low c ∧ u (entryOf (2 ^ iw.toNat - 1)) c = high c) ∧
      ∀ a, t.mem.read a = s.mem.read a) ∧
    ∃ t, exec (.palh b m iw) s = .next t ∧
      t = { s with pal := t.pal, cidx := s.cidx + 1, draws := s.draws + 1 } ∧
      (∀ (b' : Subset) (k : Entry) (c : Chan),
        t.pal[b'][k][c]
          = if b' = subsetOf b ∧ k.val < 2 ^ iw.toNat ∧ inMask m c then .ofNat (u k c * 31 / 64)
            else s.pal[b'][k][c]) ∧
      ∀ a, t.mem.read a = s.mem.read a

/-- R134, R135: PALT and PALS write the four thirds and the eight sevenths, and nothing else. -/
def Obligations.DividedPalettes : Prop :=
  ∀ (s : State) (b : BitVec 2) (m : Mask), b ≠ 3 → m ≠ 0 →
    let e0 := fun c => (s.readEU (subsetOf b) 0 c).toNat
    let e1 := fun c => (s.readEU (subsetOf b) 1 c).toNat
    (∃ t, exec (.palt b m) s = .next t ∧
      t = { s with pal := t.pal, cidx := s.cidx + 1, draws := s.draws + 1 } ∧
      (∀ (b' : Subset) (k : Entry) (c : Chan),
        t.pal[b'][k][c]
          = if b' = subsetOf b ∧ k.val < 4 ∧ inMask m c then
              .ofNat (if k.val = 0 then e0 c else if k.val = 1 then e1 c
                else if k.val = 2 then (2 * e0 c + e1 c + 1) / 3 else (e0 c + 2 * e1 c + 1) / 3)
            else s.pal[b'][k][c]) ∧
      ∀ a, t.mem.read a = s.mem.read a) ∧
    ∃ t, exec (.pals b m) s = .next t ∧
      t = { s with pal := t.pal, cidx := s.cidx + 1, draws := s.draws + 1 } ∧
      (∀ (b' : Subset) (k : Entry) (c : Chan),
        t.pal[b'][k][c]
          = if b' = subsetOf b ∧ k.val < 8 ∧ inMask m c then
              .ofNat (if k.val = 0 then e0 c else if k.val = 1 then e1 c
                else ((8 - k.val) * e0 c + (k.val - 1) * e1 c + 3) / 7)
            else s.pal[b'][k][c]) ∧
      ∀ a, t.mem.read a = s.mem.read a

/-- R136 (2): exchanging the endpoints of a subset reverses a PALW palette and a PALH palette exactly. -/
def Obligations.ExchangeReversesThePalette : Prop :=
  ∀ iw low high : Nat, 2 ≤ iw → iw ≤ 4 → low < 65536 → high < 65536 →
    ∀ k : Entry, k.val < 2 ^ iw →
      palwEntry iw high low k = palwEntry iw low high (entryOf (2 ^ iw - 1 - k.val)) ∧
      palhEntry iw high low k = palhEntry iw low high (entryOf (2 ^ iw - 1 - k.val))

/-! ### The index assigner (42_index.md) -/

/-- R42: the subset of a pixel. -/
def Obligations.SubsetOfAPixel : Prop :=
  ∀ (s : State) (p : Pixel),
    (s.pm2.getLsbD p.val = true → s.subsetAt p = 2) ∧
    (s.pm2.getLsbD p.val = false → s.pm1.getLsbD p.val = true → s.subsetAt p = 1) ∧
    (s.pm2.getLsbD p.val = false → s.pm1.getLsbD p.val = false → s.subsetAt p = 0)

/-- R145, R146, R147, R151 (1): IDXN gives each pixel of the subset the first of the nearest entries, below
2^iw, and adds their squared distances to ERR, saturating; nothing else changes. -/
def Obligations.IdxnChoosesTheNearest : Prop :=
  ∀ (s : State) (t : BitVec 1) (b : BitVec 2) (m : Mask) (iw : BitVec 3), b ≠ 3 → m ≠ 0 → 2 ≤ iw.toNat →
    iw.toNat ≤ 4 →
    ∃ u, exec (.idxn t b m iw) s = .next u ∧
      u = { s with ix := u.ix, err := u.err, cidx := s.cidx + 1, draws := s.draws + 1 } ∧
      (∀ (t' : Stream) (p : Pixel), ¬(t' = streamOf t ∧ s.subsetAt p = subsetOf b) →
        u.ix[t'][p] = s.ix[t'][p]) ∧
      (∀ p : Pixel, s.subsetAt p = subsetOf b →
        let k := u.ix[streamOf t][p].toFin
        k.val < 2 ^ iw.toNat ∧
        ∀ j : Entry, j.val < 2 ^ iw.toNat →
          s.squaredError (subsetOf b) m p k ≤ s.squaredError (subsetOf b) m p j ∧
          (j < k → s.squaredError (subsetOf b) m p k < s.squaredError (subsetOf b) m p j)) ∧
      (u.err.toNat : Int) = min (2 ^ 64 - 1) (s.err.toNat + ∑ p : Pixel,
        if s.subsetAt p = subsetOf b then s.squaredError (subsetOf b) m p u.ix[streamOf t][p].toFin else 0) ∧
      ∀ a, u.mem.read a = s.mem.read a

/-- R145, R147, R148: IDXP projects each pixel of the subset on the palette's line, looks the 6-bit fraction
up, and adds the squared distances to ERR, saturating; nothing else changes. -/
def Obligations.IdxpProjectsAndLooksUp : Prop :=
  ∀ (s : State) (t : BitVec 1) (b : BitVec 2) (m : Mask) (iw : BitVec 3), b ≠ 3 → m ≠ 0 → 2 ≤ iw.toNat →
    iw.toNat ≤ 4 →
    ∃ u, exec (.idxp t b m iw) s = .next u ∧
      u = { s with ix := u.ix, err := u.err, cidx := s.cidx + 1, draws := s.draws + 1 } ∧
      (∀ (t' : Stream) (p : Pixel), ¬(t' = streamOf t ∧ s.subsetAt p = subsetOf b) →
        u.ix[t'][p] = s.ix[t'][p]) ∧
      (∀ p : Pixel, s.subsetAt p = subsetOf b →
        let n := s.spanNorm (subsetOf b) m (entryOf (2 ^ iw.toNat - 1))
        let d := s.spanDot (subsetOf b) m (entryOf (2 ^ iw.toNat - 1)) p
        let k := u.ix[streamOf t][p].toNat
        (n = 0 ∨ d ≤ 0 → k = assignLut iw.toNat 0) ∧
        (n ≠ 0 → 0 < d → n ≤ d → k = assignLut iw.toNat 63) ∧
        (n ≠ 0 → 0 < d → d < n → ∀ f : Nat, (f : Int) = (126 * d + n) / (2 * n) →
          f ≤ 63 ∧ k = assignLut iw.toNat f)) ∧
      (u.err.toNat : Int) = min (2 ^ 64 - 1) (s.err.toNat + ∑ p : Pixel,
        if s.subsetAt p = subsetOf b then s.squaredError (subsetOf b) m p u.ix[streamOf t][p].toFin else 0) ∧
      ∀ a, u.mem.read a = s.mem.read a

/-- R149: ASSIGN_LUT stays below 2^iw, is non-decreasing, 0 at 0 and 2^iw − 1 at 63; every table so bounded
is one that the model's parameter can be, the default of R150 among them. -/
def Obligations.AssignLutIsBounded : Prop :=
  ∀ iw, 2 ≤ iw → iw ≤ 4 →
    assignLut iw 0 = 0 ∧ assignLut iw 63 = 2 ^ iw - 1 ∧
    (∀ f, f ≤ 63 → assignLut iw f ≤ 2 ^ iw - 1) ∧
    (∀ f g, f ≤ g → g ≤ 63 → assignLut iw f ≤ assignLut iw g) ∧
    (∀ raw : Nat → Nat → Nat, raw iw 0 = 0 → raw iw 63 = 2 ^ iw - 1 →
      (∀ f g, f ≤ g → g ≤ 63 → raw iw f ≤ raw iw g) → ∀ f, f ≤ 63 → boundLut raw iw f = raw iw f) ∧
    ∀ f, f ≤ 63 → boundLut defaultLut iw f = defaultLut iw f

/-! ### The anchor fixer (43_anchor.md) -/

/-- R160, R161: FIX does nothing when the anchor's index has its top bit clear; else it exchanges the
subset's endpoints, reverses its palette in the channels of the mask, and complements its indices. -/
def Obligations.FixExchangesAtAHighAnchor : Prop :=
  ∀ (s : State) (t : BitVec 1) (b : BitVec 2) (m : Mask) (iw : BitVec 3) (anchor : Pixel), b ≠ 3 → m ≠ 0 →
    2 ≤ iw.toNat → iw.toNat ≤ 4 →
    anchor.val = (if b = 0 then 0 else if b = 1 then s.anch.toNat % 16 else s.anch.toNat / 16 % 16) →
    (s.ix[streamOf t][anchor].getLsbD (iw.toNat - 1) = false →
      exec (.fix t b m iw) s = .next { s with cidx := s.cidx + 1, draws := s.draws + 1 }) ∧
    (s.ix[streamOf t][anchor].getLsbD (iw.toNat - 1) = true →
      ∃ u, exec (.fix t b m iw) s = .next u ∧
        (let x := s.swapEndpoints (subsetOf b) m
        u = { x with pal := u.pal, ix := u.ix, cidx := s.cidx + 1, draws := s.draws + 1 }) ∧
        (∀ (b' : Subset) (k : Entry) (c : Chan),
          u.pal[b'][k][c]
            = if b' = subsetOf b ∧ k.val < 2 ^ iw.toNat ∧ inMask m c then
                s.pal[b'][entryOf (2 ^ iw.toNat - 1 - k.val)][c]
              else s.pal[b'][k][c]) ∧
        (∀ (t' : Stream) (p : Pixel), t' = streamOf t ∧ s.subsetAt p = subsetOf b →
          (u.ix[t'][p].toNat : Int) = (2 ^ iw.toNat - 1 - s.ix[t'][p].toNat) % 16) ∧
        (∀ (t' : Stream) (p : Pixel), ¬(t' = streamOf t ∧ s.subsetAt p = subsetOf b) →
          u.ix[t'][p] = s.ix[t'][p]) ∧
        ∀ a, u.mem.read a = s.mem.read a)

/-- R162 (1), R163: where the anchor lies in its subset and the subset's indices are below 2^iw, after FIX
the anchor's top bit is clear, every pixel of the subset still selects the same palette value in the channels
of the mask, and a second FIX changes nothing but the count. -/
def Obligations.FixKeepsTheColours : Prop :=
  ∀ (s u : State) (t : BitVec 1) (b : BitVec 2) (m : Mask) (iw : BitVec 3), b ≠ 3 → m ≠ 0 →
    2 ≤ iw.toNat → iw.toNat ≤ 4 → s.subsetAt (s.anchor (subsetOf b)) = subsetOf b →
    (∀ p : Pixel, s.subsetAt p = subsetOf b → s.ix[streamOf t][p].toNat < 2 ^ iw.toNat) →
    exec (.fix t b m iw) s = .next u →
    u.ix[streamOf t][u.anchor (subsetOf b)].getLsbD (iw.toNat - 1) = false ∧
    (∀ (p : Pixel) (c : Chan), s.subsetAt p = subsetOf b → inMask m c = true →
      u.pal[subsetOf b][u.ix[streamOf t][p].toFin][c] = s.pal[subsetOf b][s.ix[streamOf t][p].toFin][c]) ∧
    exec (.fix t b m iw) u = .next { u with cidx := u.cidx + 1, draws := u.draws + 1 }

/-! ### The packer (44_packer.md) -/

/-- R171: a pack replaces the bits of its field and no other, and sets TRUNC iff a bit is lost. -/
def Obligations.PackReplacesTheField : Prop :=
  ∀ (s : State) (off w : Nat) (v : Half), 1 ≤ w → w ≤ 16 → off + w ≤ 128 →
    let t := s.pack off w v
    t = { s with ob := t.ob, status := { s.status with trunc := t.status.trunc } } ∧
    (∀ j, j < w → t.ob.getLsbD (off + j) = v.getLsbD j) ∧
    (∀ j, j < off ∨ off + w ≤ j → t.ob.getLsbD j = s.ob.getLsbD j) ∧
    (t.status.trunc = true ↔ s.status.trunc = true ∨ v.toNat / 2 ^ w ≠ 0)

/-- R172: the register each selector names and the value read, zero-extended to 16 bits; the values not
listed are undefined. -/
def Obligations.SelectorsNameRegisters : Prop :=
  (∀ (b : Subset) (e : EndNo) (c : Chan),
    selSource (BitVec.ofNat 8 (8 * b.val + 4 * e.val + c.val)) = some (.eq b e c) ∧
    selSource (BitVec.ofNat 8 (0x20 + 8 * b.val + 4 * e.val + c.val)) = some (.ed b e c)) ∧
  (∀ (t : Stream) (p : Pixel), selSource (BitVec.ofNat 8 (0x40 + 16 * t.val + p.val)) = some (.ix t p)) ∧
  (∀ (b : Subset) (e : EndNo), selSource (BitVec.ofNat 8 (0x60 + 2 * b.val + e.val)) = some (.pb b e)) ∧
  selSource 0x70 = some .t ∧
  (∀ sel : BitVec 8, (0x18 ≤ sel.toNat ∧ sel.toNat ≤ 0x1F) ∨ (0x38 ≤ sel.toNat ∧ sel.toNat ≤ 0x3F) ∨
    (0x66 ≤ sel.toNat ∧ sel.toNat ≤ 0x6F) ∨ 0x71 ≤ sel.toNat → selSource sel = none) ∧
  ∀ (s : State) (b : Subset) (e : EndNo) (c : Chan) (t : Stream) (p : Pixel),
    s.sourceValue (.eq b e c) = s.readEQ b e c ∧ s.sourceValue (.ed b e c) = s.readED b e c ∧
    (s.sourceValue (.ix t p)).toNat = s.ix[t][p].toNat ∧
    (s.sourceValue (.pb b e)).toNat = (s.pbits.getLsbD (2 * b.val + e.val)).toNat ∧
    s.sourceValue .t = s.t

/-- R173: PUT packs bits `sh + width − 1 : sh` of the selected register at `off`, and sets TRUNC iff the
shifted value does not fit; nothing else changes. -/
def Obligations.PutPacksAField : Prop :=
  ∀ (s : State) (off : BitVec 7) (wm1 sh : BitVec 4) (sel : BitVec 8) (src : Source),
    selSource sel = some src → off.toNat + (wm1.toNat + 1) ≤ 128 →
    ∃ t, exec (.put off wm1 sh sel) s = .next t ∧
      t = { s with
        ob := t.ob, status := { s.status with trunc := t.status.trunc },
        cidx := s.cidx + 1, draws := s.draws + 1 } ∧
      (∀ j, j < wm1.toNat + 1 →
        t.ob.getLsbD (off.toNat + j) = (s.sourceValue src).getLsbD (sh.toNat + j)) ∧
      (∀ j, j < off.toNat ∨ off.toNat + (wm1.toNat + 1) ≤ j → t.ob.getLsbD j = s.ob.getLsbD j) ∧
      (t.status.trunc = true ↔
        s.status.trunc = true ∨ 2 ^ (wm1.toNat + 1) ≤ (s.sourceValue src).toNat / 2 ^ sh.toNat) ∧
      ∀ a, t.mem.read a = s.mem.read a

/-- R175: which pixels are packed one bit short. -/
def Obligations.AnchorsArePackedShort : Prop :=
  ∀ (s : State) (iw : Nat) (na : BitVec 2) (p : Pixel),
    s.indexBits iw na p
      = if (1 ≤ na.toNat ∧ p = 0) ∨ (2 ≤ na.toNat ∧ p.val = s.anch.toNat % 16) ∨
          (na.toNat = 3 ∧ p.val = s.anch.toNat / 16 % 16) then iw - 1 else iw

/-- R175: PUTIX packs the sixteen indices of the stream one after another from `off`, pixel 0 first, each in
its width, and sets TRUNC iff an index does not fit; nothing else changes. -/
def Obligations.PutixPacksTheStream : Prop :=
  ∀ (s : State) (t : BitVec 1) (off : BitVec 7) (iw : BitVec 3) (na : BitVec 2), 2 ≤ iw.toNat →
    iw.toNat ≤ 4 → off.toNat + ∑ p : Pixel, s.indexBits iw.toNat na p ≤ 128 →
    ∃ u, exec (.putix t off iw na) s = .next u ∧
      u = { s with
        ob := u.ob, status := { s.status with trunc := u.status.trunc },
        cidx := s.cidx + 1, draws := s.draws + 1 } ∧
      (∀ (p : Pixel) (j : Nat), j < s.indexBits iw.toNat na p →
        u.ob.getLsbD (s.pixelStart off.toNat iw.toNat na p + j) = s.ix[streamOf t][p].getLsbD j) ∧
      (∀ j, j < off.toNat ∨ off.toNat + ∑ p : Pixel, s.indexBits iw.toNat na p ≤ j →
        u.ob.getLsbD j = s.ob.getLsbD j) ∧
      (u.status.trunc = true ↔ s.status.trunc = true ∨
        ∃ p : Pixel, 2 ^ s.indexBits iw.toNat na p ≤ s.ix[streamOf t][p].toNat) ∧
      ∀ a, u.mem.read a = s.mem.read a

/-- R176 (1): two fields that do not overlap can be packed in either order. -/
def Obligations.DisjointPacksCommute : Prop :=
  ∀ (s : State) (off w off' w' : Nat) (v v' : Half), 1 ≤ w → w ≤ 16 → off + w ≤ 128 → 1 ≤ w' → w' ≤ 16 →
    off' + w' ≤ 128 → off + w ≤ off' ∨ off' + w' ≤ off →
    (s.pack off w v).pack off' w' v' = (s.pack off' w' v').pack off w v

end
end

