-- ==== Sys2Proof/Laws/Encoding.lean ====
section
/-! SUPPORT. What the encoder's words hold (30_encoding.md rules R83 to R92): for each format the word bit
by bit, then each field read back, the opcode, and the reserved bits. -/

namespace Sys2Proof

/-- A field bit by bit. -/
theorem field_getLsbD (w : Word) (lo n i : Nat) :
    (field w lo n).getLsbD i = (decide (i < n) && w.getLsbD (lo + i)) := by
  simp [field]

/-- A field is read back when the word agrees with it bit by bit. -/
theorem field_eq {w : Word} {lo n : Nat} {v : BitVec n} (h : ∀ i, i < n → w.getLsbD (lo + i) = v.getLsbD i) :
    field w lo n = v := by
  apply BitVec.eq_of_getLsbD_eq
  intro i hi
  rw [field_getLsbD, h i hi, decide_eq_true hi, Bool.true_and]

/-- A bit of the mask is clear in a word that has none of the mask's bits. -/
theorem clear_of_and_eq_zero {w r : Word} (h : w &&& r = 0) {i : Nat}
    (hr : r.getLsbD i = true) : w.getLsbD i = false := by
  have := congrArg (fun v : Word => v.getLsbD i) h
  simpa [hr] using this

/-- A word that has none of the mask's bits. -/
theorem and_eq_zero_of_bits {w r : Word} (h : ∀ i, i < 32 → r.getLsbD i = true → w.getLsbD i = false) :
    w &&& r = 0 := by
  apply BitVec.eq_of_getLsbD_eq
  intro i hi
  have := h i hi
  cases hr : r.getLsbD i <;> simp_all

/-- What a word with a row's opcode and the row's reserved bits clear decodes to. -/
theorem decode_of_row {w : Word} {r : OpRow} (h : rowOf (opcodeOf w) = some r)
    (hz : w &&& r.fmt.reserved = 0) : decode w = .command (r.build w) := by
  unfold decode
  rw [h]
  exact if_pos hz

/-- The row of a word that decodes to a command. -/
theorem row_of_decode {w : Word} {i : Instr} (h : decode w = .command i) :
    ∃ r ∈ opcodeMap, r.op = opcodeOf w ∧ w &&& r.fmt.reserved = 0 ∧ i = r.build w := by
  unfold decode at h
  split at h
  · cases h
  · rename_i r hr
    split at h
    · rename_i hz
      cases h
      exact ⟨r, List.mem_of_find?_eq_some hr, by simpa using List.find?_some hr, hz, rfl⟩
    · cases h

/-! ### Format Z -/

theorem wordZ_getLsbD (op : BitVec 8) (k : Nat) :
    (wordZ op).getLsbD k
      = if k < 24 then false
        else op.getLsbD (k - 24) := by
  unfold wordZ
  show BitVec.getLsbD (w := 8 + 24) (op ++ 0#24) k = _
  simp only [BitVec.getLsbD_append, BitVec.getLsbD_zero]

@[simp] theorem wordZ_op (op : BitVec 8) :
    field (wordZ op) 24 8 = op :=
  field_eq fun i hi => by
    rw [wordZ_getLsbD, if_neg (by omega), Nat.add_sub_cancel_left]

@[simp] theorem opcodeOf_wordZ (op : BitVec 8) :
    opcodeOf (wordZ op) = op := wordZ_op op

theorem wordZ_reserved (op : BitVec 8) :
    wordZ op &&& Format.Z.reserved = 0 := by
  have bit : ∀ i, i < 32 → Format.Z.reserved.getLsbD i = true → i < 24 := by decide
  apply and_eq_zero_of_bits
  intro i hi hr
  rw [wordZ_getLsbD]
  have := bit i hi hr
  rw [if_pos (by omega)]

theorem decode_wordZ {op : BitVec 8} {i : Instr} (h : rowOf op = some ⟨op, .Z, fun _ => i⟩) :
    decode (wordZ op) = .command i := by
  exact decode_of_row (by rw [opcodeOf_wordZ, h]) (wordZ_reserved op)

theorem wordZ_fields {w : Word} (h : w &&& Format.Z.reserved = 0) :
    wordZ (field w 24 8) = w := by
  have bit : ∀ i, i < 32 → i < 24 → Format.Z.reserved.getLsbD i = true := by decide
  apply BitVec.eq_of_getLsbD_eq
  intro i hi
  rw [wordZ_getLsbD]
  by_cases h0 : i < 24
  · rw [if_pos h0]
    exact (clear_of_and_eq_zero h (bit i hi (by omega))).symm
  rw [if_neg h0]
  rw [field_getLsbD, decide_eq_true (by omega), Bool.true_and, Nat.add_sub_of_le (by omega)]

/-! ### Format C -/

theorem wordC_getLsbD (op : BitVec 8) (reg : BitVec 8) (imm : Half) (k : Nat) :
    (wordC op reg imm).getLsbD k
      = if k < 16 then imm.getLsbD k
        else if k < 24 then reg.getLsbD (k - 16)
        else op.getLsbD (k - 24) := by
  unfold wordC
  show BitVec.getLsbD (w := 8 + 8 + 16) (op ++ reg ++ imm) k = _
  simp only [BitVec.getLsbD_append]
  simp only [Nat.sub_sub, Nat.reduceAdd]
  by_cases h0 : k < 16
  · rw [if_pos h0, if_pos h0]
  rw [if_neg h0, if_neg h0]
  by_cases h1 : k < 24
  · rw [if_pos (by omega), if_pos h1]
  rw [if_neg (by omega), if_neg h1]

@[simp] theorem wordC_op (op : BitVec 8) (reg : BitVec 8) (imm : Half) :
    field (wordC op reg imm) 24 8 = op :=
  field_eq fun i hi => by
    rw [wordC_getLsbD, if_neg (by omega), if_neg (by omega), Nat.add_sub_cancel_left]

@[simp] theorem wordC_reg (op : BitVec 8) (reg : BitVec 8) (imm : Half) :
    field (wordC op reg imm) 16 8 = reg :=
  field_eq fun i hi => by
    rw [wordC_getLsbD, if_neg (by omega), if_pos (by omega), Nat.add_sub_cancel_left]

@[simp] theorem wordC_imm (op : BitVec 8) (reg : BitVec 8) (imm : Half) :
    field (wordC op reg imm) 0 16 = imm :=
  field_eq fun i hi => by
    rw [wordC_getLsbD, if_pos (by omega), Nat.zero_add]

@[simp] theorem opcodeOf_wordC (op : BitVec 8) (reg : BitVec 8) (imm : Half) :
    opcodeOf (wordC op reg imm) = op := wordC_op op reg imm

theorem wordC_reserved (op : BitVec 8) (reg : BitVec 8) (imm : Half) :
    wordC op reg imm &&& Format.C.reserved = 0 := BitVec.and_zero

theorem wordC_fields {w : Word} :
    wordC (field w 24 8) (field w 16 8) (field w 0 16) = w := by
  apply BitVec.eq_of_getLsbD_eq
  intro i hi
  rw [wordC_getLsbD]
  by_cases h0 : i < 16
  · rw [if_pos h0]
    rw [field_getLsbD, decide_eq_true (by omega), Bool.true_and, Nat.zero_add]
  rw [if_neg h0]
  by_cases h1 : i < 24
  · rw [if_pos h1]
    rw [field_getLsbD, decide_eq_true (by omega), Bool.true_and, Nat.add_sub_of_le (by omega)]
  rw [if_neg h1]
  rw [field_getLsbD, decide_eq_true (by omega), Bool.true_and, Nat.add_sub_of_le (by omega)]

/-! ### Format P -/

theorem wordP_getLsbD (op : BitVec 8) (p : BitVec 4) (c : BitVec 2) (imm : Half) (k : Nat) :
    (wordP op p c imm).getLsbD k
      = if k < 16 then imm.getLsbD k
        else if k < 18 then false
        else if k < 20 then c.getLsbD (k - 18)
        else if k < 24 then p.getLsbD (k - 20)
        else op.getLsbD (k - 24) := by
  unfold wordP
  show BitVec.getLsbD (w := 8 + 4 + 2 + 2 + 16) (op ++ p ++ c ++ 0#2 ++ imm) k = _
  simp only [BitVec.getLsbD_append, BitVec.getLsbD_zero]
  simp only [Nat.sub_sub, Nat.reduceAdd]
  by_cases h0 : k < 16
  · rw [if_pos h0, if_pos h0]
  rw [if_neg h0, if_neg h0]
  by_cases h1 : k < 18
  · rw [if_pos (by omega), if_pos h1]
  rw [if_neg (by omega), if_neg h1]
  by_cases h2 : k < 20
  · rw [if_pos (by omega), if_pos h2]
  rw [if_neg (by omega), if_neg h2]
  by_cases h3 : k < 24
  · rw [if_pos (by omega), if_pos h3]
  rw [if_neg (by omega), if_neg h3]

@[simp] theorem wordP_op (op : BitVec 8) (p : BitVec 4) (c : BitVec 2) (imm : Half) :
    field (wordP op p c imm) 24 8 = op :=
  field_eq fun i hi => by
    rw [wordP_getLsbD, if_neg (by omega), if_neg (by omega), if_neg (by omega), if_neg (by omega), Nat.add_sub_cancel_left]

@[simp] theorem wordP_p (op : BitVec 8) (p : BitVec 4) (c : BitVec 2) (imm : Half) :
    field (wordP op p c imm) 20 4 = p :=
  field_eq fun i hi => by
    rw [wordP_getLsbD, if_neg (by omega), if_neg (by omega), if_neg (by omega), if_pos (by omega), Nat.add_sub_cancel_left]

@[simp] theorem wordP_c (op : BitVec 8) (p : BitVec 4) (c : BitVec 2) (imm : Half) :
    field (wordP op p c imm) 18 2 = c :=
  field_eq fun i hi => by
    rw [wordP_getLsbD, if_neg (by omega), if_neg (by omega), if_pos (by omega), Nat.add_sub_cancel_left]

@[simp] theorem wordP_imm (op : BitVec 8) (p : BitVec 4) (c : BitVec 2) (imm : Half) :
    field (wordP op p c imm) 0 16 = imm :=
  field_eq fun i hi => by
    rw [wordP_getLsbD, if_pos (by omega), Nat.zero_add]

@[simp] theorem opcodeOf_wordP (op : BitVec 8) (p : BitVec 4) (c : BitVec 2) (imm : Half) :
    opcodeOf (wordP op p c imm) = op := wordP_op op p c imm

theorem wordP_reserved (op : BitVec 8) (p : BitVec 4) (c : BitVec 2) (imm : Half) :
    wordP op p c imm &&& Format.P.reserved = 0 := by
  have bit : ∀ i, i < 32 → Format.P.reserved.getLsbD i = true → 16 ≤ i ∧ i < 18 := by decide
  apply and_eq_zero_of_bits
  intro i hi hr
  rw [wordP_getLsbD]
  have := bit i hi hr
  rw [if_neg (by omega), if_pos (by omega)]

theorem wordP_fields {w : Word} (h : w &&& Format.P.reserved = 0) :
    wordP (field w 24 8) (field w 20 4) (field w 18 2) (field w 0 16) = w := by
  have bit : ∀ i, i < 32 → 16 ≤ i ∧ i < 18 → Format.P.reserved.getLsbD i = true := by decide
  apply BitVec.eq_of_getLsbD_eq
  intro i hi
  rw [wordP_getLsbD]
  by_cases h0 : i < 16
  · rw [if_pos h0]
    rw [field_getLsbD, decide_eq_true (by omega), Bool.true_and, Nat.zero_add]
  rw [if_neg h0]
  by_cases h1 : i < 18
  · rw [if_pos h1]
    exact (clear_of_and_eq_zero h (bit i hi (by omega))).symm
  rw [if_neg h1]
  by_cases h2 : i < 20
  · rw [if_pos h2]
    rw [field_getLsbD, decide_eq_true (by omega), Bool.true_and, Nat.add_sub_of_le (by omega)]
  rw [if_neg h2]
  by_cases h3 : i < 24
  · rw [if_pos h3]
    rw [field_getLsbD, decide_eq_true (by omega), Bool.true_and, Nat.add_sub_of_le (by omega)]
  rw [if_neg h3]
  rw [field_getLsbD, decide_eq_true (by omega), Bool.true_and, Nat.add_sub_of_le (by omega)]

/-! ### Format E -/

theorem wordE_getLsbD (op : BitVec 8) (s : BitVec 2) (e : BitVec 1) (c : BitVec 2) (imm : Half) (k : Nat) :
    (wordE op s e c imm).getLsbD k
      = if k < 16 then imm.getLsbD k
        else if k < 19 then false
        else if k < 21 then c.getLsbD (k - 19)
        else if k < 22 then e.getLsbD (k - 21)
        else if k < 24 then s.getLsbD (k - 22)
        else op.getLsbD (k - 24) := by
  unfold wordE
  show BitVec.getLsbD (w := 8 + 2 + 1 + 2 + 3 + 16) (op ++ s ++ e ++ c ++ 0#3 ++ imm) k = _
  simp only [BitVec.getLsbD_append, BitVec.getLsbD_zero]
  simp only [Nat.sub_sub, Nat.reduceAdd]
  by_cases h0 : k < 16
  · rw [if_pos h0, if_pos h0]
  rw [if_neg h0, if_neg h0]
  by_cases h1 : k < 19
  · rw [if_pos (by omega), if_pos h1]
  rw [if_neg (by omega), if_neg h1]
  by_cases h2 : k < 21
  · rw [if_pos (by omega), if_pos h2]
  rw [if_neg (by omega), if_neg h2]
  by_cases h3 : k < 22
  · rw [if_pos (by omega), if_pos h3]
  rw [if_neg (by omega), if_neg h3]
  by_cases h4 : k < 24
  · rw [if_pos (by omega), if_pos h4]
  rw [if_neg (by omega), if_neg h4]

@[simp] theorem wordE_op (op : BitVec 8) (s : BitVec 2) (e : BitVec 1) (c : BitVec 2) (imm : Half) :
    field (wordE op s e c imm) 24 8 = op :=
  field_eq fun i hi => by
    rw [wordE_getLsbD, if_neg (by omega), if_neg (by omega), if_neg (by omega), if_neg (by omega), if_neg (by omega), Nat.add_sub_cancel_left]

@[simp] theorem wordE_s (op : BitVec 8) (s : BitVec 2) (e : BitVec 1) (c : BitVec 2) (imm : Half) :
    field (wordE op s e c imm) 22 2 = s :=
  field_eq fun i hi => by
    rw [wordE_getLsbD, if_neg (by omega), if_neg (by omega), if_neg (by omega), if_neg (by omega), if_pos (by omega), Nat.add_sub_cancel_left]

@[simp] theorem wordE_e (op : BitVec 8) (s : BitVec 2) (e : BitVec 1) (c : BitVec 2) (imm : Half) :
    field (wordE op s e c imm) 21 1 = e :=
  field_eq fun i hi => by
    rw [wordE_getLsbD, if_neg (by omega), if_neg (by omega), if_neg (by omega), if_pos (by omega), Nat.add_sub_cancel_left]

@[simp] theorem wordE_c (op : BitVec 8) (s : BitVec 2) (e : BitVec 1) (c : BitVec 2) (imm : Half) :
    field (wordE op s e c imm) 19 2 = c :=
  field_eq fun i hi => by
    rw [wordE_getLsbD, if_neg (by omega), if_neg (by omega), if_pos (by omega), Nat.add_sub_cancel_left]

@[simp] theorem wordE_imm (op : BitVec 8) (s : BitVec 2) (e : BitVec 1) (c : BitVec 2) (imm : Half) :
    field (wordE op s e c imm) 0 16 = imm :=
  field_eq fun i hi => by
    rw [wordE_getLsbD, if_pos (by omega), Nat.zero_add]

@[simp] theorem opcodeOf_wordE (op : BitVec 8) (s : BitVec 2) (e : BitVec 1) (c : BitVec 2) (imm : Half) :
    opcodeOf (wordE op s e c imm) = op := wordE_op op s e c imm

theorem wordE_reserved (op : BitVec 8) (s : BitVec 2) (e : BitVec 1) (c : BitVec 2) (imm : Half) :
    wordE op s e c imm &&& Format.E.reserved = 0 := by
  have bit : ∀ i, i < 32 → Format.E.reserved.getLsbD i = true → 16 ≤ i ∧ i < 19 := by decide
  apply and_eq_zero_of_bits
  intro i hi hr
  rw [wordE_getLsbD]
  have := bit i hi hr
  rw [if_neg (by omega), if_pos (by omega)]

theorem wordE_fields {w : Word} (h : w &&& Format.E.reserved = 0) :
    wordE (field w 24 8) (field w 22 2) (field w 21 1) (field w 19 2) (field w 0 16) = w := by
  have bit : ∀ i, i < 32 → 16 ≤ i ∧ i < 19 → Format.E.reserved.getLsbD i = true := by decide
  apply BitVec.eq_of_getLsbD_eq
  intro i hi
  rw [wordE_getLsbD]
  by_cases h0 : i < 16
  · rw [if_pos h0]
    rw [field_getLsbD, decide_eq_true (by omega), Bool.true_and, Nat.zero_add]
  rw [if_neg h0]
  by_cases h1 : i < 19
  · rw [if_pos h1]
    exact (clear_of_and_eq_zero h (bit i hi (by omega))).symm
  rw [if_neg h1]
  by_cases h2 : i < 21
  · rw [if_pos h2]
    rw [field_getLsbD, decide_eq_true (by omega), Bool.true_and, Nat.add_sub_of_le (by omega)]
  rw [if_neg h2]
  by_cases h3 : i < 22
  · rw [if_pos h3]
    rw [field_getLsbD, decide_eq_true (by omega), Bool.true_and, Nat.add_sub_of_le (by omega)]
  rw [if_neg h3]
  by_cases h4 : i < 24
  · rw [if_pos h4]
    rw [field_getLsbD, decide_eq_true (by omega), Bool.true_and, Nat.add_sub_of_le (by omega)]
  rw [if_neg h4]
  rw [field_getLsbD, decide_eq_true (by omega), Bool.true_and, Nat.add_sub_of_le (by omega)]

/-! ### Format Q -/

theorem wordQ_getLsbD (op : BitVec 8) (s : BitVec 2) (e : BitVec 1) (m : Mask) (bits : BitVec 5) (k : Nat) :
    (wordQ op s e m bits).getLsbD k
      = if k < 12 then false
        else if k < 17 then bits.getLsbD (k - 12)
        else if k < 21 then m.getLsbD (k - 17)
        else if k < 22 then e.getLsbD (k - 21)
        else if k < 24 then s.getLsbD (k - 22)
        else op.getLsbD (k - 24) := by
  unfold wordQ
  show BitVec.getLsbD (w := 8 + 2 + 1 + 4 + 5 + 12) (op ++ s ++ e ++ m ++ bits ++ 0#12) k = _
  simp only [BitVec.getLsbD_append, BitVec.getLsbD_zero]
  simp only [Nat.sub_sub, Nat.reduceAdd]
  by_cases h0 : k < 12
  · rw [if_pos h0, if_pos h0]
  rw [if_neg h0, if_neg h0]
  by_cases h1 : k < 17
  · rw [if_pos (by omega), if_pos h1]
  rw [if_neg (by omega), if_neg h1]
  by_cases h2 : k < 21
  · rw [if_pos (by omega), if_pos h2]
  rw [if_neg (by omega), if_neg h2]
  by_cases h3 : k < 22
  · rw [if_pos (by omega), if_pos h3]
  rw [if_neg (by omega), if_neg h3]
  by_cases h4 : k < 24
  · rw [if_pos (by omega), if_pos h4]
  rw [if_neg (by omega), if_neg h4]

@[simp] theorem wordQ_op (op : BitVec 8) (s : BitVec 2) (e : BitVec 1) (m : Mask) (bits : BitVec 5) :
    field (wordQ op s e m bits) 24 8 = op :=
  field_eq fun i hi => by
    rw [wordQ_getLsbD, if_neg (by omega), if_neg (by omega), if_neg (by omega), if_neg (by omega), if_neg (by omega), Nat.add_sub_cancel_left]

@[simp] theorem wordQ_s (op : BitVec 8) (s : BitVec 2) (e : BitVec 1) (m : Mask) (bits : BitVec 5) :
    field (wordQ op s e m bits) 22 2 = s :=
  field_eq fun i hi => by
    rw [wordQ_getLsbD, if_neg (by omega), if_neg (by omega), if_neg (by omega), if_neg (by omega), if_pos (by omega), Nat.add_sub_cancel_left]

@[simp] theorem wordQ_e (op : BitVec 8) (s : BitVec 2) (e : BitVec 1) (m : Mask) (bits : BitVec 5) :
    field (wordQ op s e m bits) 21 1 = e :=
  field_eq fun i hi => by
    rw [wordQ_getLsbD, if_neg (by omega), if_neg (by omega), if_neg (by omega), if_pos (by omega), Nat.add_sub_cancel_left]

@[simp] theorem wordQ_m (op : BitVec 8) (s : BitVec 2) (e : BitVec 1) (m : Mask) (bits : BitVec 5) :
    field (wordQ op s e m bits) 17 4 = m :=
  field_eq fun i hi => by
    rw [wordQ_getLsbD, if_neg (by omega), if_neg (by omega), if_pos (by omega), Nat.add_sub_cancel_left]

@[simp] theorem wordQ_bits (op : BitVec 8) (s : BitVec 2) (e : BitVec 1) (m : Mask) (bits : BitVec 5) :
    field (wordQ op s e m bits) 12 5 = bits :=
  field_eq fun i hi => by
    rw [wordQ_getLsbD, if_neg (by omega), if_pos (by omega), Nat.add_sub_cancel_left]

@[simp] theorem opcodeOf_wordQ (op : BitVec 8) (s : BitVec 2) (e : BitVec 1) (m : Mask) (bits : BitVec 5) :
    opcodeOf (wordQ op s e m bits) = op := wordQ_op op s e m bits

theorem wordQ_reserved (op : BitVec 8) (s : BitVec 2) (e : BitVec 1) (m : Mask) (bits : BitVec 5) :
    wordQ op s e m bits &&& Format.Q.reserved = 0 := by
  have bit : ∀ i, i < 32 → Format.Q.reserved.getLsbD i = true → i < 12 := by decide
  apply and_eq_zero_of_bits
  intro i hi hr
  rw [wordQ_getLsbD]
  have := bit i hi hr
  rw [if_pos (by omega)]

theorem decode_wordQ {op : BitVec 8} {k : BitVec 2 → BitVec 1 → Mask → BitVec 5 → Instr}
    (h : rowOf op = some ⟨op, .Q, buildQ k⟩) (s : BitVec 2) (e : BitVec 1) (m : Mask) (bits : BitVec 5) :
    decode (wordQ op s e m bits) = .command (k s e m bits) := by
  refine (decode_of_row (by rw [opcodeOf_wordQ, h]) (wordQ_reserved op s e m bits)).trans ?_
  simp [buildQ]

theorem wordQ_fields {w : Word} (h : w &&& Format.Q.reserved = 0) :
    wordQ (field w 24 8) (field w 22 2) (field w 21 1) (field w 17 4) (field w 12 5) = w := by
  have bit : ∀ i, i < 32 → i < 12 → Format.Q.reserved.getLsbD i = true := by decide
  apply BitVec.eq_of_getLsbD_eq
  intro i hi
  rw [wordQ_getLsbD]
  by_cases h0 : i < 12
  · rw [if_pos h0]
    exact (clear_of_and_eq_zero h (bit i hi (by omega))).symm
  rw [if_neg h0]
  by_cases h1 : i < 17
  · rw [if_pos h1]
    rw [field_getLsbD, decide_eq_true (by omega), Bool.true_and, Nat.add_sub_of_le (by omega)]
  rw [if_neg h1]
  by_cases h2 : i < 21
  · rw [if_pos h2]
    rw [field_getLsbD, decide_eq_true (by omega), Bool.true_and, Nat.add_sub_of_le (by omega)]
  rw [if_neg h2]
  by_cases h3 : i < 22
  · rw [if_pos h3]
    rw [field_getLsbD, decide_eq_true (by omega), Bool.true_and, Nat.add_sub_of_le (by omega)]
  rw [if_neg h3]
  by_cases h4 : i < 24
  · rw [if_pos h4]
    rw [field_getLsbD, decide_eq_true (by omega), Bool.true_and, Nat.add_sub_of_le (by omega)]
  rw [if_neg h4]
  rw [field_getLsbD, decide_eq_true (by omega), Bool.true_and, Nat.add_sub_of_le (by omega)]

/-! ### Format O -/

theorem wordO_getLsbD (op : BitVec 8) (s : BitVec 2) (m : Mask) (k : Nat) :
    (wordO op s m).getLsbD k
      = if k < 17 then false
        else if k < 21 then m.getLsbD (k - 17)
        else if k < 22 then false
        else if k < 24 then s.getLsbD (k - 22)
        else op.getLsbD (k - 24) := by
  unfold wordO
  show BitVec.getLsbD (w := 8 + 2 + 1 + 4 + 17) (op ++ s ++ 0#1 ++ m ++ 0#17) k = _
  simp only [BitVec.getLsbD_append, BitVec.getLsbD_zero]
  simp only [Nat.sub_sub, Nat.reduceAdd]
  by_cases h0 : k < 17
  · rw [if_pos h0, if_pos h0]
  rw [if_neg h0, if_neg h0]
  by_cases h1 : k < 21
  · rw [if_pos (by omega), if_pos h1]
  rw [if_neg (by omega), if_neg h1]
  by_cases h2 : k < 22
  · rw [if_pos (by omega), if_pos h2]
  rw [if_neg (by omega), if_neg h2]
  by_cases h3 : k < 24
  · rw [if_pos (by omega), if_pos h3]
  rw [if_neg (by omega), if_neg h3]

@[simp] theorem wordO_op (op : BitVec 8) (s : BitVec 2) (m : Mask) :
    field (wordO op s m) 24 8 = op :=
  field_eq fun i hi => by
    rw [wordO_getLsbD, if_neg (by omega), if_neg (by omega), if_neg (by omega), if_neg (by omega), Nat.add_sub_cancel_left]

@[simp] theorem wordO_s (op : BitVec 8) (s : BitVec 2) (m : Mask) :
    field (wordO op s m) 22 2 = s :=
  field_eq fun i hi => by
    rw [wordO_getLsbD, if_neg (by omega), if_neg (by omega), if_neg (by omega), if_pos (by omega), Nat.add_sub_cancel_left]

@[simp] theorem wordO_m (op : BitVec 8) (s : BitVec 2) (m : Mask) :
    field (wordO op s m) 17 4 = m :=
  field_eq fun i hi => by
    rw [wordO_getLsbD, if_neg (by omega), if_pos (by omega), Nat.add_sub_cancel_left]

@[simp] theorem opcodeOf_wordO (op : BitVec 8) (s : BitVec 2) (m : Mask) :
    opcodeOf (wordO op s m) = op := wordO_op op s m

theorem wordO_reserved (op : BitVec 8) (s : BitVec 2) (m : Mask) :
    wordO op s m &&& Format.O.reserved = 0 := by
  have bit : ∀ i, i < 32 → Format.O.reserved.getLsbD i = true → i < 17 ∨ 21 ≤ i ∧ i < 22 := by decide
  apply and_eq_zero_of_bits
  intro i hi hr
  rw [wordO_getLsbD]
  rcases bit i hi hr with h | h
  · rw [if_pos (by omega)]
  · rw [if_neg (by omega), if_neg (by omega), if_pos (by omega)]

theorem decode_wordO {op : BitVec 8} {k : BitVec 2 → Mask → Instr}
    (h : rowOf op = some ⟨op, .O, buildO k⟩) (s : BitVec 2) (m : Mask) :
    decode (wordO op s m) = .command (k s m) := by
  refine (decode_of_row (by rw [opcodeOf_wordO, h]) (wordO_reserved op s m)).trans ?_
  simp [buildO]

theorem wordO_fields {w : Word} (h : w &&& Format.O.reserved = 0) :
    wordO (field w 24 8) (field w 22 2) (field w 17 4) = w := by
  have bit : ∀ i, i < 32 → i < 17 ∨ 21 ≤ i ∧ i < 22 → Format.O.reserved.getLsbD i = true := by decide
  apply BitVec.eq_of_getLsbD_eq
  intro i hi
  rw [wordO_getLsbD]
  by_cases h0 : i < 17
  · rw [if_pos h0]
    exact (clear_of_and_eq_zero h (bit i hi (by omega))).symm
  rw [if_neg h0]
  by_cases h1 : i < 21
  · rw [if_pos h1]
    rw [field_getLsbD, decide_eq_true (by omega), Bool.true_and, Nat.add_sub_of_le (by omega)]
  rw [if_neg h1]
  by_cases h2 : i < 22
  · rw [if_pos h2]
    exact (clear_of_and_eq_zero h (bit i hi (by omega))).symm
  rw [if_neg h2]
  by_cases h3 : i < 24
  · rw [if_pos h3]
    rw [field_getLsbD, decide_eq_true (by omega), Bool.true_and, Nat.add_sub_of_le (by omega)]
  rw [if_neg h3]
  rw [field_getLsbD, decide_eq_true (by omega), Bool.true_and, Nat.add_sub_of_le (by omega)]

/-! ### Format L -/

theorem wordL_getLsbD (op : BitVec 8) (s : BitVec 2) (m : Mask) (iw : BitVec 3) (k : Nat) :
    (wordL op s m iw).getLsbD k
      = if k < 14 then false
        else if k < 17 then iw.getLsbD (k - 14)
        else if k < 21 then m.getLsbD (k - 17)
        else if k < 22 then false
        else if k < 24 then s.getLsbD (k - 22)
        else op.getLsbD (k - 24) := by
  unfold wordL
  show BitVec.getLsbD (w := 8 + 2 + 1 + 4 + 3 + 14) (op ++ s ++ 0#1 ++ m ++ iw ++ 0#14) k = _
  simp only [BitVec.getLsbD_append, BitVec.getLsbD_zero]
  simp only [Nat.sub_sub, Nat.reduceAdd]
  by_cases h0 : k < 14
  · rw [if_pos h0, if_pos h0]
  rw [if_neg h0, if_neg h0]
  by_cases h1 : k < 17
  · rw [if_pos (by omega), if_pos h1]
  rw [if_neg (by omega), if_neg h1]
  by_cases h2 : k < 21
  · rw [if_pos (by omega), if_pos h2]
  rw [if_neg (by omega), if_neg h2]
  by_cases h3 : k < 22
  · rw [if_pos (by omega), if_pos h3]
  rw [if_neg (by omega), if_neg h3]
  by_cases h4 : k < 24
  · rw [if_pos (by omega), if_pos h4]
  rw [if_neg (by omega), if_neg h4]

@[simp] theorem wordL_op (op : BitVec 8) (s : BitVec 2) (m : Mask) (iw : BitVec 3) :
    field (wordL op s m iw) 24 8 = op :=
  field_eq fun i hi => by
    rw [wordL_getLsbD, if_neg (by omega), if_neg (by omega), if_neg (by omega), if_neg (by omega), if_neg (by omega), Nat.add_sub_cancel_left]

@[simp] theorem wordL_s (op : BitVec 8) (s : BitVec 2) (m : Mask) (iw : BitVec 3) :
    field (wordL op s m iw) 22 2 = s :=
  field_eq fun i hi => by
    rw [wordL_getLsbD, if_neg (by omega), if_neg (by omega), if_neg (by omega), if_neg (by omega), if_pos (by omega), Nat.add_sub_cancel_left]

@[simp] theorem wordL_m (op : BitVec 8) (s : BitVec 2) (m : Mask) (iw : BitVec 3) :
    field (wordL op s m iw) 17 4 = m :=
  field_eq fun i hi => by
    rw [wordL_getLsbD, if_neg (by omega), if_neg (by omega), if_pos (by omega), Nat.add_sub_cancel_left]

@[simp] theorem wordL_iw (op : BitVec 8) (s : BitVec 2) (m : Mask) (iw : BitVec 3) :
    field (wordL op s m iw) 14 3 = iw :=
  field_eq fun i hi => by
    rw [wordL_getLsbD, if_neg (by omega), if_pos (by omega), Nat.add_sub_cancel_left]

@[simp] theorem opcodeOf_wordL (op : BitVec 8) (s : BitVec 2) (m : Mask) (iw : BitVec 3) :
    opcodeOf (wordL op s m iw) = op := wordL_op op s m iw

theorem wordL_reserved (op : BitVec 8) (s : BitVec 2) (m : Mask) (iw : BitVec 3) :
    wordL op s m iw &&& Format.L.reserved = 0 := by
  have bit : ∀ i, i < 32 → Format.L.reserved.getLsbD i = true → i < 14 ∨ 21 ≤ i ∧ i < 22 := by decide
  apply and_eq_zero_of_bits
  intro i hi hr
  rw [wordL_getLsbD]
  rcases bit i hi hr with h | h
  · rw [if_pos (by omega)]
  · rw [if_neg (by omega), if_neg (by omega), if_neg (by omega), if_pos (by omega)]

theorem decode_wordL {op : BitVec 8} {k : BitVec 2 → Mask → BitVec 3 → Instr}
    (h : rowOf op = some ⟨op, .L, buildL k⟩) (s : BitVec 2) (m : Mask) (iw : BitVec 3) :
    decode (wordL op s m iw) = .command (k s m iw) := by
  refine (decode_of_row (by rw [opcodeOf_wordL, h]) (wordL_reserved op s m iw)).trans ?_
  simp [buildL]

theorem wordL_fields {w : Word} (h : w &&& Format.L.reserved = 0) :
    wordL (field w 24 8) (field w 22 2) (field w 17 4) (field w 14 3) = w := by
  have bit : ∀ i, i < 32 → i < 14 ∨ 21 ≤ i ∧ i < 22 → Format.L.reserved.getLsbD i = true := by decide
  apply BitVec.eq_of_getLsbD_eq
  intro i hi
  rw [wordL_getLsbD]
  by_cases h0 : i < 14
  · rw [if_pos h0]
    exact (clear_of_and_eq_zero h (bit i hi (by omega))).symm
  rw [if_neg h0]
  by_cases h1 : i < 17
  · rw [if_pos h1]
    rw [field_getLsbD, decide_eq_true (by omega), Bool.true_and, Nat.add_sub_of_le (by omega)]
  rw [if_neg h1]
  by_cases h2 : i < 21
  · rw [if_pos h2]
    rw [field_getLsbD, decide_eq_true (by omega), Bool.true_and, Nat.add_sub_of_le (by omega)]
  rw [if_neg h2]
  by_cases h3 : i < 22
  · rw [if_pos h3]
    exact (clear_of_and_eq_zero h (bit i hi (by omega))).symm
  rw [if_neg h3]
  by_cases h4 : i < 24
  · rw [if_pos h4]
    rw [field_getLsbD, decide_eq_true (by omega), Bool.true_and, Nat.add_sub_of_le (by omega)]
  rw [if_neg h4]
  rw [field_getLsbD, decide_eq_true (by omega), Bool.true_and, Nat.add_sub_of_le (by omega)]

/-! ### Format X -/

theorem wordX_getLsbD (op : BitVec 8) (t : BitVec 1) (s : BitVec 2) (m : Mask) (iw : BitVec 3) (k : Nat) :
    (wordX op t s m iw).getLsbD k
      = if k < 14 then false
        else if k < 17 then iw.getLsbD (k - 14)
        else if k < 21 then m.getLsbD (k - 17)
        else if k < 23 then s.getLsbD (k - 21)
        else if k < 24 then t.getLsbD (k - 23)
        else op.getLsbD (k - 24) := by
  unfold wordX
  show BitVec.getLsbD (w := 8 + 1 + 2 + 4 + 3 + 14) (op ++ t ++ s ++ m ++ iw ++ 0#14) k = _
  simp only [BitVec.getLsbD_append, BitVec.getLsbD_zero]
  simp only [Nat.sub_sub, Nat.reduceAdd]
  by_cases h0 : k < 14
  · rw [if_pos h0, if_pos h0]
  rw [if_neg h0, if_neg h0]
  by_cases h1 : k < 17
  · rw [if_pos (by omega), if_pos h1]
  rw [if_neg (by omega), if_neg h1]
  by_cases h2 : k < 21
  · rw [if_pos (by omega), if_pos h2]
  rw [if_neg (by omega), if_neg h2]
  by_cases h3 : k < 23
  · rw [if_pos (by omega), if_pos h3]
  rw [if_neg (by omega), if_neg h3]
  by_cases h4 : k < 24
  · rw [if_pos (by omega), if_pos h4]
  rw [if_neg (by omega), if_neg h4]

@[simp] theorem wordX_op (op : BitVec 8) (t : BitVec 1) (s : BitVec 2) (m : Mask) (iw : BitVec 3) :
    field (wordX op t s m iw) 24 8 = op :=
  field_eq fun i hi => by
    rw [wordX_getLsbD, if_neg (by omega), if_neg (by omega), if_neg (by omega), if_neg (by omega), if_neg (by omega), Nat.add_sub_cancel_left]

@[simp] theorem wordX_t (op : BitVec 8) (t : BitVec 1) (s : BitVec 2) (m : Mask) (iw : BitVec 3) :
    field (wordX op t s m iw) 23 1 = t :=
  field_eq fun i hi => by
    rw [wordX_getLsbD, if_neg (by omega), if_neg (by omega), if_neg (by omega), if_neg (by omega), if_pos (by omega), Nat.add_sub_cancel_left]

@[simp] theorem wordX_s (op : BitVec 8) (t : BitVec 1) (s : BitVec 2) (m : Mask) (iw : BitVec 3) :
    field (wordX op t s m iw) 21 2 = s :=
  field_eq fun i hi => by
    rw [wordX_getLsbD, if_neg (by omega), if_neg (by omega), if_neg (by omega), if_pos (by omega), Nat.add_sub_cancel_left]

@[simp] theorem wordX_m (op : BitVec 8) (t : BitVec 1) (s : BitVec 2) (m : Mask) (iw : BitVec 3) :
    field (wordX op t s m iw) 17 4 = m :=
  field_eq fun i hi => by
    rw [wordX_getLsbD, if_neg (by omega), if_neg (by omega), if_pos (by omega), Nat.add_sub_cancel_left]

@[simp] theorem wordX_iw (op : BitVec 8) (t : BitVec 1) (s : BitVec 2) (m : Mask) (iw : BitVec 3) :
    field (wordX op t s m iw) 14 3 = iw :=
  field_eq fun i hi => by
    rw [wordX_getLsbD, if_neg (by omega), if_pos (by omega), Nat.add_sub_cancel_left]

@[simp] theorem opcodeOf_wordX (op : BitVec 8) (t : BitVec 1) (s : BitVec 2) (m : Mask) (iw : BitVec 3) :
    opcodeOf (wordX op t s m iw) = op := wordX_op op t s m iw

theorem wordX_reserved (op : BitVec 8) (t : BitVec 1) (s : BitVec 2) (m : Mask) (iw : BitVec 3) :
    wordX op t s m iw &&& Format.X.reserved = 0 := by
  have bit : ∀ i, i < 32 → Format.X.reserved.getLsbD i = true → i < 14 := by decide
  apply and_eq_zero_of_bits
  intro i hi hr
  rw [wordX_getLsbD]
  have := bit i hi hr
  rw [if_pos (by omega)]

theorem decode_wordX {op : BitVec 8} {k : BitVec 1 → BitVec 2 → Mask → BitVec 3 → Instr}
    (h : rowOf op = some ⟨op, .X, buildX k⟩) (t : BitVec 1) (s : BitVec 2) (m : Mask) (iw : BitVec 3) :
    decode (wordX op t s m iw) = .command (k t s m iw) := by
  refine (decode_of_row (by rw [opcodeOf_wordX, h]) (wordX_reserved op t s m iw)).trans ?_
  simp [buildX]

theorem wordX_fields {w : Word} (h : w &&& Format.X.reserved = 0) :
    wordX (field w 24 8) (field w 23 1) (field w 21 2) (field w 17 4) (field w 14 3) = w := by
  have bit : ∀ i, i < 32 → i < 14 → Format.X.reserved.getLsbD i = true := by decide
  apply BitVec.eq_of_getLsbD_eq
  intro i hi
  rw [wordX_getLsbD]
  by_cases h0 : i < 14
  · rw [if_pos h0]
    exact (clear_of_and_eq_zero h (bit i hi (by omega))).symm
  rw [if_neg h0]
  by_cases h1 : i < 17
  · rw [if_pos h1]
    rw [field_getLsbD, decide_eq_true (by omega), Bool.true_and, Nat.add_sub_of_le (by omega)]
  rw [if_neg h1]
  by_cases h2 : i < 21
  · rw [if_pos h2]
    rw [field_getLsbD, decide_eq_true (by omega), Bool.true_and, Nat.add_sub_of_le (by omega)]
  rw [if_neg h2]
  by_cases h3 : i < 23
  · rw [if_pos h3]
    rw [field_getLsbD, decide_eq_true (by omega), Bool.true_and, Nat.add_sub_of_le (by omega)]
  rw [if_neg h3]
  by_cases h4 : i < 24
  · rw [if_pos h4]
    rw [field_getLsbD, decide_eq_true (by omega), Bool.true_and, Nat.add_sub_of_le (by omega)]
  rw [if_neg h4]
  rw [field_getLsbD, decide_eq_true (by omega), Bool.true_and, Nat.add_sub_of_le (by omega)]

/-! ### Format K -/

theorem wordK_getLsbD (op : BitVec 8) (off : BitVec 7) (wm1 : BitVec 4) (sh : BitVec 4) (sel : BitVec 8) (k : Nat) :
    (wordK op off wm1 sh sel).getLsbD k
      = if k < 8 then sel.getLsbD k
        else if k < 12 then sh.getLsbD (k - 8)
        else if k < 13 then false
        else if k < 17 then wm1.getLsbD (k - 13)
        else if k < 24 then off.getLsbD (k - 17)
        else op.getLsbD (k - 24) := by
  unfold wordK
  show BitVec.getLsbD (w := 8 + 7 + 4 + 1 + 4 + 8) (op ++ off ++ wm1 ++ 0#1 ++ sh ++ sel) k = _
  simp only [BitVec.getLsbD_append, BitVec.getLsbD_zero]
  simp only [Nat.sub_sub, Nat.reduceAdd]
  by_cases h0 : k < 8
  · rw [if_pos h0, if_pos h0]
  rw [if_neg h0, if_neg h0]
  by_cases h1 : k < 12
  · rw [if_pos (by omega), if_pos h1]
  rw [if_neg (by omega), if_neg h1]
  by_cases h2 : k < 13
  · rw [if_pos (by omega), if_pos h2]
  rw [if_neg (by omega), if_neg h2]
  by_cases h3 : k < 17
  · rw [if_pos (by omega), if_pos h3]
  rw [if_neg (by omega), if_neg h3]
  by_cases h4 : k < 24
  · rw [if_pos (by omega), if_pos h4]
  rw [if_neg (by omega), if_neg h4]

@[simp] theorem wordK_op (op : BitVec 8) (off : BitVec 7) (wm1 : BitVec 4) (sh : BitVec 4) (sel : BitVec 8) :
    field (wordK op off wm1 sh sel) 24 8 = op :=
  field_eq fun i hi => by
    rw [wordK_getLsbD, if_neg (by omega), if_neg (by omega), if_neg (by omega), if_neg (by omega), if_neg (by omega), Nat.add_sub_cancel_left]

@[simp] theorem wordK_off (op : BitVec 8) (off : BitVec 7) (wm1 : BitVec 4) (sh : BitVec 4) (sel : BitVec 8) :
    field (wordK op off wm1 sh sel) 17 7 = off :=
  field_eq fun i hi => by
    rw [wordK_getLsbD, if_neg (by omega), if_neg (by omega), if_neg (by omega), if_neg (by omega), if_pos (by omega), Nat.add_sub_cancel_left]

@[simp] theorem wordK_wm1 (op : BitVec 8) (off : BitVec 7) (wm1 : BitVec 4) (sh : BitVec 4) (sel : BitVec 8) :
    field (wordK op off wm1 sh sel) 13 4 = wm1 :=
  field_eq fun i hi => by
    rw [wordK_getLsbD, if_neg (by omega), if_neg (by omega), if_neg (by omega), if_pos (by omega), Nat.add_sub_cancel_left]

@[simp] theorem wordK_sh (op : BitVec 8) (off : BitVec 7) (wm1 : BitVec 4) (sh : BitVec 4) (sel : BitVec 8) :
    field (wordK op off wm1 sh sel) 8 4 = sh :=
  field_eq fun i hi => by
    rw [wordK_getLsbD, if_neg (by omega), if_pos (by omega), Nat.add_sub_cancel_left]

@[simp] theorem wordK_sel (op : BitVec 8) (off : BitVec 7) (wm1 : BitVec 4) (sh : BitVec 4) (sel : BitVec 8) :
    field (wordK op off wm1 sh sel) 0 8 = sel :=
  field_eq fun i hi => by
    rw [wordK_getLsbD, if_pos (by omega), Nat.zero_add]

@[simp] theorem opcodeOf_wordK (op : BitVec 8) (off : BitVec 7) (wm1 : BitVec 4) (sh : BitVec 4) (sel : BitVec 8) :
    opcodeOf (wordK op off wm1 sh sel) = op := wordK_op op off wm1 sh sel

theorem wordK_reserved (op : BitVec 8) (off : BitVec 7) (wm1 : BitVec 4) (sh : BitVec 4) (sel : BitVec 8) :
    wordK op off wm1 sh sel &&& Format.K.reserved = 0 := by
  have bit : ∀ i, i < 32 → Format.K.reserved.getLsbD i = true → 12 ≤ i ∧ i < 13 := by decide
  apply and_eq_zero_of_bits
  intro i hi hr
  rw [wordK_getLsbD]
  have := bit i hi hr
  rw [if_neg (by omega), if_neg (by omega), if_pos (by omega)]

theorem wordK_fields {w : Word} (h : w &&& Format.K.reserved = 0) :
    wordK (field w 24 8) (field w 17 7) (field w 13 4) (field w 8 4) (field w 0 8) = w := by
  have bit : ∀ i, i < 32 → 12 ≤ i ∧ i < 13 → Format.K.reserved.getLsbD i = true := by decide
  apply BitVec.eq_of_getLsbD_eq
  intro i hi
  rw [wordK_getLsbD]
  by_cases h0 : i < 8
  · rw [if_pos h0]
    rw [field_getLsbD, decide_eq_true (by omega), Bool.true_and, Nat.zero_add]
  rw [if_neg h0]
  by_cases h1 : i < 12
  · rw [if_pos h1]
    rw [field_getLsbD, decide_eq_true (by omega), Bool.true_and, Nat.add_sub_of_le (by omega)]
  rw [if_neg h1]
  by_cases h2 : i < 13
  · rw [if_pos h2]
    exact (clear_of_and_eq_zero h (bit i hi (by omega))).symm
  rw [if_neg h2]
  by_cases h3 : i < 17
  · rw [if_pos h3]
    rw [field_getLsbD, decide_eq_true (by omega), Bool.true_and, Nat.add_sub_of_le (by omega)]
  rw [if_neg h3]
  by_cases h4 : i < 24
  · rw [if_pos h4]
    rw [field_getLsbD, decide_eq_true (by omega), Bool.true_and, Nat.add_sub_of_le (by omega)]
  rw [if_neg h4]
  rw [field_getLsbD, decide_eq_true (by omega), Bool.true_and, Nat.add_sub_of_le (by omega)]

/-! ### Format J -/

theorem wordJ_getLsbD (op : BitVec 8) (t : BitVec 1) (off : BitVec 7) (iw : BitVec 3) (na : BitVec 2) (k : Nat) :
    (wordJ op t off iw na).getLsbD k
      = if k < 11 then false
        else if k < 13 then na.getLsbD (k - 11)
        else if k < 16 then iw.getLsbD (k - 13)
        else if k < 23 then off.getLsbD (k - 16)
        else if k < 24 then t.getLsbD (k - 23)
        else op.getLsbD (k - 24) := by
  unfold wordJ
  show BitVec.getLsbD (w := 8 + 1 + 7 + 3 + 2 + 11) (op ++ t ++ off ++ iw ++ na ++ 0#11) k = _
  simp only [BitVec.getLsbD_append, BitVec.getLsbD_zero]
  simp only [Nat.sub_sub, Nat.reduceAdd]
  by_cases h0 : k < 11
  · rw [if_pos h0, if_pos h0]
  rw [if_neg h0, if_neg h0]
  by_cases h1 : k < 13
  · rw [if_pos (by omega), if_pos h1]
  rw [if_neg (by omega), if_neg h1]
  by_cases h2 : k < 16
  · rw [if_pos (by omega), if_pos h2]
  rw [if_neg (by omega), if_neg h2]
  by_cases h3 : k < 23
  · rw [if_pos (by omega), if_pos h3]
  rw [if_neg (by omega), if_neg h3]
  by_cases h4 : k < 24
  · rw [if_pos (by omega), if_pos h4]
  rw [if_neg (by omega), if_neg h4]

@[simp] theorem wordJ_op (op : BitVec 8) (t : BitVec 1) (off : BitVec 7) (iw : BitVec 3) (na : BitVec 2) :
    field (wordJ op t off iw na) 24 8 = op :=
  field_eq fun i hi => by
    rw [wordJ_getLsbD, if_neg (by omega), if_neg (by omega), if_neg (by omega), if_neg (by omega), if_neg (by omega), Nat.add_sub_cancel_left]

@[simp] theorem wordJ_t (op : BitVec 8) (t : BitVec 1) (off : BitVec 7) (iw : BitVec 3) (na : BitVec 2) :
    field (wordJ op t off iw na) 23 1 = t :=
  field_eq fun i hi => by
    rw [wordJ_getLsbD, if_neg (by omega), if_neg (by omega), if_neg (by omega), if_neg (by omega), if_pos (by omega), Nat.add_sub_cancel_left]

@[simp] theorem wordJ_off (op : BitVec 8) (t : BitVec 1) (off : BitVec 7) (iw : BitVec 3) (na : BitVec 2) :
    field (wordJ op t off iw na) 16 7 = off :=
  field_eq fun i hi => by
    rw [wordJ_getLsbD, if_neg (by omega), if_neg (by omega), if_neg (by omega), if_pos (by omega), Nat.add_sub_cancel_left]

@[simp] theorem wordJ_iw (op : BitVec 8) (t : BitVec 1) (off : BitVec 7) (iw : BitVec 3) (na : BitVec 2) :
    field (wordJ op t off iw na) 13 3 = iw :=
  field_eq fun i hi => by
    rw [wordJ_getLsbD, if_neg (by omega), if_neg (by omega), if_pos (by omega), Nat.add_sub_cancel_left]

@[simp] theorem wordJ_na (op : BitVec 8) (t : BitVec 1) (off : BitVec 7) (iw : BitVec 3) (na : BitVec 2) :
    field (wordJ op t off iw na) 11 2 = na :=
  field_eq fun i hi => by
    rw [wordJ_getLsbD, if_neg (by omega), if_pos (by omega), Nat.add_sub_cancel_left]

@[simp] theorem opcodeOf_wordJ (op : BitVec 8) (t : BitVec 1) (off : BitVec 7) (iw : BitVec 3) (na : BitVec 2) :
    opcodeOf (wordJ op t off iw na) = op := wordJ_op op t off iw na

theorem wordJ_reserved (op : BitVec 8) (t : BitVec 1) (off : BitVec 7) (iw : BitVec 3) (na : BitVec 2) :
    wordJ op t off iw na &&& Format.J.reserved = 0 := by
  have bit : ∀ i, i < 32 → Format.J.reserved.getLsbD i = true → i < 11 := by decide
  apply and_eq_zero_of_bits
  intro i hi hr
  rw [wordJ_getLsbD]
  have := bit i hi hr
  rw [if_pos (by omega)]

theorem wordJ_fields {w : Word} (h : w &&& Format.J.reserved = 0) :
    wordJ (field w 24 8) (field w 23 1) (field w 16 7) (field w 13 3) (field w 11 2) = w := by
  have bit : ∀ i, i < 32 → i < 11 → Format.J.reserved.getLsbD i = true := by decide
  apply BitVec.eq_of_getLsbD_eq
  intro i hi
  rw [wordJ_getLsbD]
  by_cases h0 : i < 11
  · rw [if_pos h0]
    exact (clear_of_and_eq_zero h (bit i hi (by omega))).symm
  rw [if_neg h0]
  by_cases h1 : i < 13
  · rw [if_pos h1]
    rw [field_getLsbD, decide_eq_true (by omega), Bool.true_and, Nat.add_sub_of_le (by omega)]
  rw [if_neg h1]
  by_cases h2 : i < 16
  · rw [if_pos h2]
    rw [field_getLsbD, decide_eq_true (by omega), Bool.true_and, Nat.add_sub_of_le (by omega)]
  rw [if_neg h2]
  by_cases h3 : i < 23
  · rw [if_pos h3]
    rw [field_getLsbD, decide_eq_true (by omega), Bool.true_and, Nat.add_sub_of_le (by omega)]
  rw [if_neg h3]
  by_cases h4 : i < 24
  · rw [if_pos h4]
    rw [field_getLsbD, decide_eq_true (by omega), Bool.true_and, Nat.add_sub_of_le (by omega)]
  rw [if_neg h4]
  rw [field_getLsbD, decide_eq_true (by omega), Bool.true_and, Nat.add_sub_of_le (by omega)]

/-! ### Format M -/

theorem wordM_getLsbD (op : BitVec 8) (src : BitVec 1) (k : Nat) :
    (wordM op src).getLsbD k
      = if k < 23 then false
        else if k < 24 then src.getLsbD (k - 23)
        else op.getLsbD (k - 24) := by
  unfold wordM
  show BitVec.getLsbD (w := 8 + 1 + 23) (op ++ src ++ 0#23) k = _
  simp only [BitVec.getLsbD_append, BitVec.getLsbD_zero]
  simp only [Nat.sub_sub, Nat.reduceAdd]
  by_cases h0 : k < 23
  · rw [if_pos h0, if_pos h0]
  rw [if_neg h0, if_neg h0]
  by_cases h1 : k < 24
  · rw [if_pos (by omega), if_pos h1]
  rw [if_neg (by omega), if_neg h1]

@[simp] theorem wordM_op (op : BitVec 8) (src : BitVec 1) :
    field (wordM op src) 24 8 = op :=
  field_eq fun i hi => by
    rw [wordM_getLsbD, if_neg (by omega), if_neg (by omega), Nat.add_sub_cancel_left]

@[simp] theorem wordM_src (op : BitVec 8) (src : BitVec 1) :
    field (wordM op src) 23 1 = src :=
  field_eq fun i hi => by
    rw [wordM_getLsbD, if_neg (by omega), if_pos (by omega), Nat.add_sub_cancel_left]

@[simp] theorem opcodeOf_wordM (op : BitVec 8) (src : BitVec 1) :
    opcodeOf (wordM op src) = op := wordM_op op src

theorem wordM_reserved (op : BitVec 8) (src : BitVec 1) :
    wordM op src &&& Format.M.reserved = 0 := by
  have bit : ∀ i, i < 32 → Format.M.reserved.getLsbD i = true → i < 23 := by decide
  apply and_eq_zero_of_bits
  intro i hi hr
  rw [wordM_getLsbD]
  have := bit i hi hr
  rw [if_pos (by omega)]

theorem wordM_fields {w : Word} (h : w &&& Format.M.reserved = 0) :
    wordM (field w 24 8) (field w 23 1) = w := by
  have bit : ∀ i, i < 32 → i < 23 → Format.M.reserved.getLsbD i = true := by decide
  apply BitVec.eq_of_getLsbD_eq
  intro i hi
  rw [wordM_getLsbD]
  by_cases h0 : i < 23
  · rw [if_pos h0]
    exact (clear_of_and_eq_zero h (bit i hi (by omega))).symm
  rw [if_neg h0]
  by_cases h1 : i < 24
  · rw [if_pos h1]
    rw [field_getLsbD, decide_eq_true (by omega), Bool.true_and, Nat.add_sub_of_le (by omega)]
  rw [if_neg h1]
  rw [field_getLsbD, decide_eq_true (by omega), Bool.true_and, Nat.add_sub_of_le (by omega)]

/-! ### The rows of the opcode map -/

theorem rowOf_nop : rowOf 0x00 = some ⟨0x00, .Z, fun _ => .nop⟩ := rfl

theorem rowOf_blkinit : rowOf 0x01 = some ⟨0x01, .Z, fun _ => .blkinit⟩ := rfl

theorem rowOf_ldc : rowOf 0x02 = some ⟨0x02, .C, fun w => .ldc (field w 16 8) (field w 0 16)⟩ := rfl

theorem rowOf_ldpx : rowOf 0x03 = some ⟨0x03, .P, fun w => .ldpx (field w 20 4) (field w 18 2) (field w 0 16)⟩ := rfl

theorem rowOf_lder : rowOf 0x04 = some ⟨0x04, .E, fun w => .lder (field w 22 2) (field w 21 1) (field w 19 2) (field w 0 16)⟩ := rfl

theorem rowOf_keepmin : rowOf 0x05 = some ⟨0x05, .Z, fun _ => .keepmin⟩ := rfl

theorem rowOf_emit : rowOf 0x06 = some ⟨0x06, .M, fun w => .emit (field w 23 1)⟩ := rfl

theorem rowOf_candinit : rowOf 0x07 = some ⟨0x07, .Z, fun _ => .candinit⟩ := rfl

theorem rowOf_qntl : rowOf 0x10 = some ⟨0x10, .Q, buildQ .qntl⟩ := rfl

theorem rowOf_qntlp : rowOf 0x11 = some ⟨0x11, .Q, buildQ .qntlp⟩ := rfl

theorem rowOf_qnth : rowOf 0x12 = some ⟨0x12, .Q, buildQ .qnth⟩ := rfl

theorem rowOf_unql : rowOf 0x13 = some ⟨0x13, .Q, buildQ .unql⟩ := rfl

theorem rowOf_unqlp : rowOf 0x14 = some ⟨0x14, .Q, buildQ .unqlp⟩ := rfl

theorem rowOf_unqh : rowOf 0x15 = some ⟨0x15, .Q, buildQ .unqh⟩ := rfl

theorem rowOf_order : rowOf 0x16 = some ⟨0x16, .O, buildO .order⟩ := rfl

theorem rowOf_delta : rowOf 0x17 = some ⟨0x17, .Q, buildQ .delta⟩ := rfl

theorem rowOf_palw : rowOf 0x20 = some ⟨0x20, .L, buildL .palw⟩ := rfl

theorem rowOf_palh : rowOf 0x21 = some ⟨0x21, .L, buildL .palh⟩ := rfl

theorem rowOf_palt : rowOf 0x22 = some ⟨0x22, .O, buildO .palt⟩ := rfl

theorem rowOf_pals : rowOf 0x23 = some ⟨0x23, .O, buildO .pals⟩ := rfl

theorem rowOf_idxn : rowOf 0x30 = some ⟨0x30, .X, buildX .idxn⟩ := rfl

theorem rowOf_idxp : rowOf 0x31 = some ⟨0x31, .X, buildX .idxp⟩ := rfl

theorem rowOf_fix : rowOf 0x40 = some ⟨0x40, .X, buildX .fix⟩ := rfl

theorem rowOf_put : rowOf 0x50 = some ⟨0x50, .K, fun w => .put (field w 17 7) (field w 13 4) (field w 8 4) (field w 0 8)⟩ := rfl

theorem rowOf_putix : rowOf 0x51 = some ⟨0x51, .J, fun w => .putix (field w 23 1) (field w 16 7) (field w 13 3) (field w 11 2)⟩ := rfl

end Sys2Proof
end

