-- ==== Sys2Proof/Laws/State.lean ====
section
/-! SUPPORT. The small lemmas of State's updates: one per field per named update, so that no later proof
unfolds a record update. For an update that a condition guards, the fields it never touches. -/

namespace Sys2Proof.Machine

/-! ### `State.complete` -/

@[simp] theorem State.complete_px (s : State) : s.complete.px = s.px := rfl
@[simp] theorem State.complete_er (s : State) : s.complete.er = s.er := rfl
@[simp] theorem State.complete_eq (s : State) : s.complete.eq = s.eq := rfl
@[simp] theorem State.complete_ed (s : State) : s.complete.ed = s.ed := rfl
@[simp] theorem State.complete_eu (s : State) : s.complete.eu = s.eu := rfl
@[simp] theorem State.complete_pal (s : State) : s.complete.pal = s.pal := rfl
@[simp] theorem State.complete_ix (s : State) : s.complete.ix = s.ix := rfl
@[simp] theorem State.complete_ob (s : State) : s.complete.ob = s.ob := rfl
@[simp] theorem State.complete_bestOb (s : State) : s.complete.bestOb = s.bestOb := rfl
@[simp] theorem State.complete_err (s : State) : s.complete.err = s.err := rfl
@[simp] theorem State.complete_bestErr (s : State) : s.complete.bestErr = s.bestErr := rfl
@[simp] theorem State.complete_t (s : State) : s.complete.t = s.t := rfl
@[simp] theorem State.complete_cidx (s : State) : s.complete.cidx = s.cidx + 1 := rfl
@[simp] theorem State.complete_status (s : State) : s.complete.status = s.status := rfl
@[simp] theorem State.complete_cfg (s : State) : s.complete.cfg = s.cfg := rfl
@[simp] theorem State.complete_pm1 (s : State) : s.complete.pm1 = s.pm1 := rfl
@[simp] theorem State.complete_pm2 (s : State) : s.complete.pm2 = s.pm2 := rfl
@[simp] theorem State.complete_anch (s : State) : s.complete.anch = s.anch := rfl
@[simp] theorem State.complete_pbits (s : State) : s.complete.pbits = s.pbits := rfl
@[simp] theorem State.complete_oaddr (s : State) : s.complete.oaddr = s.oaddr := rfl
@[simp] theorem State.complete_fcode (s : State) : s.complete.fcode = s.fcode := rfl
@[simp] theorem State.complete_fcidx (s : State) : s.complete.fcidx = s.fcidx := rfl
@[simp] theorem State.complete_mem (s : State) : s.complete.mem = s.mem := rfl
@[simp] theorem State.complete_draws (s : State) : s.complete.draws = s.draws + 1 := rfl
@[simp] theorem State.complete_pending (s : State) : s.complete.pending = s.pending := rfl
@[simp] theorem State.complete_out (s : State) : s.complete.out = s.out := rfl

/-! ### `State.setEql` -/

@[simp] theorem State.setEql_px (s : State) (v : Bool) : (s.setEql v).px = s.px := rfl
@[simp] theorem State.setEql_er (s : State) (v : Bool) : (s.setEql v).er = s.er := rfl
@[simp] theorem State.setEql_eq (s : State) (v : Bool) : (s.setEql v).eq = s.eq := rfl
@[simp] theorem State.setEql_ed (s : State) (v : Bool) : (s.setEql v).ed = s.ed := rfl
@[simp] theorem State.setEql_eu (s : State) (v : Bool) : (s.setEql v).eu = s.eu := rfl
@[simp] theorem State.setEql_pal (s : State) (v : Bool) : (s.setEql v).pal = s.pal := rfl
@[simp] theorem State.setEql_ix (s : State) (v : Bool) : (s.setEql v).ix = s.ix := rfl
@[simp] theorem State.setEql_ob (s : State) (v : Bool) : (s.setEql v).ob = s.ob := rfl
@[simp] theorem State.setEql_bestOb (s : State) (v : Bool) : (s.setEql v).bestOb = s.bestOb := rfl
@[simp] theorem State.setEql_err (s : State) (v : Bool) : (s.setEql v).err = s.err := rfl
@[simp] theorem State.setEql_bestErr (s : State) (v : Bool) : (s.setEql v).bestErr = s.bestErr := rfl
@[simp] theorem State.setEql_t (s : State) (v : Bool) : (s.setEql v).t = s.t := rfl
@[simp] theorem State.setEql_cidx (s : State) (v : Bool) : (s.setEql v).cidx = s.cidx := rfl
@[simp] theorem State.setEql_status (s : State) (v : Bool) : (s.setEql v).status = { s.status with eql := v } := rfl
@[simp] theorem State.setEql_cfg (s : State) (v : Bool) : (s.setEql v).cfg = s.cfg := rfl
@[simp] theorem State.setEql_pm1 (s : State) (v : Bool) : (s.setEql v).pm1 = s.pm1 := rfl
@[simp] theorem State.setEql_pm2 (s : State) (v : Bool) : (s.setEql v).pm2 = s.pm2 := rfl
@[simp] theorem State.setEql_anch (s : State) (v : Bool) : (s.setEql v).anch = s.anch := rfl
@[simp] theorem State.setEql_pbits (s : State) (v : Bool) : (s.setEql v).pbits = s.pbits := rfl
@[simp] theorem State.setEql_oaddr (s : State) (v : Bool) : (s.setEql v).oaddr = s.oaddr := rfl
@[simp] theorem State.setEql_fcode (s : State) (v : Bool) : (s.setEql v).fcode = s.fcode := rfl
@[simp] theorem State.setEql_fcidx (s : State) (v : Bool) : (s.setEql v).fcidx = s.fcidx := rfl
@[simp] theorem State.setEql_mem (s : State) (v : Bool) : (s.setEql v).mem = s.mem := rfl
@[simp] theorem State.setEql_draws (s : State) (v : Bool) : (s.setEql v).draws = s.draws := rfl
@[simp] theorem State.setEql_pending (s : State) (v : Bool) : (s.setEql v).pending = s.pending := rfl
@[simp] theorem State.setEql_out (s : State) (v : Bool) : (s.setEql v).out = s.out := rfl

/-! ### `State.swapEndpoints` -/

@[simp] theorem State.swapEndpoints_px (s : State) (b : Subset) (m : Mask) : (s.swapEndpoints b m).px = s.px := rfl
@[simp] theorem State.swapEndpoints_er (s : State) (b : Subset) (m : Mask) : (s.swapEndpoints b m).er = s.er.exchange b m := rfl
@[simp] theorem State.swapEndpoints_eq (s : State) (b : Subset) (m : Mask) : (s.swapEndpoints b m).eq = s.eq.exchange b m := rfl
@[simp] theorem State.swapEndpoints_ed (s : State) (b : Subset) (m : Mask) : (s.swapEndpoints b m).ed = s.ed := rfl
@[simp] theorem State.swapEndpoints_eu (s : State) (b : Subset) (m : Mask) : (s.swapEndpoints b m).eu = s.eu.exchange b m := rfl
@[simp] theorem State.swapEndpoints_pal (s : State) (b : Subset) (m : Mask) : (s.swapEndpoints b m).pal = s.pal := rfl
@[simp] theorem State.swapEndpoints_ix (s : State) (b : Subset) (m : Mask) : (s.swapEndpoints b m).ix = s.ix := rfl
@[simp] theorem State.swapEndpoints_ob (s : State) (b : Subset) (m : Mask) : (s.swapEndpoints b m).ob = s.ob := rfl
@[simp] theorem State.swapEndpoints_bestOb (s : State) (b : Subset) (m : Mask) : (s.swapEndpoints b m).bestOb = s.bestOb := rfl
@[simp] theorem State.swapEndpoints_err (s : State) (b : Subset) (m : Mask) : (s.swapEndpoints b m).err = s.err := rfl
@[simp] theorem State.swapEndpoints_bestErr (s : State) (b : Subset) (m : Mask) : (s.swapEndpoints b m).bestErr = s.bestErr := rfl
@[simp] theorem State.swapEndpoints_t (s : State) (b : Subset) (m : Mask) : (s.swapEndpoints b m).t = s.t := rfl
@[simp] theorem State.swapEndpoints_cidx (s : State) (b : Subset) (m : Mask) : (s.swapEndpoints b m).cidx = s.cidx := rfl
@[simp] theorem State.swapEndpoints_status (s : State) (b : Subset) (m : Mask) : (s.swapEndpoints b m).status = s.status := rfl
@[simp] theorem State.swapEndpoints_cfg (s : State) (b : Subset) (m : Mask) : (s.swapEndpoints b m).cfg = s.cfg := rfl
@[simp] theorem State.swapEndpoints_pm1 (s : State) (b : Subset) (m : Mask) : (s.swapEndpoints b m).pm1 = s.pm1 := rfl
@[simp] theorem State.swapEndpoints_pm2 (s : State) (b : Subset) (m : Mask) : (s.swapEndpoints b m).pm2 = s.pm2 := rfl
@[simp] theorem State.swapEndpoints_anch (s : State) (b : Subset) (m : Mask) : (s.swapEndpoints b m).anch = s.anch := rfl
@[simp] theorem State.swapEndpoints_pbits (s : State) (b : Subset) (m : Mask) : (s.swapEndpoints b m).pbits = exchangePBits s.pbits b := rfl
@[simp] theorem State.swapEndpoints_oaddr (s : State) (b : Subset) (m : Mask) : (s.swapEndpoints b m).oaddr = s.oaddr := rfl
@[simp] theorem State.swapEndpoints_fcode (s : State) (b : Subset) (m : Mask) : (s.swapEndpoints b m).fcode = s.fcode := rfl
@[simp] theorem State.swapEndpoints_fcidx (s : State) (b : Subset) (m : Mask) : (s.swapEndpoints b m).fcidx = s.fcidx := rfl
@[simp] theorem State.swapEndpoints_mem (s : State) (b : Subset) (m : Mask) : (s.swapEndpoints b m).mem = s.mem := rfl
@[simp] theorem State.swapEndpoints_draws (s : State) (b : Subset) (m : Mask) : (s.swapEndpoints b m).draws = s.draws := rfl
@[simp] theorem State.swapEndpoints_pending (s : State) (b : Subset) (m : Mask) : (s.swapEndpoints b m).pending = s.pending := rfl
@[simp] theorem State.swapEndpoints_out (s : State) (b : Subset) (m : Mask) : (s.swapEndpoints b m).out = s.out := rfl

/-! ### `State.storeAtOADDR` -/

@[simp] theorem State.storeAtOADDR_px (s : State) (vs : List Byte) : (s.storeAtOADDR vs).px = s.px := rfl
@[simp] theorem State.storeAtOADDR_er (s : State) (vs : List Byte) : (s.storeAtOADDR vs).er = s.er := rfl
@[simp] theorem State.storeAtOADDR_eq (s : State) (vs : List Byte) : (s.storeAtOADDR vs).eq = s.eq := rfl
@[simp] theorem State.storeAtOADDR_ed (s : State) (vs : List Byte) : (s.storeAtOADDR vs).ed = s.ed := rfl
@[simp] theorem State.storeAtOADDR_eu (s : State) (vs : List Byte) : (s.storeAtOADDR vs).eu = s.eu := rfl
@[simp] theorem State.storeAtOADDR_pal (s : State) (vs : List Byte) : (s.storeAtOADDR vs).pal = s.pal := rfl
@[simp] theorem State.storeAtOADDR_ix (s : State) (vs : List Byte) : (s.storeAtOADDR vs).ix = s.ix := rfl
@[simp] theorem State.storeAtOADDR_ob (s : State) (vs : List Byte) : (s.storeAtOADDR vs).ob = s.ob := rfl
@[simp] theorem State.storeAtOADDR_bestOb (s : State) (vs : List Byte) : (s.storeAtOADDR vs).bestOb = s.bestOb := rfl
@[simp] theorem State.storeAtOADDR_err (s : State) (vs : List Byte) : (s.storeAtOADDR vs).err = s.err := rfl
@[simp] theorem State.storeAtOADDR_bestErr (s : State) (vs : List Byte) : (s.storeAtOADDR vs).bestErr = s.bestErr := rfl
@[simp] theorem State.storeAtOADDR_t (s : State) (vs : List Byte) : (s.storeAtOADDR vs).t = s.t := rfl
@[simp] theorem State.storeAtOADDR_cidx (s : State) (vs : List Byte) : (s.storeAtOADDR vs).cidx = s.cidx := rfl
@[simp] theorem State.storeAtOADDR_status (s : State) (vs : List Byte) : (s.storeAtOADDR vs).status = s.status := rfl
@[simp] theorem State.storeAtOADDR_cfg (s : State) (vs : List Byte) : (s.storeAtOADDR vs).cfg = s.cfg := rfl
@[simp] theorem State.storeAtOADDR_pm1 (s : State) (vs : List Byte) : (s.storeAtOADDR vs).pm1 = s.pm1 := rfl
@[simp] theorem State.storeAtOADDR_pm2 (s : State) (vs : List Byte) : (s.storeAtOADDR vs).pm2 = s.pm2 := rfl
@[simp] theorem State.storeAtOADDR_anch (s : State) (vs : List Byte) : (s.storeAtOADDR vs).anch = s.anch := rfl
@[simp] theorem State.storeAtOADDR_pbits (s : State) (vs : List Byte) : (s.storeAtOADDR vs).pbits = s.pbits := rfl
@[simp] theorem State.storeAtOADDR_oaddr (s : State) (vs : List Byte) : (s.storeAtOADDR vs).oaddr = s.oaddr := rfl
@[simp] theorem State.storeAtOADDR_fcode (s : State) (vs : List Byte) : (s.storeAtOADDR vs).fcode = s.fcode := rfl
@[simp] theorem State.storeAtOADDR_fcidx (s : State) (vs : List Byte) : (s.storeAtOADDR vs).fcidx = s.fcidx := rfl
@[simp] theorem State.storeAtOADDR_mem (s : State) (vs : List Byte) : (s.storeAtOADDR vs).mem = s.mem.writeBytes s.oaddr.toNat vs := rfl
@[simp] theorem State.storeAtOADDR_draws (s : State) (vs : List Byte) : (s.storeAtOADDR vs).draws = s.draws := rfl
@[simp] theorem State.storeAtOADDR_pending (s : State) (vs : List Byte) : (s.storeAtOADDR vs).pending = s.pending := rfl
@[simp] theorem State.storeAtOADDR_out (s : State) (vs : List Byte) : (s.storeAtOADDR vs).out = s.out ++ byteWrites s.oaddr.toNat vs := rfl

/-! ### `State.blockStart` -/

@[simp] theorem State.blockStart_px (s : State) : s.blockStart.px = s.px := rfl
@[simp] theorem State.blockStart_er (s : State) : s.blockStart.er = s.er := rfl
@[simp] theorem State.blockStart_eq (s : State) : s.blockStart.eq = s.eq := rfl
@[simp] theorem State.blockStart_ed (s : State) : s.blockStart.ed = s.ed := rfl
@[simp] theorem State.blockStart_eu (s : State) : s.blockStart.eu = s.eu := rfl
@[simp] theorem State.blockStart_pal (s : State) : s.blockStart.pal = s.pal := rfl
@[simp] theorem State.blockStart_ix (s : State) : s.blockStart.ix = IndexFile.zero := rfl
@[simp] theorem State.blockStart_ob (s : State) : s.blockStart.ob = 0 := rfl
@[simp] theorem State.blockStart_bestOb (s : State) : s.blockStart.bestOb = 0 := rfl
@[simp] theorem State.blockStart_err (s : State) : s.blockStart.err = 0 := rfl
@[simp] theorem State.blockStart_bestErr (s : State) : s.blockStart.bestErr = errInf := rfl
@[simp] theorem State.blockStart_t (s : State) : s.blockStart.t = s.t := rfl
@[simp] theorem State.blockStart_cidx (s : State) : s.blockStart.cidx = s.cidx := rfl
@[simp] theorem State.blockStart_status (s : State) : s.blockStart.status = s.status.blockStart := rfl
@[simp] theorem State.blockStart_cfg (s : State) : s.blockStart.cfg = s.cfg := rfl
@[simp] theorem State.blockStart_pm1 (s : State) : s.blockStart.pm1 = s.pm1 := rfl
@[simp] theorem State.blockStart_pm2 (s : State) : s.blockStart.pm2 = s.pm2 := rfl
@[simp] theorem State.blockStart_anch (s : State) : s.blockStart.anch = s.anch := rfl
@[simp] theorem State.blockStart_pbits (s : State) : s.blockStart.pbits = s.pbits := rfl
@[simp] theorem State.blockStart_oaddr (s : State) : s.blockStart.oaddr = s.oaddr := rfl
@[simp] theorem State.blockStart_fcode (s : State) : s.blockStart.fcode = s.fcode := rfl
@[simp] theorem State.blockStart_fcidx (s : State) : s.blockStart.fcidx = s.fcidx := rfl
@[simp] theorem State.blockStart_mem (s : State) : s.blockStart.mem = s.mem := rfl
@[simp] theorem State.blockStart_draws (s : State) : s.blockStart.draws = s.draws := rfl
@[simp] theorem State.blockStart_pending (s : State) : s.blockStart.pending = s.pending := rfl
@[simp] theorem State.blockStart_out (s : State) : s.blockStart.out = s.out := rfl

/-! ### `State.candidateStart` -/

@[simp] theorem State.candidateStart_px (s : State) : s.candidateStart.px = s.px := rfl
@[simp] theorem State.candidateStart_er (s : State) : s.candidateStart.er = s.er := rfl
@[simp] theorem State.candidateStart_eq (s : State) : s.candidateStart.eq = s.eq := rfl
@[simp] theorem State.candidateStart_ed (s : State) : s.candidateStart.ed = s.ed := rfl
@[simp] theorem State.candidateStart_eu (s : State) : s.candidateStart.eu = s.eu := rfl
@[simp] theorem State.candidateStart_pal (s : State) : s.candidateStart.pal = s.pal := rfl
@[simp] theorem State.candidateStart_ix (s : State) : s.candidateStart.ix = IndexFile.zero := rfl
@[simp] theorem State.candidateStart_ob (s : State) : s.candidateStart.ob = 0 := rfl
@[simp] theorem State.candidateStart_bestOb (s : State) : s.candidateStart.bestOb = s.bestOb := rfl
@[simp] theorem State.candidateStart_err (s : State) : s.candidateStart.err = 0 := rfl
@[simp] theorem State.candidateStart_bestErr (s : State) : s.candidateStart.bestErr = s.bestErr := rfl
@[simp] theorem State.candidateStart_t (s : State) : s.candidateStart.t = s.t := rfl
@[simp] theorem State.candidateStart_cidx (s : State) : s.candidateStart.cidx = s.cidx := rfl
@[simp] theorem State.candidateStart_status (s : State) : s.candidateStart.status = s.status.candidateStart := rfl
@[simp] theorem State.candidateStart_cfg (s : State) : s.candidateStart.cfg = s.cfg := rfl
@[simp] theorem State.candidateStart_pm1 (s : State) : s.candidateStart.pm1 = s.pm1 := rfl
@[simp] theorem State.candidateStart_pm2 (s : State) : s.candidateStart.pm2 = s.pm2 := rfl
@[simp] theorem State.candidateStart_anch (s : State) : s.candidateStart.anch = s.anch := rfl
@[simp] theorem State.candidateStart_pbits (s : State) : s.candidateStart.pbits = s.pbits := rfl
@[simp] theorem State.candidateStart_oaddr (s : State) : s.candidateStart.oaddr = s.oaddr := rfl
@[simp] theorem State.candidateStart_fcode (s : State) : s.candidateStart.fcode = s.fcode := rfl
@[simp] theorem State.candidateStart_fcidx (s : State) : s.candidateStart.fcidx = s.fcidx := rfl
@[simp] theorem State.candidateStart_mem (s : State) : s.candidateStart.mem = s.mem := rfl
@[simp] theorem State.candidateStart_draws (s : State) : s.candidateStart.draws = s.draws := rfl
@[simp] theorem State.candidateStart_pending (s : State) : s.candidateStart.pending = s.pending := rfl
@[simp] theorem State.candidateStart_out (s : State) : s.candidateStart.out = s.out := rfl

/-! ### `State.quantize` -/

@[simp] theorem State.quantize_px (s : State) (b : Subset) (e : EndNo) (m : Mask) (f : Half → Nat) : (s.quantize b e m f).px = s.px := rfl
@[simp] theorem State.quantize_er (s : State) (b : Subset) (e : EndNo) (m : Mask) (f : Half → Nat) : (s.quantize b e m f).er = s.er := rfl
@[simp] theorem State.quantize_eq (s : State) (b : Subset) (e : EndNo) (m : Mask) (f : Half → Nat) : (s.quantize b e m f).eq = s.eq.write b e m fun c => .ofNat (f (s.readER b e c)) := rfl
@[simp] theorem State.quantize_ed (s : State) (b : Subset) (e : EndNo) (m : Mask) (f : Half → Nat) : (s.quantize b e m f).ed = s.ed := rfl
@[simp] theorem State.quantize_eu (s : State) (b : Subset) (e : EndNo) (m : Mask) (f : Half → Nat) : (s.quantize b e m f).eu = s.eu := rfl
@[simp] theorem State.quantize_pal (s : State) (b : Subset) (e : EndNo) (m : Mask) (f : Half → Nat) : (s.quantize b e m f).pal = s.pal := rfl
@[simp] theorem State.quantize_ix (s : State) (b : Subset) (e : EndNo) (m : Mask) (f : Half → Nat) : (s.quantize b e m f).ix = s.ix := rfl
@[simp] theorem State.quantize_ob (s : State) (b : Subset) (e : EndNo) (m : Mask) (f : Half → Nat) : (s.quantize b e m f).ob = s.ob := rfl
@[simp] theorem State.quantize_bestOb (s : State) (b : Subset) (e : EndNo) (m : Mask) (f : Half → Nat) : (s.quantize b e m f).bestOb = s.bestOb := rfl
@[simp] theorem State.quantize_err (s : State) (b : Subset) (e : EndNo) (m : Mask) (f : Half → Nat) : (s.quantize b e m f).err = s.err := rfl
@[simp] theorem State.quantize_bestErr (s : State) (b : Subset) (e : EndNo) (m : Mask) (f : Half → Nat) : (s.quantize b e m f).bestErr = s.bestErr := rfl
@[simp] theorem State.quantize_t (s : State) (b : Subset) (e : EndNo) (m : Mask) (f : Half → Nat) : (s.quantize b e m f).t = s.t := rfl
@[simp] theorem State.quantize_cidx (s : State) (b : Subset) (e : EndNo) (m : Mask) (f : Half → Nat) : (s.quantize b e m f).cidx = s.cidx := rfl
@[simp] theorem State.quantize_status (s : State) (b : Subset) (e : EndNo) (m : Mask) (f : Half → Nat) : (s.quantize b e m f).status = s.status := rfl
@[simp] theorem State.quantize_cfg (s : State) (b : Subset) (e : EndNo) (m : Mask) (f : Half → Nat) : (s.quantize b e m f).cfg = s.cfg := rfl
@[simp] theorem State.quantize_pm1 (s : State) (b : Subset) (e : EndNo) (m : Mask) (f : Half → Nat) : (s.quantize b e m f).pm1 = s.pm1 := rfl
@[simp] theorem State.quantize_pm2 (s : State) (b : Subset) (e : EndNo) (m : Mask) (f : Half → Nat) : (s.quantize b e m f).pm2 = s.pm2 := rfl
@[simp] theorem State.quantize_anch (s : State) (b : Subset) (e : EndNo) (m : Mask) (f : Half → Nat) : (s.quantize b e m f).anch = s.anch := rfl
@[simp] theorem State.quantize_pbits (s : State) (b : Subset) (e : EndNo) (m : Mask) (f : Half → Nat) : (s.quantize b e m f).pbits = s.pbits := rfl
@[simp] theorem State.quantize_oaddr (s : State) (b : Subset) (e : EndNo) (m : Mask) (f : Half → Nat) : (s.quantize b e m f).oaddr = s.oaddr := rfl
@[simp] theorem State.quantize_fcode (s : State) (b : Subset) (e : EndNo) (m : Mask) (f : Half → Nat) : (s.quantize b e m f).fcode = s.fcode := rfl
@[simp] theorem State.quantize_fcidx (s : State) (b : Subset) (e : EndNo) (m : Mask) (f : Half → Nat) : (s.quantize b e m f).fcidx = s.fcidx := rfl
@[simp] theorem State.quantize_mem (s : State) (b : Subset) (e : EndNo) (m : Mask) (f : Half → Nat) : (s.quantize b e m f).mem = s.mem := rfl
@[simp] theorem State.quantize_draws (s : State) (b : Subset) (e : EndNo) (m : Mask) (f : Half → Nat) : (s.quantize b e m f).draws = s.draws := rfl
@[simp] theorem State.quantize_pending (s : State) (b : Subset) (e : EndNo) (m : Mask) (f : Half → Nat) : (s.quantize b e m f).pending = s.pending := rfl
@[simp] theorem State.quantize_out (s : State) (b : Subset) (e : EndNo) (m : Mask) (f : Half → Nat) : (s.quantize b e m f).out = s.out := rfl

/-! ### `State.unquantize` -/

@[simp] theorem State.unquantize_px (s : State) (b : Subset) (e : EndNo) (m : Mask) (f : Half → Nat) : (s.unquantize b e m f).px = s.px := rfl
@[simp] theorem State.unquantize_er (s : State) (b : Subset) (e : EndNo) (m : Mask) (f : Half → Nat) : (s.unquantize b e m f).er = s.er := rfl
@[simp] theorem State.unquantize_eq (s : State) (b : Subset) (e : EndNo) (m : Mask) (f : Half → Nat) : (s.unquantize b e m f).eq = s.eq := rfl
@[simp] theorem State.unquantize_ed (s : State) (b : Subset) (e : EndNo) (m : Mask) (f : Half → Nat) : (s.unquantize b e m f).ed = s.ed := rfl
@[simp] theorem State.unquantize_eu (s : State) (b : Subset) (e : EndNo) (m : Mask) (f : Half → Nat) : (s.unquantize b e m f).eu = s.eu.write b e m fun c => .ofNat (f (s.readEQ b e c)) := rfl
@[simp] theorem State.unquantize_pal (s : State) (b : Subset) (e : EndNo) (m : Mask) (f : Half → Nat) : (s.unquantize b e m f).pal = s.pal := rfl
@[simp] theorem State.unquantize_ix (s : State) (b : Subset) (e : EndNo) (m : Mask) (f : Half → Nat) : (s.unquantize b e m f).ix = s.ix := rfl
@[simp] theorem State.unquantize_ob (s : State) (b : Subset) (e : EndNo) (m : Mask) (f : Half → Nat) : (s.unquantize b e m f).ob = s.ob := rfl
@[simp] theorem State.unquantize_bestOb (s : State) (b : Subset) (e : EndNo) (m : Mask) (f : Half → Nat) : (s.unquantize b e m f).bestOb = s.bestOb := rfl
@[simp] theorem State.unquantize_err (s : State) (b : Subset) (e : EndNo) (m : Mask) (f : Half → Nat) : (s.unquantize b e m f).err = s.err := rfl
@[simp] theorem State.unquantize_bestErr (s : State) (b : Subset) (e : EndNo) (m : Mask) (f : Half → Nat) : (s.unquantize b e m f).bestErr = s.bestErr := rfl
@[simp] theorem State.unquantize_t (s : State) (b : Subset) (e : EndNo) (m : Mask) (f : Half → Nat) : (s.unquantize b e m f).t = s.t := rfl
@[simp] theorem State.unquantize_cidx (s : State) (b : Subset) (e : EndNo) (m : Mask) (f : Half → Nat) : (s.unquantize b e m f).cidx = s.cidx := rfl
@[simp] theorem State.unquantize_status (s : State) (b : Subset) (e : EndNo) (m : Mask) (f : Half → Nat) : (s.unquantize b e m f).status = s.status := rfl
@[simp] theorem State.unquantize_cfg (s : State) (b : Subset) (e : EndNo) (m : Mask) (f : Half → Nat) : (s.unquantize b e m f).cfg = s.cfg := rfl
@[simp] theorem State.unquantize_pm1 (s : State) (b : Subset) (e : EndNo) (m : Mask) (f : Half → Nat) : (s.unquantize b e m f).pm1 = s.pm1 := rfl
@[simp] theorem State.unquantize_pm2 (s : State) (b : Subset) (e : EndNo) (m : Mask) (f : Half → Nat) : (s.unquantize b e m f).pm2 = s.pm2 := rfl
@[simp] theorem State.unquantize_anch (s : State) (b : Subset) (e : EndNo) (m : Mask) (f : Half → Nat) : (s.unquantize b e m f).anch = s.anch := rfl
@[simp] theorem State.unquantize_pbits (s : State) (b : Subset) (e : EndNo) (m : Mask) (f : Half → Nat) : (s.unquantize b e m f).pbits = s.pbits := rfl
@[simp] theorem State.unquantize_oaddr (s : State) (b : Subset) (e : EndNo) (m : Mask) (f : Half → Nat) : (s.unquantize b e m f).oaddr = s.oaddr := rfl
@[simp] theorem State.unquantize_fcode (s : State) (b : Subset) (e : EndNo) (m : Mask) (f : Half → Nat) : (s.unquantize b e m f).fcode = s.fcode := rfl
@[simp] theorem State.unquantize_fcidx (s : State) (b : Subset) (e : EndNo) (m : Mask) (f : Half → Nat) : (s.unquantize b e m f).fcidx = s.fcidx := rfl
@[simp] theorem State.unquantize_mem (s : State) (b : Subset) (e : EndNo) (m : Mask) (f : Half → Nat) : (s.unquantize b e m f).mem = s.mem := rfl
@[simp] theorem State.unquantize_draws (s : State) (b : Subset) (e : EndNo) (m : Mask) (f : Half → Nat) : (s.unquantize b e m f).draws = s.draws := rfl
@[simp] theorem State.unquantize_pending (s : State) (b : Subset) (e : EndNo) (m : Mask) (f : Half → Nat) : (s.unquantize b e m f).pending = s.pending := rfl
@[simp] theorem State.unquantize_out (s : State) (b : Subset) (e : EndNo) (m : Mask) (f : Half → Nat) : (s.unquantize b e m f).out = s.out := rfl

/-! ### `State.buildPalette` -/

@[simp] theorem State.buildPalette_px (s : State) (b : Subset) (m : Mask) (n : Nat) (f : Nat → Nat → Entry → Nat) : (s.buildPalette b m n f).px = s.px := rfl
@[simp] theorem State.buildPalette_er (s : State) (b : Subset) (m : Mask) (n : Nat) (f : Nat → Nat → Entry → Nat) : (s.buildPalette b m n f).er = s.er := rfl
@[simp] theorem State.buildPalette_eq (s : State) (b : Subset) (m : Mask) (n : Nat) (f : Nat → Nat → Entry → Nat) : (s.buildPalette b m n f).eq = s.eq := rfl
@[simp] theorem State.buildPalette_ed (s : State) (b : Subset) (m : Mask) (n : Nat) (f : Nat → Nat → Entry → Nat) : (s.buildPalette b m n f).ed = s.ed := rfl
@[simp] theorem State.buildPalette_eu (s : State) (b : Subset) (m : Mask) (n : Nat) (f : Nat → Nat → Entry → Nat) : (s.buildPalette b m n f).eu = s.eu := rfl
@[simp] theorem State.buildPalette_pal (s : State) (b : Subset) (m : Mask) (n : Nat) (f : Nat → Nat → Entry → Nat) : (s.buildPalette b m n f).pal = s.pal.write b m n fun k c => .ofNat (f (s.readEU b 0 c).toNat (s.readEU b 1 c).toNat k) := rfl
@[simp] theorem State.buildPalette_ix (s : State) (b : Subset) (m : Mask) (n : Nat) (f : Nat → Nat → Entry → Nat) : (s.buildPalette b m n f).ix = s.ix := rfl
@[simp] theorem State.buildPalette_ob (s : State) (b : Subset) (m : Mask) (n : Nat) (f : Nat → Nat → Entry → Nat) : (s.buildPalette b m n f).ob = s.ob := rfl
@[simp] theorem State.buildPalette_bestOb (s : State) (b : Subset) (m : Mask) (n : Nat) (f : Nat → Nat → Entry → Nat) : (s.buildPalette b m n f).bestOb = s.bestOb := rfl
@[simp] theorem State.buildPalette_err (s : State) (b : Subset) (m : Mask) (n : Nat) (f : Nat → Nat → Entry → Nat) : (s.buildPalette b m n f).err = s.err := rfl
@[simp] theorem State.buildPalette_bestErr (s : State) (b : Subset) (m : Mask) (n : Nat) (f : Nat → Nat → Entry → Nat) : (s.buildPalette b m n f).bestErr = s.bestErr := rfl
@[simp] theorem State.buildPalette_t (s : State) (b : Subset) (m : Mask) (n : Nat) (f : Nat → Nat → Entry → Nat) : (s.buildPalette b m n f).t = s.t := rfl
@[simp] theorem State.buildPalette_cidx (s : State) (b : Subset) (m : Mask) (n : Nat) (f : Nat → Nat → Entry → Nat) : (s.buildPalette b m n f).cidx = s.cidx := rfl
@[simp] theorem State.buildPalette_status (s : State) (b : Subset) (m : Mask) (n : Nat) (f : Nat → Nat → Entry → Nat) : (s.buildPalette b m n f).status = s.status := rfl
@[simp] theorem State.buildPalette_cfg (s : State) (b : Subset) (m : Mask) (n : Nat) (f : Nat → Nat → Entry → Nat) : (s.buildPalette b m n f).cfg = s.cfg := rfl
@[simp] theorem State.buildPalette_pm1 (s : State) (b : Subset) (m : Mask) (n : Nat) (f : Nat → Nat → Entry → Nat) : (s.buildPalette b m n f).pm1 = s.pm1 := rfl
@[simp] theorem State.buildPalette_pm2 (s : State) (b : Subset) (m : Mask) (n : Nat) (f : Nat → Nat → Entry → Nat) : (s.buildPalette b m n f).pm2 = s.pm2 := rfl
@[simp] theorem State.buildPalette_anch (s : State) (b : Subset) (m : Mask) (n : Nat) (f : Nat → Nat → Entry → Nat) : (s.buildPalette b m n f).anch = s.anch := rfl
@[simp] theorem State.buildPalette_pbits (s : State) (b : Subset) (m : Mask) (n : Nat) (f : Nat → Nat → Entry → Nat) : (s.buildPalette b m n f).pbits = s.pbits := rfl
@[simp] theorem State.buildPalette_oaddr (s : State) (b : Subset) (m : Mask) (n : Nat) (f : Nat → Nat → Entry → Nat) : (s.buildPalette b m n f).oaddr = s.oaddr := rfl
@[simp] theorem State.buildPalette_fcode (s : State) (b : Subset) (m : Mask) (n : Nat) (f : Nat → Nat → Entry → Nat) : (s.buildPalette b m n f).fcode = s.fcode := rfl
@[simp] theorem State.buildPalette_fcidx (s : State) (b : Subset) (m : Mask) (n : Nat) (f : Nat → Nat → Entry → Nat) : (s.buildPalette b m n f).fcidx = s.fcidx := rfl
@[simp] theorem State.buildPalette_mem (s : State) (b : Subset) (m : Mask) (n : Nat) (f : Nat → Nat → Entry → Nat) : (s.buildPalette b m n f).mem = s.mem := rfl
@[simp] theorem State.buildPalette_draws (s : State) (b : Subset) (m : Mask) (n : Nat) (f : Nat → Nat → Entry → Nat) : (s.buildPalette b m n f).draws = s.draws := rfl
@[simp] theorem State.buildPalette_pending (s : State) (b : Subset) (m : Mask) (n : Nat) (f : Nat → Nat → Entry → Nat) : (s.buildPalette b m n f).pending = s.pending := rfl
@[simp] theorem State.buildPalette_out (s : State) (b : Subset) (m : Mask) (n : Nat) (f : Nat → Nat → Entry → Nat) : (s.buildPalette b m n f).out = s.out := rfl

/-! ### `State.assignIndices` -/

@[simp] theorem State.assignIndices_px (s : State) (t : Stream) (b : Subset) (m : Mask) (g : Pixel → Nat) : (s.assignIndices t b m g).px = s.px := rfl
@[simp] theorem State.assignIndices_er (s : State) (t : Stream) (b : Subset) (m : Mask) (g : Pixel → Nat) : (s.assignIndices t b m g).er = s.er := rfl
@[simp] theorem State.assignIndices_eq (s : State) (t : Stream) (b : Subset) (m : Mask) (g : Pixel → Nat) : (s.assignIndices t b m g).eq = s.eq := rfl
@[simp] theorem State.assignIndices_ed (s : State) (t : Stream) (b : Subset) (m : Mask) (g : Pixel → Nat) : (s.assignIndices t b m g).ed = s.ed := rfl
@[simp] theorem State.assignIndices_eu (s : State) (t : Stream) (b : Subset) (m : Mask) (g : Pixel → Nat) : (s.assignIndices t b m g).eu = s.eu := rfl
@[simp] theorem State.assignIndices_pal (s : State) (t : Stream) (b : Subset) (m : Mask) (g : Pixel → Nat) : (s.assignIndices t b m g).pal = s.pal := rfl
@[simp] theorem State.assignIndices_ix (s : State) (t : Stream) (b : Subset) (m : Mask) (g : Pixel → Nat) : (s.assignIndices t b m g).ix = s.ix.write t (fun p => s.subsetAt p = b) fun p => BitVec.ofNat 4 (g p) := rfl
@[simp] theorem State.assignIndices_ob (s : State) (t : Stream) (b : Subset) (m : Mask) (g : Pixel → Nat) : (s.assignIndices t b m g).ob = s.ob := rfl
@[simp] theorem State.assignIndices_bestOb (s : State) (t : Stream) (b : Subset) (m : Mask) (g : Pixel → Nat) : (s.assignIndices t b m g).bestOb = s.bestOb := rfl
@[simp] theorem State.assignIndices_err (s : State) (t : Stream) (b : Subset) (m : Mask) (g : Pixel → Nat) : (s.assignIndices t b m g).err = sat64 (s.err.toNat + ((s.pixelsOf b).map fun p => s.dist b m p (entryOf (g p))).sum) := rfl
@[simp] theorem State.assignIndices_bestErr (s : State) (t : Stream) (b : Subset) (m : Mask) (g : Pixel → Nat) : (s.assignIndices t b m g).bestErr = s.bestErr := rfl
@[simp] theorem State.assignIndices_t (s : State) (t : Stream) (b : Subset) (m : Mask) (g : Pixel → Nat) : (s.assignIndices t b m g).t = s.t := rfl
@[simp] theorem State.assignIndices_cidx (s : State) (t : Stream) (b : Subset) (m : Mask) (g : Pixel → Nat) : (s.assignIndices t b m g).cidx = s.cidx := rfl
@[simp] theorem State.assignIndices_status (s : State) (t : Stream) (b : Subset) (m : Mask) (g : Pixel → Nat) : (s.assignIndices t b m g).status = s.status := rfl
@[simp] theorem State.assignIndices_cfg (s : State) (t : Stream) (b : Subset) (m : Mask) (g : Pixel → Nat) : (s.assignIndices t b m g).cfg = s.cfg := rfl
@[simp] theorem State.assignIndices_pm1 (s : State) (t : Stream) (b : Subset) (m : Mask) (g : Pixel → Nat) : (s.assignIndices t b m g).pm1 = s.pm1 := rfl
@[simp] theorem State.assignIndices_pm2 (s : State) (t : Stream) (b : Subset) (m : Mask) (g : Pixel → Nat) : (s.assignIndices t b m g).pm2 = s.pm2 := rfl
@[simp] theorem State.assignIndices_anch (s : State) (t : Stream) (b : Subset) (m : Mask) (g : Pixel → Nat) : (s.assignIndices t b m g).anch = s.anch := rfl
@[simp] theorem State.assignIndices_pbits (s : State) (t : Stream) (b : Subset) (m : Mask) (g : Pixel → Nat) : (s.assignIndices t b m g).pbits = s.pbits := rfl
@[simp] theorem State.assignIndices_oaddr (s : State) (t : Stream) (b : Subset) (m : Mask) (g : Pixel → Nat) : (s.assignIndices t b m g).oaddr = s.oaddr := rfl
@[simp] theorem State.assignIndices_fcode (s : State) (t : Stream) (b : Subset) (m : Mask) (g : Pixel → Nat) : (s.assignIndices t b m g).fcode = s.fcode := rfl
@[simp] theorem State.assignIndices_fcidx (s : State) (t : Stream) (b : Subset) (m : Mask) (g : Pixel → Nat) : (s.assignIndices t b m g).fcidx = s.fcidx := rfl
@[simp] theorem State.assignIndices_mem (s : State) (t : Stream) (b : Subset) (m : Mask) (g : Pixel → Nat) : (s.assignIndices t b m g).mem = s.mem := rfl
@[simp] theorem State.assignIndices_draws (s : State) (t : Stream) (b : Subset) (m : Mask) (g : Pixel → Nat) : (s.assignIndices t b m g).draws = s.draws := rfl
@[simp] theorem State.assignIndices_pending (s : State) (t : Stream) (b : Subset) (m : Mask) (g : Pixel → Nat) : (s.assignIndices t b m g).pending = s.pending := rfl
@[simp] theorem State.assignIndices_out (s : State) (t : Stream) (b : Subset) (m : Mask) (g : Pixel → Nat) : (s.assignIndices t b m g).out = s.out := rfl

/-! ### `State.pack` -/

@[simp] theorem State.pack_px (s : State) (off w : Nat) (v : Half) : (s.pack off w v).px = s.px := rfl
@[simp] theorem State.pack_er (s : State) (off w : Nat) (v : Half) : (s.pack off w v).er = s.er := rfl
@[simp] theorem State.pack_eq (s : State) (off w : Nat) (v : Half) : (s.pack off w v).eq = s.eq := rfl
@[simp] theorem State.pack_ed (s : State) (off w : Nat) (v : Half) : (s.pack off w v).ed = s.ed := rfl
@[simp] theorem State.pack_eu (s : State) (off w : Nat) (v : Half) : (s.pack off w v).eu = s.eu := rfl
@[simp] theorem State.pack_pal (s : State) (off w : Nat) (v : Half) : (s.pack off w v).pal = s.pal := rfl
@[simp] theorem State.pack_ix (s : State) (off w : Nat) (v : Half) : (s.pack off w v).ix = s.ix := rfl
@[simp] theorem State.pack_ob (s : State) (off w : Nat) (v : Half) : (s.pack off w v).ob = packBits s.ob off w v := rfl
@[simp] theorem State.pack_bestOb (s : State) (off w : Nat) (v : Half) : (s.pack off w v).bestOb = s.bestOb := rfl
@[simp] theorem State.pack_err (s : State) (off w : Nat) (v : Half) : (s.pack off w v).err = s.err := rfl
@[simp] theorem State.pack_bestErr (s : State) (off w : Nat) (v : Half) : (s.pack off w v).bestErr = s.bestErr := rfl
@[simp] theorem State.pack_t (s : State) (off w : Nat) (v : Half) : (s.pack off w v).t = s.t := rfl
@[simp] theorem State.pack_cidx (s : State) (off w : Nat) (v : Half) : (s.pack off w v).cidx = s.cidx := rfl
@[simp] theorem State.pack_status (s : State) (off w : Nat) (v : Half) : (s.pack off w v).status = { s.status with trunc := s.status.trunc || truncates v w } := rfl
@[simp] theorem State.pack_cfg (s : State) (off w : Nat) (v : Half) : (s.pack off w v).cfg = s.cfg := rfl
@[simp] theorem State.pack_pm1 (s : State) (off w : Nat) (v : Half) : (s.pack off w v).pm1 = s.pm1 := rfl
@[simp] theorem State.pack_pm2 (s : State) (off w : Nat) (v : Half) : (s.pack off w v).pm2 = s.pm2 := rfl
@[simp] theorem State.pack_anch (s : State) (off w : Nat) (v : Half) : (s.pack off w v).anch = s.anch := rfl
@[simp] theorem State.pack_pbits (s : State) (off w : Nat) (v : Half) : (s.pack off w v).pbits = s.pbits := rfl
@[simp] theorem State.pack_oaddr (s : State) (off w : Nat) (v : Half) : (s.pack off w v).oaddr = s.oaddr := rfl
@[simp] theorem State.pack_fcode (s : State) (off w : Nat) (v : Half) : (s.pack off w v).fcode = s.fcode := rfl
@[simp] theorem State.pack_fcidx (s : State) (off w : Nat) (v : Half) : (s.pack off w v).fcidx = s.fcidx := rfl
@[simp] theorem State.pack_mem (s : State) (off w : Nat) (v : Half) : (s.pack off w v).mem = s.mem := rfl
@[simp] theorem State.pack_draws (s : State) (off w : Nat) (v : Half) : (s.pack off w v).draws = s.draws := rfl
@[simp] theorem State.pack_pending (s : State) (off w : Nat) (v : Half) : (s.pack off w v).pending = s.pending := rfl
@[simp] theorem State.pack_out (s : State) (off w : Nat) (v : Half) : (s.pack off w v).out = s.out := rfl

/-! ### `State.assertReset` -/

@[simp] theorem State.assertReset_px (s : State) : s.assertReset.px = State.reset.px := rfl
@[simp] theorem State.assertReset_er (s : State) : s.assertReset.er = State.reset.er := rfl
@[simp] theorem State.assertReset_eq (s : State) : s.assertReset.eq = State.reset.eq := rfl
@[simp] theorem State.assertReset_ed (s : State) : s.assertReset.ed = State.reset.ed := rfl
@[simp] theorem State.assertReset_eu (s : State) : s.assertReset.eu = State.reset.eu := rfl
@[simp] theorem State.assertReset_pal (s : State) : s.assertReset.pal = State.reset.pal := rfl
@[simp] theorem State.assertReset_ix (s : State) : s.assertReset.ix = State.reset.ix := rfl
@[simp] theorem State.assertReset_ob (s : State) : s.assertReset.ob = State.reset.ob := rfl
@[simp] theorem State.assertReset_bestOb (s : State) : s.assertReset.bestOb = State.reset.bestOb := rfl
@[simp] theorem State.assertReset_err (s : State) : s.assertReset.err = State.reset.err := rfl
@[simp] theorem State.assertReset_bestErr (s : State) : s.assertReset.bestErr = State.reset.bestErr := rfl
@[simp] theorem State.assertReset_t (s : State) : s.assertReset.t = State.reset.t := rfl
@[simp] theorem State.assertReset_cidx (s : State) : s.assertReset.cidx = State.reset.cidx := rfl
@[simp] theorem State.assertReset_status (s : State) : s.assertReset.status = State.reset.status := rfl
@[simp] theorem State.assertReset_cfg (s : State) : s.assertReset.cfg = State.reset.cfg := rfl
@[simp] theorem State.assertReset_pm1 (s : State) : s.assertReset.pm1 = State.reset.pm1 := rfl
@[simp] theorem State.assertReset_pm2 (s : State) : s.assertReset.pm2 = State.reset.pm2 := rfl
@[simp] theorem State.assertReset_anch (s : State) : s.assertReset.anch = State.reset.anch := rfl
@[simp] theorem State.assertReset_pbits (s : State) : s.assertReset.pbits = State.reset.pbits := rfl
@[simp] theorem State.assertReset_oaddr (s : State) : s.assertReset.oaddr = State.reset.oaddr := rfl
@[simp] theorem State.assertReset_fcode (s : State) : s.assertReset.fcode = State.reset.fcode := rfl
@[simp] theorem State.assertReset_fcidx (s : State) : s.assertReset.fcidx = State.reset.fcidx := rfl
@[simp] theorem State.assertReset_mem (s : State) : s.assertReset.mem = s.mem := rfl
@[simp] theorem State.assertReset_draws (s : State) : s.assertReset.draws = s.draws + 1 := rfl
@[simp] theorem State.assertReset_pending (s : State) : s.assertReset.pending = s.pending := rfl
@[simp] theorem State.assertReset_out (s : State) : s.assertReset.out = s.out := rfl

/-! ### `State.present` -/

@[simp] theorem State.present_px (s : State) (w : Word) : (s.present w).px = s.px := rfl
@[simp] theorem State.present_er (s : State) (w : Word) : (s.present w).er = s.er := rfl
@[simp] theorem State.present_eq (s : State) (w : Word) : (s.present w).eq = s.eq := rfl
@[simp] theorem State.present_ed (s : State) (w : Word) : (s.present w).ed = s.ed := rfl
@[simp] theorem State.present_eu (s : State) (w : Word) : (s.present w).eu = s.eu := rfl
@[simp] theorem State.present_pal (s : State) (w : Word) : (s.present w).pal = s.pal := rfl
@[simp] theorem State.present_ix (s : State) (w : Word) : (s.present w).ix = s.ix := rfl
@[simp] theorem State.present_ob (s : State) (w : Word) : (s.present w).ob = s.ob := rfl
@[simp] theorem State.present_bestOb (s : State) (w : Word) : (s.present w).bestOb = s.bestOb := rfl
@[simp] theorem State.present_err (s : State) (w : Word) : (s.present w).err = s.err := rfl
@[simp] theorem State.present_bestErr (s : State) (w : Word) : (s.present w).bestErr = s.bestErr := rfl
@[simp] theorem State.present_t (s : State) (w : Word) : (s.present w).t = s.t := rfl
@[simp] theorem State.present_cidx (s : State) (w : Word) : (s.present w).cidx = s.cidx := rfl
@[simp] theorem State.present_status (s : State) (w : Word) : (s.present w).status = s.status := rfl
@[simp] theorem State.present_cfg (s : State) (w : Word) : (s.present w).cfg = s.cfg := rfl
@[simp] theorem State.present_pm1 (s : State) (w : Word) : (s.present w).pm1 = s.pm1 := rfl
@[simp] theorem State.present_pm2 (s : State) (w : Word) : (s.present w).pm2 = s.pm2 := rfl
@[simp] theorem State.present_anch (s : State) (w : Word) : (s.present w).anch = s.anch := rfl
@[simp] theorem State.present_pbits (s : State) (w : Word) : (s.present w).pbits = s.pbits := rfl
@[simp] theorem State.present_oaddr (s : State) (w : Word) : (s.present w).oaddr = s.oaddr := rfl
@[simp] theorem State.present_fcode (s : State) (w : Word) : (s.present w).fcode = s.fcode := rfl
@[simp] theorem State.present_fcidx (s : State) (w : Word) : (s.present w).fcidx = s.fcidx := rfl
@[simp] theorem State.present_mem (s : State) (w : Word) : (s.present w).mem = s.mem := rfl
@[simp] theorem State.present_draws (s : State) (w : Word) : (s.present w).draws = s.draws := rfl
@[simp] theorem State.present_pending (s : State) (w : Word) : (s.present w).pending = .command w :: s.pending := rfl
@[simp] theorem State.present_out (s : State) (w : Word) : (s.present w).out = s.out := rfl

/-! ### `State.faultRecord` -/

@[simp] theorem State.faultRecord_px (s : State) (code : BitVec 8) : (s.faultRecord code).px = s.px := rfl
@[simp] theorem State.faultRecord_er (s : State) (code : BitVec 8) : (s.faultRecord code).er = s.er := rfl
@[simp] theorem State.faultRecord_eq (s : State) (code : BitVec 8) : (s.faultRecord code).eq = s.eq := rfl
@[simp] theorem State.faultRecord_ed (s : State) (code : BitVec 8) : (s.faultRecord code).ed = s.ed := rfl
@[simp] theorem State.faultRecord_eu (s : State) (code : BitVec 8) : (s.faultRecord code).eu = s.eu := rfl
@[simp] theorem State.faultRecord_pal (s : State) (code : BitVec 8) : (s.faultRecord code).pal = s.pal := rfl
@[simp] theorem State.faultRecord_ix (s : State) (code : BitVec 8) : (s.faultRecord code).ix = s.ix := rfl
@[simp] theorem State.faultRecord_ob (s : State) (code : BitVec 8) : (s.faultRecord code).ob = s.ob := rfl
@[simp] theorem State.faultRecord_bestOb (s : State) (code : BitVec 8) : (s.faultRecord code).bestOb = s.bestOb := rfl
@[simp] theorem State.faultRecord_err (s : State) (code : BitVec 8) : (s.faultRecord code).err = s.err := rfl
@[simp] theorem State.faultRecord_bestErr (s : State) (code : BitVec 8) : (s.faultRecord code).bestErr = s.bestErr := rfl
@[simp] theorem State.faultRecord_t (s : State) (code : BitVec 8) : (s.faultRecord code).t = s.t := rfl
@[simp] theorem State.faultRecord_cidx (s : State) (code : BitVec 8) : (s.faultRecord code).cidx = s.cidx := rfl
@[simp] theorem State.faultRecord_status (s : State) (code : BitVec 8) : (s.faultRecord code).status = { s.status with fault := true } := rfl
@[simp] theorem State.faultRecord_cfg (s : State) (code : BitVec 8) : (s.faultRecord code).cfg = s.cfg := rfl
@[simp] theorem State.faultRecord_pm1 (s : State) (code : BitVec 8) : (s.faultRecord code).pm1 = s.pm1 := rfl
@[simp] theorem State.faultRecord_pm2 (s : State) (code : BitVec 8) : (s.faultRecord code).pm2 = s.pm2 := rfl
@[simp] theorem State.faultRecord_anch (s : State) (code : BitVec 8) : (s.faultRecord code).anch = s.anch := rfl
@[simp] theorem State.faultRecord_pbits (s : State) (code : BitVec 8) : (s.faultRecord code).pbits = s.pbits := rfl
@[simp] theorem State.faultRecord_oaddr (s : State) (code : BitVec 8) : (s.faultRecord code).oaddr = s.oaddr := rfl
@[simp] theorem State.faultRecord_fcode (s : State) (code : BitVec 8) : (s.faultRecord code).fcode = code := rfl
@[simp] theorem State.faultRecord_fcidx (s : State) (code : BitVec 8) : (s.faultRecord code).fcidx = s.cidx := rfl
@[simp] theorem State.faultRecord_mem (s : State) (code : BitVec 8) : (s.faultRecord code).mem = s.mem := rfl
@[simp] theorem State.faultRecord_draws (s : State) (code : BitVec 8) : (s.faultRecord code).draws = s.draws := rfl
@[simp] theorem State.faultRecord_pending (s : State) (code : BitVec 8) : (s.faultRecord code).pending = s.pending := rfl
@[simp] theorem State.faultRecord_out (s : State) (code : BitVec 8) : (s.faultRecord code).out = s.out := rfl

/-! ### `State.raise` -/

@[simp] theorem State.raise_px (s : State) (f : FaultCause) : (s.raise f).px = s.px := by unfold State.raise; split <;> rfl
@[simp] theorem State.raise_er (s : State) (f : FaultCause) : (s.raise f).er = s.er := by unfold State.raise; split <;> rfl
@[simp] theorem State.raise_eq (s : State) (f : FaultCause) : (s.raise f).eq = s.eq := by unfold State.raise; split <;> rfl
@[simp] theorem State.raise_ed (s : State) (f : FaultCause) : (s.raise f).ed = s.ed := by unfold State.raise; split <;> rfl
@[simp] theorem State.raise_eu (s : State) (f : FaultCause) : (s.raise f).eu = s.eu := by unfold State.raise; split <;> rfl
@[simp] theorem State.raise_pal (s : State) (f : FaultCause) : (s.raise f).pal = s.pal := by unfold State.raise; split <;> rfl
@[simp] theorem State.raise_ix (s : State) (f : FaultCause) : (s.raise f).ix = s.ix := by unfold State.raise; split <;> rfl
@[simp] theorem State.raise_ob (s : State) (f : FaultCause) : (s.raise f).ob = s.ob := by unfold State.raise; split <;> rfl
@[simp] theorem State.raise_bestOb (s : State) (f : FaultCause) : (s.raise f).bestOb = s.bestOb := by unfold State.raise; split <;> rfl
@[simp] theorem State.raise_err (s : State) (f : FaultCause) : (s.raise f).err = s.err := by unfold State.raise; split <;> rfl
@[simp] theorem State.raise_bestErr (s : State) (f : FaultCause) : (s.raise f).bestErr = s.bestErr := by unfold State.raise; split <;> rfl
@[simp] theorem State.raise_t (s : State) (f : FaultCause) : (s.raise f).t = s.t := by unfold State.raise; split <;> rfl
@[simp] theorem State.raise_cidx (s : State) (f : FaultCause) : (s.raise f).cidx = s.cidx := by unfold State.raise; split <;> rfl
@[simp] theorem State.raise_cfg (s : State) (f : FaultCause) : (s.raise f).cfg = s.cfg := by unfold State.raise; split <;> rfl
@[simp] theorem State.raise_pm1 (s : State) (f : FaultCause) : (s.raise f).pm1 = s.pm1 := by unfold State.raise; split <;> rfl
@[simp] theorem State.raise_pm2 (s : State) (f : FaultCause) : (s.raise f).pm2 = s.pm2 := by unfold State.raise; split <;> rfl
@[simp] theorem State.raise_anch (s : State) (f : FaultCause) : (s.raise f).anch = s.anch := by unfold State.raise; split <;> rfl
@[simp] theorem State.raise_pbits (s : State) (f : FaultCause) : (s.raise f).pbits = s.pbits := by unfold State.raise; split <;> rfl
@[simp] theorem State.raise_oaddr (s : State) (f : FaultCause) : (s.raise f).oaddr = s.oaddr := by unfold State.raise; split <;> rfl
@[simp] theorem State.raise_mem (s : State) (f : FaultCause) : (s.raise f).mem = s.mem := by unfold State.raise; split <;> rfl
@[simp] theorem State.raise_draws (s : State) (f : FaultCause) : (s.raise f).draws = s.draws := by unfold State.raise; split <;> rfl
@[simp] theorem State.raise_pending (s : State) (f : FaultCause) : (s.raise f).pending = s.pending := by unfold State.raise; split <;> rfl
@[simp] theorem State.raise_out (s : State) (f : FaultCause) : (s.raise f).out = s.out := by unfold State.raise; split <;> rfl

/-! ### `State.markOverflow` -/

@[simp] theorem State.markOverflow_px (s : State) (v : Bool) : (s.markOverflow v).px = s.px := by unfold State.markOverflow; split <;> rfl
@[simp] theorem State.markOverflow_er (s : State) (v : Bool) : (s.markOverflow v).er = s.er := by unfold State.markOverflow; split <;> rfl
@[simp] theorem State.markOverflow_eq (s : State) (v : Bool) : (s.markOverflow v).eq = s.eq := by unfold State.markOverflow; split <;> rfl
@[simp] theorem State.markOverflow_ed (s : State) (v : Bool) : (s.markOverflow v).ed = s.ed := by unfold State.markOverflow; split <;> rfl
@[simp] theorem State.markOverflow_eu (s : State) (v : Bool) : (s.markOverflow v).eu = s.eu := by unfold State.markOverflow; split <;> rfl
@[simp] theorem State.markOverflow_pal (s : State) (v : Bool) : (s.markOverflow v).pal = s.pal := by unfold State.markOverflow; split <;> rfl
@[simp] theorem State.markOverflow_ix (s : State) (v : Bool) : (s.markOverflow v).ix = s.ix := by unfold State.markOverflow; split <;> rfl
@[simp] theorem State.markOverflow_ob (s : State) (v : Bool) : (s.markOverflow v).ob = s.ob := by unfold State.markOverflow; split <;> rfl
@[simp] theorem State.markOverflow_bestOb (s : State) (v : Bool) : (s.markOverflow v).bestOb = s.bestOb := by unfold State.markOverflow; split <;> rfl
@[simp] theorem State.markOverflow_bestErr (s : State) (v : Bool) : (s.markOverflow v).bestErr = s.bestErr := by unfold State.markOverflow; split <;> rfl
@[simp] theorem State.markOverflow_t (s : State) (v : Bool) : (s.markOverflow v).t = s.t := by unfold State.markOverflow; split <;> rfl
@[simp] theorem State.markOverflow_cidx (s : State) (v : Bool) : (s.markOverflow v).cidx = s.cidx := by unfold State.markOverflow; split <;> rfl
@[simp] theorem State.markOverflow_cfg (s : State) (v : Bool) : (s.markOverflow v).cfg = s.cfg := by unfold State.markOverflow; split <;> rfl
@[simp] theorem State.markOverflow_pm1 (s : State) (v : Bool) : (s.markOverflow v).pm1 = s.pm1 := by unfold State.markOverflow; split <;> rfl
@[simp] theorem State.markOverflow_pm2 (s : State) (v : Bool) : (s.markOverflow v).pm2 = s.pm2 := by unfold State.markOverflow; split <;> rfl
@[simp] theorem State.markOverflow_anch (s : State) (v : Bool) : (s.markOverflow v).anch = s.anch := by unfold State.markOverflow; split <;> rfl
@[simp] theorem State.markOverflow_pbits (s : State) (v : Bool) : (s.markOverflow v).pbits = s.pbits := by unfold State.markOverflow; split <;> rfl
@[simp] theorem State.markOverflow_oaddr (s : State) (v : Bool) : (s.markOverflow v).oaddr = s.oaddr := by unfold State.markOverflow; split <;> rfl
@[simp] theorem State.markOverflow_fcode (s : State) (v : Bool) : (s.markOverflow v).fcode = s.fcode := by unfold State.markOverflow; split <;> rfl
@[simp] theorem State.markOverflow_fcidx (s : State) (v : Bool) : (s.markOverflow v).fcidx = s.fcidx := by unfold State.markOverflow; split <;> rfl
@[simp] theorem State.markOverflow_mem (s : State) (v : Bool) : (s.markOverflow v).mem = s.mem := by unfold State.markOverflow; split <;> rfl
@[simp] theorem State.markOverflow_draws (s : State) (v : Bool) : (s.markOverflow v).draws = s.draws := by unfold State.markOverflow; split <;> rfl
@[simp] theorem State.markOverflow_pending (s : State) (v : Bool) : (s.markOverflow v).pending = s.pending := by unfold State.markOverflow; split <;> rfl
@[simp] theorem State.markOverflow_out (s : State) (v : Bool) : (s.markOverflow v).out = s.out := by unfold State.markOverflow; split <;> rfl

/-! ### `State.keepMin` -/

@[simp] theorem State.keepMin_px (s : State) : s.keepMin.px = s.px := by unfold State.keepMin; split <;> rfl
@[simp] theorem State.keepMin_er (s : State) : s.keepMin.er = s.er := by unfold State.keepMin; split <;> rfl
@[simp] theorem State.keepMin_eq (s : State) : s.keepMin.eq = s.eq := by unfold State.keepMin; split <;> rfl
@[simp] theorem State.keepMin_ed (s : State) : s.keepMin.ed = s.ed := by unfold State.keepMin; split <;> rfl
@[simp] theorem State.keepMin_eu (s : State) : s.keepMin.eu = s.eu := by unfold State.keepMin; split <;> rfl
@[simp] theorem State.keepMin_pal (s : State) : s.keepMin.pal = s.pal := by unfold State.keepMin; split <;> rfl
@[simp] theorem State.keepMin_ix (s : State) : s.keepMin.ix = s.ix := by unfold State.keepMin; split <;> rfl
@[simp] theorem State.keepMin_ob (s : State) : s.keepMin.ob = s.ob := by unfold State.keepMin; split <;> rfl
@[simp] theorem State.keepMin_err (s : State) : s.keepMin.err = s.err := by unfold State.keepMin; split <;> rfl
@[simp] theorem State.keepMin_t (s : State) : s.keepMin.t = s.t := by unfold State.keepMin; split <;> rfl
@[simp] theorem State.keepMin_cidx (s : State) : s.keepMin.cidx = s.cidx := by unfold State.keepMin; split <;> rfl
@[simp] theorem State.keepMin_cfg (s : State) : s.keepMin.cfg = s.cfg := by unfold State.keepMin; split <;> rfl
@[simp] theorem State.keepMin_pm1 (s : State) : s.keepMin.pm1 = s.pm1 := by unfold State.keepMin; split <;> rfl
@[simp] theorem State.keepMin_pm2 (s : State) : s.keepMin.pm2 = s.pm2 := by unfold State.keepMin; split <;> rfl
@[simp] theorem State.keepMin_anch (s : State) : s.keepMin.anch = s.anch := by unfold State.keepMin; split <;> rfl
@[simp] theorem State.keepMin_pbits (s : State) : s.keepMin.pbits = s.pbits := by unfold State.keepMin; split <;> rfl
@[simp] theorem State.keepMin_oaddr (s : State) : s.keepMin.oaddr = s.oaddr := by unfold State.keepMin; split <;> rfl
@[simp] theorem State.keepMin_fcode (s : State) : s.keepMin.fcode = s.fcode := by unfold State.keepMin; split <;> rfl
@[simp] theorem State.keepMin_fcidx (s : State) : s.keepMin.fcidx = s.fcidx := by unfold State.keepMin; split <;> rfl
@[simp] theorem State.keepMin_mem (s : State) : s.keepMin.mem = s.mem := by unfold State.keepMin; split <;> rfl
@[simp] theorem State.keepMin_draws (s : State) : s.keepMin.draws = s.draws := by unfold State.keepMin; split <;> rfl
@[simp] theorem State.keepMin_pending (s : State) : s.keepMin.pending = s.pending := by unfold State.keepMin; split <;> rfl
@[simp] theorem State.keepMin_out (s : State) : s.keepMin.out = s.out := by unfold State.keepMin; split <;> rfl

/-! ### `State.fixAnchor` -/

@[simp] theorem State.fixAnchor_px (s : State) (t : Stream) (b : Subset) (m : Mask) (iw : Nat) : (s.fixAnchor t b m iw).px = s.px := by unfold State.fixAnchor; split <;> rfl
@[simp] theorem State.fixAnchor_ed (s : State) (t : Stream) (b : Subset) (m : Mask) (iw : Nat) : (s.fixAnchor t b m iw).ed = s.ed := by unfold State.fixAnchor; split <;> rfl
@[simp] theorem State.fixAnchor_ob (s : State) (t : Stream) (b : Subset) (m : Mask) (iw : Nat) : (s.fixAnchor t b m iw).ob = s.ob := by unfold State.fixAnchor; split <;> rfl
@[simp] theorem State.fixAnchor_bestOb (s : State) (t : Stream) (b : Subset) (m : Mask) (iw : Nat) : (s.fixAnchor t b m iw).bestOb = s.bestOb := by unfold State.fixAnchor; split <;> rfl
@[simp] theorem State.fixAnchor_err (s : State) (t : Stream) (b : Subset) (m : Mask) (iw : Nat) : (s.fixAnchor t b m iw).err = s.err := by unfold State.fixAnchor; split <;> rfl
@[simp] theorem State.fixAnchor_bestErr (s : State) (t : Stream) (b : Subset) (m : Mask) (iw : Nat) : (s.fixAnchor t b m iw).bestErr = s.bestErr := by unfold State.fixAnchor; split <;> rfl
@[simp] theorem State.fixAnchor_t (s : State) (t : Stream) (b : Subset) (m : Mask) (iw : Nat) : (s.fixAnchor t b m iw).t = s.t := by unfold State.fixAnchor; split <;> rfl
@[simp] theorem State.fixAnchor_cidx (s : State) (t : Stream) (b : Subset) (m : Mask) (iw : Nat) : (s.fixAnchor t b m iw).cidx = s.cidx := by unfold State.fixAnchor; split <;> rfl
@[simp] theorem State.fixAnchor_status (s : State) (t : Stream) (b : Subset) (m : Mask) (iw : Nat) : (s.fixAnchor t b m iw).status = s.status := by unfold State.fixAnchor; split <;> rfl
@[simp] theorem State.fixAnchor_cfg (s : State) (t : Stream) (b : Subset) (m : Mask) (iw : Nat) : (s.fixAnchor t b m iw).cfg = s.cfg := by unfold State.fixAnchor; split <;> rfl
@[simp] theorem State.fixAnchor_pm1 (s : State) (t : Stream) (b : Subset) (m : Mask) (iw : Nat) : (s.fixAnchor t b m iw).pm1 = s.pm1 := by unfold State.fixAnchor; split <;> rfl
@[simp] theorem State.fixAnchor_pm2 (s : State) (t : Stream) (b : Subset) (m : Mask) (iw : Nat) : (s.fixAnchor t b m iw).pm2 = s.pm2 := by unfold State.fixAnchor; split <;> rfl
@[simp] theorem State.fixAnchor_anch (s : State) (t : Stream) (b : Subset) (m : Mask) (iw : Nat) : (s.fixAnchor t b m iw).anch = s.anch := by unfold State.fixAnchor; split <;> rfl
@[simp] theorem State.fixAnchor_oaddr (s : State) (t : Stream) (b : Subset) (m : Mask) (iw : Nat) : (s.fixAnchor t b m iw).oaddr = s.oaddr := by unfold State.fixAnchor; split <;> rfl
@[simp] theorem State.fixAnchor_fcode (s : State) (t : Stream) (b : Subset) (m : Mask) (iw : Nat) : (s.fixAnchor t b m iw).fcode = s.fcode := by unfold State.fixAnchor; split <;> rfl
@[simp] theorem State.fixAnchor_fcidx (s : State) (t : Stream) (b : Subset) (m : Mask) (iw : Nat) : (s.fixAnchor t b m iw).fcidx = s.fcidx := by unfold State.fixAnchor; split <;> rfl
@[simp] theorem State.fixAnchor_mem (s : State) (t : Stream) (b : Subset) (m : Mask) (iw : Nat) : (s.fixAnchor t b m iw).mem = s.mem := by unfold State.fixAnchor; split <;> rfl
@[simp] theorem State.fixAnchor_draws (s : State) (t : Stream) (b : Subset) (m : Mask) (iw : Nat) : (s.fixAnchor t b m iw).draws = s.draws := by unfold State.fixAnchor; split <;> rfl
@[simp] theorem State.fixAnchor_pending (s : State) (t : Stream) (b : Subset) (m : Mask) (iw : Nat) : (s.fixAnchor t b m iw).pending = s.pending := by unfold State.fixAnchor; split <;> rfl
@[simp] theorem State.fixAnchor_out (s : State) (t : Stream) (b : Subset) (m : Mask) (iw : Nat) : (s.fixAnchor t b m iw).out = s.out := by unfold State.fixAnchor; split <;> rfl

/-! ### `State.orderEndpoints` -/

@[simp] theorem State.orderEndpoints_px (s : State) (b : Subset) (m : Mask) : (s.orderEndpoints b m).px = s.px := by unfold State.orderEndpoints; split <;> rfl
@[simp] theorem State.orderEndpoints_ed (s : State) (b : Subset) (m : Mask) : (s.orderEndpoints b m).ed = s.ed := by unfold State.orderEndpoints; split <;> rfl
@[simp] theorem State.orderEndpoints_pal (s : State) (b : Subset) (m : Mask) : (s.orderEndpoints b m).pal = s.pal := by unfold State.orderEndpoints; split <;> rfl
@[simp] theorem State.orderEndpoints_ix (s : State) (b : Subset) (m : Mask) : (s.orderEndpoints b m).ix = s.ix := by unfold State.orderEndpoints; split <;> rfl
@[simp] theorem State.orderEndpoints_ob (s : State) (b : Subset) (m : Mask) : (s.orderEndpoints b m).ob = s.ob := by unfold State.orderEndpoints; split <;> rfl
@[simp] theorem State.orderEndpoints_bestOb (s : State) (b : Subset) (m : Mask) : (s.orderEndpoints b m).bestOb = s.bestOb := by unfold State.orderEndpoints; split <;> rfl
@[simp] theorem State.orderEndpoints_err (s : State) (b : Subset) (m : Mask) : (s.orderEndpoints b m).err = s.err := by unfold State.orderEndpoints; split <;> rfl
@[simp] theorem State.orderEndpoints_bestErr (s : State) (b : Subset) (m : Mask) : (s.orderEndpoints b m).bestErr = s.bestErr := by unfold State.orderEndpoints; split <;> rfl
@[simp] theorem State.orderEndpoints_t (s : State) (b : Subset) (m : Mask) : (s.orderEndpoints b m).t = s.t := by unfold State.orderEndpoints; split <;> rfl
@[simp] theorem State.orderEndpoints_cidx (s : State) (b : Subset) (m : Mask) : (s.orderEndpoints b m).cidx = s.cidx := by unfold State.orderEndpoints; split <;> rfl
@[simp] theorem State.orderEndpoints_cfg (s : State) (b : Subset) (m : Mask) : (s.orderEndpoints b m).cfg = s.cfg := by unfold State.orderEndpoints; split <;> rfl
@[simp] theorem State.orderEndpoints_pm1 (s : State) (b : Subset) (m : Mask) : (s.orderEndpoints b m).pm1 = s.pm1 := by unfold State.orderEndpoints; split <;> rfl
@[simp] theorem State.orderEndpoints_pm2 (s : State) (b : Subset) (m : Mask) : (s.orderEndpoints b m).pm2 = s.pm2 := by unfold State.orderEndpoints; split <;> rfl
@[simp] theorem State.orderEndpoints_anch (s : State) (b : Subset) (m : Mask) : (s.orderEndpoints b m).anch = s.anch := by unfold State.orderEndpoints; split <;> rfl
@[simp] theorem State.orderEndpoints_oaddr (s : State) (b : Subset) (m : Mask) : (s.orderEndpoints b m).oaddr = s.oaddr := by unfold State.orderEndpoints; split <;> rfl
@[simp] theorem State.orderEndpoints_fcode (s : State) (b : Subset) (m : Mask) : (s.orderEndpoints b m).fcode = s.fcode := by unfold State.orderEndpoints; split <;> rfl
@[simp] theorem State.orderEndpoints_fcidx (s : State) (b : Subset) (m : Mask) : (s.orderEndpoints b m).fcidx = s.fcidx := by unfold State.orderEndpoints; split <;> rfl
@[simp] theorem State.orderEndpoints_mem (s : State) (b : Subset) (m : Mask) : (s.orderEndpoints b m).mem = s.mem := by unfold State.orderEndpoints; split <;> rfl
@[simp] theorem State.orderEndpoints_draws (s : State) (b : Subset) (m : Mask) : (s.orderEndpoints b m).draws = s.draws := by unfold State.orderEndpoints; split <;> rfl
@[simp] theorem State.orderEndpoints_pending (s : State) (b : Subset) (m : Mask) : (s.orderEndpoints b m).pending = s.pending := by unfold State.orderEndpoints; split <;> rfl
@[simp] theorem State.orderEndpoints_out (s : State) (b : Subset) (m : Mask) : (s.orderEndpoints b m).out = s.out := by unfold State.orderEndpoints; split <;> rfl

/-! ### `State.deltaCode` -/

@[simp] theorem State.deltaCode_px (s : State) (b : Subset) (e : EndNo) (m : Mask) (n : Nat) : (s.deltaCode b e m n).px = s.px := by unfold State.deltaCode State.markOverflow; split <;> rfl
@[simp] theorem State.deltaCode_er (s : State) (b : Subset) (e : EndNo) (m : Mask) (n : Nat) : (s.deltaCode b e m n).er = s.er := by unfold State.deltaCode State.markOverflow; split <;> rfl
@[simp] theorem State.deltaCode_eq (s : State) (b : Subset) (e : EndNo) (m : Mask) (n : Nat) : (s.deltaCode b e m n).eq = s.eq := by unfold State.deltaCode State.markOverflow; split <;> rfl
@[simp] theorem State.deltaCode_eu (s : State) (b : Subset) (e : EndNo) (m : Mask) (n : Nat) : (s.deltaCode b e m n).eu = s.eu := by unfold State.deltaCode State.markOverflow; split <;> rfl
@[simp] theorem State.deltaCode_pal (s : State) (b : Subset) (e : EndNo) (m : Mask) (n : Nat) : (s.deltaCode b e m n).pal = s.pal := by unfold State.deltaCode State.markOverflow; split <;> rfl
@[simp] theorem State.deltaCode_ix (s : State) (b : Subset) (e : EndNo) (m : Mask) (n : Nat) : (s.deltaCode b e m n).ix = s.ix := by unfold State.deltaCode State.markOverflow; split <;> rfl
@[simp] theorem State.deltaCode_ob (s : State) (b : Subset) (e : EndNo) (m : Mask) (n : Nat) : (s.deltaCode b e m n).ob = s.ob := by unfold State.deltaCode State.markOverflow; split <;> rfl
@[simp] theorem State.deltaCode_bestOb (s : State) (b : Subset) (e : EndNo) (m : Mask) (n : Nat) : (s.deltaCode b e m n).bestOb = s.bestOb := by unfold State.deltaCode State.markOverflow; split <;> rfl
@[simp] theorem State.deltaCode_bestErr (s : State) (b : Subset) (e : EndNo) (m : Mask) (n : Nat) : (s.deltaCode b e m n).bestErr = s.bestErr := by unfold State.deltaCode State.markOverflow; split <;> rfl
@[simp] theorem State.deltaCode_t (s : State) (b : Subset) (e : EndNo) (m : Mask) (n : Nat) : (s.deltaCode b e m n).t = s.t := by unfold State.deltaCode State.markOverflow; split <;> rfl
@[simp] theorem State.deltaCode_cidx (s : State) (b : Subset) (e : EndNo) (m : Mask) (n : Nat) : (s.deltaCode b e m n).cidx = s.cidx := by unfold State.deltaCode State.markOverflow; split <;> rfl
@[simp] theorem State.deltaCode_cfg (s : State) (b : Subset) (e : EndNo) (m : Mask) (n : Nat) : (s.deltaCode b e m n).cfg = s.cfg := by unfold State.deltaCode State.markOverflow; split <;> rfl
@[simp] theorem State.deltaCode_pm1 (s : State) (b : Subset) (e : EndNo) (m : Mask) (n : Nat) : (s.deltaCode b e m n).pm1 = s.pm1 := by unfold State.deltaCode State.markOverflow; split <;> rfl
@[simp] theorem State.deltaCode_pm2 (s : State) (b : Subset) (e : EndNo) (m : Mask) (n : Nat) : (s.deltaCode b e m n).pm2 = s.pm2 := by unfold State.deltaCode State.markOverflow; split <;> rfl
@[simp] theorem State.deltaCode_anch (s : State) (b : Subset) (e : EndNo) (m : Mask) (n : Nat) : (s.deltaCode b e m n).anch = s.anch := by unfold State.deltaCode State.markOverflow; split <;> rfl
@[simp] theorem State.deltaCode_pbits (s : State) (b : Subset) (e : EndNo) (m : Mask) (n : Nat) : (s.deltaCode b e m n).pbits = s.pbits := by unfold State.deltaCode State.markOverflow; split <;> rfl
@[simp] theorem State.deltaCode_oaddr (s : State) (b : Subset) (e : EndNo) (m : Mask) (n : Nat) : (s.deltaCode b e m n).oaddr = s.oaddr := by unfold State.deltaCode State.markOverflow; split <;> rfl
@[simp] theorem State.deltaCode_fcode (s : State) (b : Subset) (e : EndNo) (m : Mask) (n : Nat) : (s.deltaCode b e m n).fcode = s.fcode := by unfold State.deltaCode State.markOverflow; split <;> rfl
@[simp] theorem State.deltaCode_fcidx (s : State) (b : Subset) (e : EndNo) (m : Mask) (n : Nat) : (s.deltaCode b e m n).fcidx = s.fcidx := by unfold State.deltaCode State.markOverflow; split <;> rfl
@[simp] theorem State.deltaCode_mem (s : State) (b : Subset) (e : EndNo) (m : Mask) (n : Nat) : (s.deltaCode b e m n).mem = s.mem := by unfold State.deltaCode State.markOverflow; split <;> rfl
@[simp] theorem State.deltaCode_draws (s : State) (b : Subset) (e : EndNo) (m : Mask) (n : Nat) : (s.deltaCode b e m n).draws = s.draws := by unfold State.deltaCode State.markOverflow; split <;> rfl
@[simp] theorem State.deltaCode_pending (s : State) (b : Subset) (e : EndNo) (m : Mask) (n : Nat) : (s.deltaCode b e m n).pending = s.pending := by unfold State.deltaCode State.markOverflow; split <;> rfl
@[simp] theorem State.deltaCode_out (s : State) (b : Subset) (e : EndNo) (m : Mask) (n : Nat) : (s.deltaCode b e m n).out = s.out := by unfold State.deltaCode State.markOverflow; split <;> rfl

/-! ### `State.storeCtrl` -/

@[simp] theorem State.storeCtrl_px (s : State) (r : CtrlReg) (v : Half) : (s.storeCtrl r v).px = s.px := by cases r <;> rfl
@[simp] theorem State.storeCtrl_er (s : State) (r : CtrlReg) (v : Half) : (s.storeCtrl r v).er = s.er := by cases r <;> rfl
@[simp] theorem State.storeCtrl_eq (s : State) (r : CtrlReg) (v : Half) : (s.storeCtrl r v).eq = s.eq := by cases r <;> rfl
@[simp] theorem State.storeCtrl_ed (s : State) (r : CtrlReg) (v : Half) : (s.storeCtrl r v).ed = s.ed := by cases r <;> rfl
@[simp] theorem State.storeCtrl_eu (s : State) (r : CtrlReg) (v : Half) : (s.storeCtrl r v).eu = s.eu := by cases r <;> rfl
@[simp] theorem State.storeCtrl_pal (s : State) (r : CtrlReg) (v : Half) : (s.storeCtrl r v).pal = s.pal := by cases r <;> rfl
@[simp] theorem State.storeCtrl_ix (s : State) (r : CtrlReg) (v : Half) : (s.storeCtrl r v).ix = s.ix := by cases r <;> rfl
@[simp] theorem State.storeCtrl_ob (s : State) (r : CtrlReg) (v : Half) : (s.storeCtrl r v).ob = s.ob := by cases r <;> rfl
@[simp] theorem State.storeCtrl_bestOb (s : State) (r : CtrlReg) (v : Half) : (s.storeCtrl r v).bestOb = s.bestOb := by cases r <;> rfl
@[simp] theorem State.storeCtrl_err (s : State) (r : CtrlReg) (v : Half) : (s.storeCtrl r v).err = s.err := by cases r <;> rfl
@[simp] theorem State.storeCtrl_bestErr (s : State) (r : CtrlReg) (v : Half) : (s.storeCtrl r v).bestErr = s.bestErr := by cases r <;> rfl
@[simp] theorem State.storeCtrl_cidx (s : State) (r : CtrlReg) (v : Half) : (s.storeCtrl r v).cidx = s.cidx := by cases r <;> rfl
@[simp] theorem State.storeCtrl_status (s : State) (r : CtrlReg) (v : Half) : (s.storeCtrl r v).status = s.status := by cases r <;> rfl
@[simp] theorem State.storeCtrl_fcode (s : State) (r : CtrlReg) (v : Half) : (s.storeCtrl r v).fcode = s.fcode := by cases r <;> rfl
@[simp] theorem State.storeCtrl_fcidx (s : State) (r : CtrlReg) (v : Half) : (s.storeCtrl r v).fcidx = s.fcidx := by cases r <;> rfl
@[simp] theorem State.storeCtrl_mem (s : State) (r : CtrlReg) (v : Half) : (s.storeCtrl r v).mem = s.mem := by cases r <;> rfl
@[simp] theorem State.storeCtrl_draws (s : State) (r : CtrlReg) (v : Half) : (s.storeCtrl r v).draws = s.draws := by cases r <;> rfl
@[simp] theorem State.storeCtrl_pending (s : State) (r : CtrlReg) (v : Half) : (s.storeCtrl r v).pending = s.pending := by cases r <;> rfl
@[simp] theorem State.storeCtrl_out (s : State) (r : CtrlReg) (v : Half) : (s.storeCtrl r v).out = s.out := by cases r <;> rfl

end Sys2Proof.Machine
end

