-- ==== Sys2Proof/Laws/Packer.lean ====
section
/-! SUPPORT. What a pack leaves in the block buffer, bit by bit, and what the sixteen packs of a stream
leave (44_packer.md rules R171, R175). -/

namespace Sys2Proof.Machine

/-- Bit `k` of the block buffer after a pack (R170, R171). -/
theorem packBits_getLsbD (ob : Block) {off w : Nat} (v : Half) (h : off + w ≤ 128) (k : Nat) :
    (packBits ob off w v).getLsbD k
      = if off ≤ k ∧ k < off + w then v.getLsbD (k - off) else ob.getLsbD k := by
  by_cases hk : k < 128
  · simp only [packBits, BitVec.getLsbD_or, BitVec.getLsbD_and, BitVec.getLsbD_not,
      BitVec.getLsbD_shiftLeft, BitVec.getLsbD_ofNat, Nat.testBit_two_pow_sub_one, Nat.testBit_mod_two_pow,
      hk, decide_true, Bool.true_and, BitVec.testBit_toNat]
    by_cases h1 : k < off
    · have : ¬(off ≤ k ∧ k < off + w) := by omega
      simp [h1, this]
    · by_cases h2 : k < off + w
      · have h3 : off ≤ k ∧ k < off + w := by omega
        have h4 : k - off < w := by omega
        have h5 : k - off < 128 := by omega
        simp [h1, h3, h4, h5]
      · have h3 : ¬(off ≤ k ∧ k < off + w) := by omega
        have h4 : ¬k - off < w := by omega
        simp [h1, h3, h4]
  · have h1 : ¬(off ≤ k ∧ k < off + w) := by omega
    rw [if_neg h1, BitVec.getLsbD_of_ge _ k (by omega), BitVec.getLsbD_of_ge _ k (by omega)]

/-- A pack of an index loses a bit iff the index does not fit. -/
theorem truncates_iff (v : Half) (w : Nat) : truncates v w = true ↔ 2 ^ w ≤ v.toNat := by
  simp only [truncates, decide_eq_true_eq, Nat.shiftRight_eq_div_pow, ne_eq,
    Nat.div_eq_zero_iff, not_or, Nat.not_lt]
  constructor
  · exact fun h => h.2
  · exact fun h => ⟨Nat.ne_of_gt (Nat.two_pow_pos w), h⟩

/-- The sixteen packs of a stream change the block buffer and TRUNC alone. -/
theorem packAll_frame (width : Pixel → Nat) (value : Pixel → Half) (ps : List Pixel) (pos : Nat) (s : State) :
    packAll width value ps pos s
      = { s with
          ob := (packAll width value ps pos s).ob
          status := { s.status with trunc := (packAll width value ps pos s).status.trunc } } := by
  induction ps generalizing pos s with
  | nil => rfl
  | cons p ps ih => exact ih (pos + width p) (s.pack pos (width p) (value p))

/-- TRUNC after a run of packs. -/
theorem packAll_trunc (width : Pixel → Nat) (value : Pixel → Half) (ps : List Pixel) (pos : Nat) (s : State) :
    (packAll width value ps pos s).status.trunc
      = (s.status.trunc || ps.any fun p => truncates (value p) (width p)) := by
  induction ps generalizing pos s with
  | nil => simp [packAll]
  | cons p ps ih => simp [packAll, ih, Bool.or_assoc]

/-- Below and above a run of packs the block buffer is as before. -/
theorem packAll_outside (width : Pixel → Nat) (value : Pixel → Half) (ps : List Pixel) (pos : Nat) (s : State)
    (h : pos + (ps.map width).sum ≤ 128) {k : Nat} (hk : k < pos ∨ pos + (ps.map width).sum ≤ k) :
    (packAll width value ps pos s).ob.getLsbD k = s.ob.getLsbD k := by
  induction ps generalizing pos s with
  | nil => rfl
  | cons p ps ih =>
    simp only [List.map_cons, List.sum_cons] at h hk
    rw [packAll, ih (pos + width p) _ (by omega) (by omega)]
    simp only [State.pack_ob]
    rw [packBits_getLsbD _ _ (by omega), if_neg (by omega)]

/-- Inside a run of packs: the value of pixel `p` stands after the widths of the pixels packed before it. -/
theorem packAll_inside (width : Pixel → Nat) (value : Pixel → Half) (qs : List Pixel) (p : Pixel)
    (ps : List Pixel) (pos : Nat) (s : State)
    (h : pos + ((qs ++ p :: ps).map width).sum ≤ 128) {j : Nat} (hj : j < width p) :
    (packAll width value (qs ++ p :: ps) pos s).ob.getLsbD (pos + (qs.map width).sum + j)
      = (value p).getLsbD j := by
  induction qs generalizing pos s with
  | nil =>
    simp only [List.nil_append, List.map_cons, List.sum_cons, List.map_nil, List.sum_nil] at h ⊢
    rw [packAll, packAll_outside _ _ _ _ _ (by omega) (.inl (by omega))]
    simp only [State.pack_ob]
    rw [packBits_getLsbD _ _ (by omega), if_pos (by omega)]
    congr 1
    omega
  | cons q qs ih =>
    simp only [List.cons_append, List.map_cons, List.sum_cons] at h ⊢
    rw [packAll, ← ih (pos + width q) (s.pack pos (width q) (value q)) (by omega)]
    congr 1
    omega

/-- A sum over the list of all pixels is the sum over the pixels. -/
theorem sum_allPixels (f : Pixel → Nat) : (allPixels.map f).sum = ∑ p : Pixel, f p := by
  simp [allPixels, Fin.sum_univ_succ]

theorem allPixels_split : ∀ p : Pixel,
    allPixels = allPixels.take p.val ++ p :: allPixels.drop (p.val + 1) := by decide

/-- The widths packed before pixel `p` (R175). -/
theorem sum_pixels_before (f : Pixel → Nat) (p : Pixel) :
    ((allPixels.take p.val).map f).sum = ∑ q : Pixel, if q < p then f q else 0 := by
  have before : ∀ p : Pixel, ∀ q ∈ allPixels.take p.val, q < p := by decide
  have after : ∀ p : Pixel, ∀ q ∈ allPixels.drop p.val, ¬q < p := by decide
  have whole : allPixels = allPixels.take p.val ++ allPixels.drop p.val := (List.take_append_drop _ _).symm
  rw [← sum_allPixels, whole, List.map_append, List.sum_append,
    List.map_congr_left (fun q hq => if_pos (before p q (by simpa using hq))),
    List.map_congr_left (fun q hq => if_neg (after p q (by simpa using hq)))]
  simp

end Sys2Proof.Machine
end

