-- ==== Sys2Proof/Laws/Exec.lean ====
section
/-! SUPPORT. Once for all commands: what the checks can do, the effect of each command apart from its
checks, and the inversion of `exec` that later proofs cite instead of unfolding it. -/

namespace Sys2Proof.Machine

/-- The fault of the first check that fails. -/
def firstFailing : List (Bool × FaultCause) → Option FaultCause
  | [] => none
  | (ok, f) :: rest => if ok then firstFailing rest else some f

/-- All that `checked` can do. -/
theorem checked_eq (cs : List (Bool × FaultCause)) (s run : State) :
    checked cs s run
      = .next (match firstFailing cs with
        | none => run
        | some f => s.raise f) := by
  induction cs with
  | nil => rfl
  | cons c rest ih =>
    obtain ⟨ok, f⟩ := c
    cases ok
    · rfl
    · simpa [checked, firstFailing] using ih

/-- Checks that all raise one fault raise it unless all hold. -/
theorem checked_of_all {cs : List (Bool × FaultCause)} {f : FaultCause} (s run : State)
    (hf : ∀ c ∈ cs, c.2 = f) :
    checked cs s run = .next (if cs.all (fun c => c.1) then run else s.raise f) := by
  induction cs with
  | nil => rfl
  | cons c rest ih =>
    obtain ⟨ok, g⟩ := c
    cases ok
    · have : g = f := hf (false, g) List.mem_cons_self
      simp [checked, this]
    · exact ih fun c hc => hf c (List.mem_cons_of_mem _ hc)

@[simp] theorem checked_nil (s run : State) : checked [] s run = .next run := rfl

@[simp] theorem checked_cons_true (f : FaultCause) (cs : List (Bool × FaultCause)) (s run : State) :
    checked ((true, f) :: cs) s run = checked cs s run := rfl

@[simp] theorem checked_cons_false (f : FaultCause) (cs : List (Bool × FaultCause)) (s run : State) :
    checked ((false, f) :: cs) s run = .next (s.raise f) := rfl

/-- Taking a first fault writes the record and nothing else (R262). -/
theorem State.raise_of_healthy {s : State} (h : s.status.fault = false) (f : FaultCause) :
    s.raise f = s.faultRecord (faultCode f) := by
  simp [State.raise, State.faultRecord, h]

/-- A fault in the faulted state changes nothing (R262, R263). -/
theorem State.raise_of_faulted {s : State} (h : s.status.fault = true) (f : FaultCause) :
    s.raise f = s := by
  simp [State.raise, h]

/-- The effect of a command whose checks pass, before `CIDX` moves. -/
def effect (i : Instr) (s : State) : State :=
  match i with
  | .nop => s
  | .blkinit => s.blockStart
  | .ldc reg imm => match ldcTarget reg with
    | some r => s.storeCtrl r imm
    | none => s
  | .ldpx p c imm => { s with px := s.px.write (pixelOf p) (chanOf c) (.ofValue imm) }
  | .lder b e c imm =>
    { s with er := s.er.write (subsetOf b) (endOf e) (chanMask (chanOf c)) fun _ => .ofValue imm }
  | .keepmin => s.keepMin
  | .emit src => s.storeAtOADDR (s.emitBytes src)
  | .candinit => s.candidateStart
  | .qntl b e m n => s.quantize (subsetOf b) (endOf e) m (quantL n.toNat)
  | .qntlp b e m n => s.quantize (subsetOf b) (endOf e) m (quantLP n.toNat)
  | .qnth b e m n => s.quantize (subsetOf b) (endOf e) m fun h => quantH h n.toNat
  | .unql b e m n => s.unquantize (subsetOf b) (endOf e) m (unquantL n.toNat)
  | .unqlp b e m n =>
    s.unquantize (subsetOf b) (endOf e) m (unquantLP n.toNat (s.pb (subsetOf b) (endOf e)))
  | .unqh b e m n => s.unquantize (subsetOf b) (endOf e) m (unquantH n.toNat)
  | .order b m => s.orderEndpoints (subsetOf b) m
  | .delta b e m n => s.deltaCode (subsetOf b) (endOf e) m n.toNat
  | .palw b m iw => s.buildPalette (subsetOf b) m (2 ^ iw.toNat) (palwEntry iw.toNat)
  | .palh b m iw => s.buildPalette (subsetOf b) m (2 ^ iw.toNat) (palhEntry iw.toNat)
  | .palt b m => s.buildPalette (subsetOf b) m 4 paltEntry
  | .pals b m => s.buildPalette (subsetOf b) m 8 palsEntry
  | .idxn t b m iw =>
    s.assignIndices (streamOf t) (subsetOf b) m (s.nearestIndex (subsetOf b) m iw.toNat)
  | .idxp t b m iw =>
    s.assignIndices (streamOf t) (subsetOf b) m (s.projectedIndex assignLut (subsetOf b) m iw.toNat)
  | .fix t b m iw => s.fixAnchor (streamOf t) (subsetOf b) m iw.toNat
  | .put off wm1 sh sel => match selSource sel with
    | some src => s.pack off.toNat (putWidth wm1) (s.sourceValue src >>> sh.toNat)
    | none => s
  | .putix t off iw na =>
    packAll (s.indexBits iw.toNat na) (fun p => (s.ix[streamOf t][p]).setWidth 16) allPixels off.toNat s

/-! ### What no command's effect touches -/

@[simp] theorem State.keepMin_fault (s : State) : s.keepMin.status.fault = s.status.fault := by
  unfold State.keepMin
  split <;> rfl

@[simp] theorem State.orderEndpoints_fault (s : State) (b : Subset) (m : Mask) :
    (s.orderEndpoints b m).status.fault = s.status.fault := by
  unfold State.orderEndpoints
  split <;> rfl

@[simp] theorem State.markOverflow_fault (s : State) (v : Bool) :
    (s.markOverflow v).status.fault = s.status.fault := by
  unfold State.markOverflow
  split <;> rfl

@[simp] theorem State.deltaCode_fault (s : State) (b : Subset) (e : EndNo) (m : Mask) (n : Nat) :
    (s.deltaCode b e m n).status.fault = s.status.fault := by
  simp [State.deltaCode]

theorem effect_pending (i : Instr) (s : State) : (effect i s).pending = s.pending := by
  cases i <;> dsimp only [effect]
  case ldc => split <;> simp
  case put => split <;> simp
  case putix => rw [packAll_frame]
  case emit => simp
  all_goals simp

theorem effect_fcode (i : Instr) (s : State) : (effect i s).fcode = s.fcode := by
  cases i <;> dsimp only [effect]
  case ldc => split <;> simp
  case put => split <;> simp
  case putix => rw [packAll_frame]
  case emit => simp
  all_goals simp

theorem effect_fcidx (i : Instr) (s : State) : (effect i s).fcidx = s.fcidx := by
  cases i <;> dsimp only [effect]
  case ldc => split <;> simp
  case put => split <;> simp
  case putix => rw [packAll_frame]
  case emit => simp
  all_goals simp

theorem effect_cidx (i : Instr) (s : State) : (effect i s).cidx = s.cidx := by
  cases i <;> dsimp only [effect]
  case ldc => split <;> simp
  case put => split <;> simp
  case putix => rw [packAll_frame]
  case emit => simp
  all_goals simp

theorem effect_draws (i : Instr) (s : State) : (effect i s).draws = s.draws := by
  cases i <;> dsimp only [effect]
  case ldc => split <;> simp
  case put => split <;> simp
  case putix => rw [packAll_frame]
  case emit => simp
  all_goals simp

theorem effect_fault (i : Instr) (s : State) : (effect i s).status.fault = s.status.fault := by
  cases i <;> dsimp only [effect]
  case ldc => split <;> simp
  case put => split <;> simp
  case putix => rw [packAll_frame]
  case emit => simp
  all_goals simp [Status.blockStart, Status.candidateStart]

/-- No command but EMIT drives the memory port or changes the memory (R196). -/
theorem effect_out (i : Instr) (s : State) (h : ∀ src, i ≠ .emit src) : (effect i s).out = s.out := by
  cases i <;> dsimp only [effect]
  case ldc => split <;> simp
  case put => split <;> simp
  case putix => rw [packAll_frame]
  case emit => exact absurd rfl (h _)
  all_goals simp

theorem effect_mem (i : Instr) (s : State) (h : ∀ src, i ≠ .emit src) : (effect i s).mem = s.mem := by
  cases i <;> dsimp only [effect]
  case ldc => split <;> simp
  case put => split <;> simp
  case putix => rw [packAll_frame]
  case emit => exact absurd rfl (h _)
  all_goals simp

/-! ### The operand checks, as conditions on the fields (R95) -/

theorem subsetOk_iff (b : BitVec 2) : subsetOk b = true ↔ b ≠ 3 := by revert b; decide

theorem maskOk_iff (m : Mask) : maskOk m = true ↔ m ≠ 0 := by simp [maskOk]

theorem widthOk_iff (iw : BitVec 3) : widthOk iw = true ↔ 2 ≤ iw.toNat ∧ iw.toNat ≤ 4 := by
  simp [widthOk]

theorem bitsOk_iff (lo hi : Nat) (n : BitVec 5) : bitsOk lo hi n = true ↔ lo ≤ n.toNat ∧ n.toNat ≤ hi := by
  simp [bitsOk]

/-- Either the command is legal and completes with the effect `run`, or it is not and takes one fault. -/
def EndsBy (legal : Bool) (s run : State) (r : Result) : Prop :=
  (legal = true ∧ r = .next run) ∨ (legal = false ∧ ∃ f, r = .next (s.raise f))

/-- A command that checks `cs` before its effect. -/
theorem checked_endsBy (cs : List (Bool × FaultCause)) (s run : State) :
    EndsBy (cs.all fun c => c.1) s run (checked cs s run) := by
  induction cs with
  | nil => exact .inl ⟨rfl, rfl⟩
  | cons c rest ih =>
    obtain ⟨ok, f⟩ := c
    cases ok
    · exact .inr ⟨rfl, f, rfl⟩
    · exact ih

theorem checked_endsBy_of {cs : List (Bool × FaultCause)} {s run : State} {ok : Bool}
    (h : cs.all (fun c => c.1) = ok) : EndsBy ok s run (checked cs s run) :=
  h ▸ checked_endsBy cs s run

/-- Every command answers a next state: it completes, or it takes one fault, and which is decided by
`State.legal` (R262, R265). -/
theorem exec_endsBy (i : Instr) (s : State) :
    EndsBy (s.legal i) s (effect i s).complete (exec i s) := by
  cases i
  case nop => exact .inl ⟨rfl, rfl⟩
  case blkinit => exact .inl ⟨rfl, rfl⟩
  case keepmin => exact .inl ⟨rfl, rfl⟩
  case candinit => exact .inl ⟨rfl, rfl⟩
  case ldpx => exact .inl ⟨rfl, rfl⟩
  case ldc reg imm =>
    simp only [State.legal, State.rangeOk, Instr.wellFormed, exec, execLdc, effect, Bool.and_true]
    cases ldcTarget reg with
    | none => exact .inr ⟨rfl, _, rfl⟩
    | some r => simpa using checked_endsBy [(ldcLegal r imm, .illegalOperand)] s _
  case put off wm1 sh sel =>
    simp only [State.legal, State.rangeOk, Instr.wellFormed, exec, execPut, effect, Bool.and_true, selOk]
    cases selSource sel with
    | none => exact .inr ⟨rfl, _, rfl⟩
    | some src => simpa using checked_endsBy [(putFits off wm1, .packRange)] s _
  all_goals
    exact checked_endsBy_of (by
      simp [State.legal, State.rangeOk, Instr.wellFormed, widthChecks, indexWidthChecks, subsetChecks,
        Bool.and_assoc])

/-- A legal command completes with its effect (R265). -/
theorem exec_of_legal {i : Instr} {s : State} (h : s.legal i = true) :
    exec i s = .next (effect i s).complete := by
  rcases exec_endsBy i s with ⟨-, h'⟩ | ⟨hl, -⟩
  · exact h'
  · rw [h] at hl
    cases hl

/-- An illegal command takes a fault and has no other effect (R262). -/
theorem exec_of_illegal {i : Instr} {s : State} (h : s.legal i = false) :
    ∃ f, exec i s = .next (s.raise f) := by
  rcases exec_endsBy i s with ⟨hl, -⟩ | ⟨-, h'⟩
  · rw [h] at hl
    cases hl
  · exact h'

/-- The inversion of `exec`: what holds of any next state. -/
theorem exec_cases {i : Instr} {s t : State} (h : exec i s = .next t) :
    (s.legal i = true ∧ t = (effect i s).complete) ∨ (s.legal i = false ∧ ∃ f, t = s.raise f) := by
  cases hl : s.legal i
  · obtain ⟨f, hf⟩ := exec_of_illegal hl
    rw [hf] at h
    cases h
    exact .inr ⟨rfl, f, rfl⟩
  · rw [exec_of_legal hl] at h
    cases h
    exact .inl ⟨rfl, rfl⟩

end Sys2Proof.Machine
end

