-- ==== Sys2Proof/Laws/Files.lean ====
section
/-! SUPPORT. What a register file holds after each file operation: one lemma per operation, at every
index. And reading a data register that a command has written. -/

namespace Sys2Proof.Machine

@[simp] theorem DataReg.read_ofValue (v free : Half) : (DataReg.ofValue v).read free = v := rfl

@[simp] theorem DataReg.read_ofNat (n : Nat) (free : Half) :
    (DataReg.ofNat n).read free = BitVec.ofNat 16 n := rfl

theorem DataReg.read_of_written {r : DataReg} (h : r.written = true) (free : Half) :
    r.read free = r.bits := by simp [DataReg.read, h]

theorem DataReg.read_of_unwritten {r : DataReg} (h : r.written = false) (free : Half) :
    r.read free = free := by simp [DataReg.read, h]

theorem PixelFile.write_get (f : PixelFile) (p p' : Pixel) (c c' : Chan) (r : DataReg) :
    (f.write p c r)[p'][c'] = if p' = p ∧ c' = c then r else f[p'][c'] := by
  simp [PixelFile.write]

theorem EndpointFile.write_get (f : EndpointFile) (b b' : Subset) (e e' : EndNo) (m : Mask)
    (v : Chan → DataReg) (c : Chan) :
    (f.write b e m v)[b'][e'][c] = if b' = b ∧ e' = e ∧ inMask m c then v c else f[b'][e'][c] := by
  simp [EndpointFile.write]

theorem EndpointFile.exchange_get (f : EndpointFile) (b b' : Subset) (e : EndNo) (m : Mask) (c : Chan) :
    (f.exchange b m)[b'][e][c] = if b' = b ∧ inMask m c then f[b'][otherEnd e][c] else f[b'][e][c] := by
  simp [EndpointFile.exchange]

theorem PaletteFile.write_get (f : PaletteFile) (b b' : Subset) (m : Mask) (n : Nat)
    (v : Entry → Chan → DataReg) (k : Entry) (c : Chan) :
    (f.write b m n v)[b'][k][c] = if b' = b ∧ k.val < n ∧ inMask m c then v k c else f[b'][k][c] := by
  simp [PaletteFile.write]

theorem PaletteFile.reverse_get (f : PaletteFile) (b b' : Subset) (m : Mask) (max : Nat) (k : Entry)
    (c : Chan) :
    (f.reverse b m max)[b'][k][c]
      = if b' = b ∧ k.val ≤ max ∧ inMask m c then f[b'][mirror max k][c] else f[b'][k][c] := by
  simp [PaletteFile.reverse]

theorem IndexFile.write_get (f : IndexFile) (t t' : Stream) (sel : Pixel → Bool) (v : Pixel → BitVec 4)
    (p : Pixel) : (f.write t sel v)[t'][p] = if t' = t ∧ sel p then v p else f[t'][p] := by
  simp [IndexFile.write]

@[simp] theorem IndexFile.zero_get (t : Stream) (p : Pixel) : IndexFile.zero[t][p] = 0 := by
  simp [IndexFile.zero]

@[simp] theorem otherEnd_otherEnd (e : EndNo) : otherEnd (otherEnd e) = e := by
  revert e; decide

@[simp] theorem otherEnd_zero : otherEnd 0 = 1 := rfl

@[simp] theorem otherEnd_one : otherEnd 1 = 0 := rfl

/-- Bit `i` of `PBITS` after the exchange (R121). -/
theorem exchangePBits_getLsbD (v : Half) (b : Subset) (i : Nat) :
    (exchangePBits v b).getLsbD i
      = if i = 2 * b.val then v.getLsbD (2 * b.val + 1)
        else if i = 2 * b.val + 1 then v.getLsbD (2 * b.val)
        else v.getLsbD i := by
  by_cases hi : i < 16
  · simp [exchangePBits, hi]
  · have hb := b.isLt
    have h1 : i ≠ 2 * b.val := by omega
    have h2 : i ≠ 2 * b.val + 1 := by omega
    have h3 : v.getLsbD i = false := BitVec.getLsbD_of_ge v i (by omega)
    simp [h1, h2, h3, BitVec.getLsbD_of_ge _ i (Nat.le_of_not_lt hi)]

/-- Two register files of endpoints that agree at every index are equal. -/
theorem EndpointFile.ext_get {f g : EndpointFile}
    (h : ∀ (b : Subset) (e : EndNo) (c : Chan), f[b][e][c] = g[b][e][c]) : f = g := by
  ext b hb e he c hc : 3
  exact h ⟨b, hb⟩ ⟨e, he⟩ ⟨c, hc⟩

/-- Two palettes that agree at every index are equal. -/
theorem PaletteFile.ext_get {f g : PaletteFile}
    (h : ∀ (b : Subset) (k : Entry) (c : Chan), f[b][k][c] = g[b][k][c]) : f = g := by
  ext b hb k hk c hc : 3
  exact h ⟨b, hb⟩ ⟨k, hk⟩ ⟨c, hc⟩

/-- Two index files that agree at every index are equal. -/
theorem IndexFile.ext_get {f g : IndexFile} (h : ∀ (t : Stream) (p : Pixel), f[t][p] = g[t][p]) :
    f = g := by
  ext t ht p hp : 2
  exact h ⟨t, ht⟩ ⟨p, hp⟩

end Sys2Proof.Machine
end

