-- ==== Sys2Proof/Laws/Flags.lean ====
section
/-! SUPPORT. The comparisons and flags, said once in the spec's words: ORDER's lexicographic order and
equality (40_quantize.md rule R119), DELTA's overflow (rule R120), and what DELTA, ORDER, FIX and KEEPMIN
leave in the fields they may change. -/

namespace Sys2Proof.Machine

theorem mem_chans {m : Mask} {c : Chan} : c ∈ chans m ↔ inMask m c = true := by
  have : ∀ c : Chan, c ∈ allChans := by decide
  simp [chans, this]

/-- The channels of a mask come in ascending order. -/
theorem chans_ascending (m : Mask) : (chans m).Pairwise (· < ·) :=
  List.Pairwise.filter _ (by decide)

/-- The first differing element decides. -/
theorem lexLess_map_iff {l : List Chan} (hl : l.Pairwise (· < ·)) (a b : Chan → Nat) :
    lexLess (l.map a) (l.map b) = true
      ↔ ∃ c ∈ l, a c < b c ∧ ∀ c' ∈ l, c' < c → a c' = b c' := by
  induction l with
  | nil => simp [lexLess]
  | cons x l ih =>
    have hx : ∀ c ∈ l, x < c := (List.pairwise_cons.mp hl).1
    simp only [List.map_cons, lexLess]
    rcases Nat.lt_trichotomy (a x) (b x) with h | h | h
    · rw [if_pos h]
      refine ⟨fun _ => ⟨x, List.mem_cons_self, h, fun c' hc' hlt => ?_⟩, fun _ => rfl⟩
      rcases List.mem_cons.mp hc' with rfl | hc
      · exact absurd hlt (lt_irrefl _)
      · exact absurd hlt (lt_asymm (hx c' hc))
    · rw [if_neg (by omega), if_neg (by omega), ih (List.pairwise_cons.mp hl).2]
      constructor
      · rintro ⟨c, hc, hlt, hall⟩
        refine ⟨c, List.mem_cons_of_mem _ hc, hlt, fun c' hc' h' => ?_⟩
        rcases List.mem_cons.mp hc' with rfl | hc''
        · exact h
        · exact hall c' hc'' h'
      · rintro ⟨c, hc, hlt, hall⟩
        rcases List.mem_cons.mp hc with rfl | hc'
        · omega
        · exact ⟨c, hc', hlt, fun c' h1 h2 => hall c' (List.mem_cons_of_mem _ h1) h2⟩
    · rw [if_neg (by omega), if_pos h]
      refine ⟨fun hf => (Bool.false_ne_true hf).elim, ?_⟩
      rintro ⟨c, hc, hlt, hall⟩
      rcases List.mem_cons.mp hc with rfl | hc'
      · omega
      · have := hall x List.mem_cons_self (hx c hc')
        omega

/-- When ORDER exchanges (R119). -/
theorem State.endpointsRise_iff (s : State) (b : Subset) (m : Mask) :
    s.endpointsRise b m = true ↔ ∃ c : Chan, inMask m c = true ∧
      (s.readEQ b 0 c).toNat < (s.readEQ b 1 c).toNat ∧
      ∀ c' : Chan, c' < c → inMask m c' → s.readEQ b 0 c' = s.readEQ b 1 c' := by
  unfold State.endpointsRise State.eqList
  rw [lexLess_map_iff (chans_ascending m)]
  simp only [mem_chans, ← BitVec.toNat_inj]
  exact exists_congr fun c => and_congr_right fun _ => and_congr_right fun _ =>
    ⟨fun h c' h1 h2 => h c' h2 h1, fun h c' h1 h2 => h c' h2 h1⟩

/-- The value ORDER writes to EQL (R119). -/
theorem State.endpointsEqual_iff (s : State) (b : Subset) (m : Mask) :
    s.endpointsEqual b m = true
      ↔ ∀ c : Chan, inMask m c → s.readEQ b 0 c = s.readEQ b 1 c := by
  simp [State.endpointsEqual, State.eqList, mem_chans, ← BitVec.toNat_inj]

/-- When DELTA marks an overflow (R120). -/
theorem State.anyDeltaOverflows_iff (s : State) (b : Subset) (e : EndNo) (m : Mask) (n : Nat) :
    s.anyDeltaOverflows b e m n = true
      ↔ ∃ c : Chan, inMask m c = true ∧ (s.deltaOf b e c < deltaMin n ∨ deltaMax n < s.deltaOf b e c) := by
  simp [State.anyDeltaOverflows, deltaOverflows, mem_chans]

/-- The deltas DELTA writes, overflow or not (R120). -/
@[simp] theorem State.deltaCode_ed (s : State) (b : Subset) (e : EndNo) (m : Mask) (n : Nat) :
    (s.deltaCode b e m n).ed = s.ed.write b e m fun c => .ofNat (deltaField n (s.deltaOf b e c)) := by
  unfold State.deltaCode State.markOverflow
  split <;> rfl

/-- DELTA changes ED, DOVF and ERR alone (R120). -/
theorem State.deltaCode_frame (s : State) (b : Subset) (e : EndNo) (m : Mask) (n : Nat) :
    s.deltaCode b e m n
      = { s with
          ed := s.ed.write b e m fun c => .ofNat (deltaField n (s.deltaOf b e c))
          status := { s.status with dovf := s.status.dovf || s.anyDeltaOverflows b e m n }
          err := if s.anyDeltaOverflows b e m n then errInf else s.err } := by
  unfold State.deltaCode State.markOverflow
  split
  · rename_i h
    simp [h]
  · rename_i h
    simp [h]

/-- ORDER exchanges when endpoint 0 is the less, and writes EQL (R119). -/
theorem State.orderEndpoints_of_rise {s : State} {b : Subset} {m : Mask} (h : s.endpointsRise b m = true) :
    s.orderEndpoints b m = (s.swapEndpoints b m).setEql (s.endpointsEqual b m) := by
  simp [State.orderEndpoints, h]

theorem State.orderEndpoints_of_not_rise {s : State} {b : Subset} {m : Mask}
    (h : s.endpointsRise b m = false) : s.orderEndpoints b m = s.setEql (s.endpointsEqual b m) := by
  simp [State.orderEndpoints, h]

/-- FIX with a high anchor (R161). -/
theorem State.fixAnchor_of_high {s : State} {t : Stream} {b : Subset} {m : Mask} {iw : Nat}
    (h : s.anchorHigh t b iw = true) :
    s.fixAnchor t b m iw
      = { s.swapEndpoints b m with
          pal := s.pal.reverse b m (2 ^ iw - 1)
          ix := s.ix.write t (fun p => s.subsetAt p = b) fun p => complementIndex iw s.ix[t][p] } := by
  simp [State.fixAnchor, h]

/-- FIX with the anchor's top bit clear (R161). -/
theorem State.fixAnchor_of_low {s : State} {t : Stream} {b : Subset} {m : Mask} {iw : Nat}
    (h : s.anchorHigh t b iw = false) : s.fixAnchor t b m iw = s := by
  simp [State.fixAnchor, h]

/-- KEEPMIN keeps the candidate (R191). -/
theorem State.keepMin_of_wins {s : State} (h : s.candidateWins = true) :
    s.keepMin = { s with bestErr := s.err, bestOb := s.ob, status := { s.status with bvalid := true } } := by
  simp [State.keepMin, h]

/-- KEEPMIN keeps what it held (R191). -/
theorem State.keepMin_of_not_wins {s : State} (h : s.candidateWins = false) : s.keepMin = s := by
  simp [State.keepMin, h]

end Sys2Proof.Machine
end

