-- ==== Sys2Proof/Machine/HostFlows.lean ====
section
/-! DEFINITION. The host contract (46_format_flows.md rules R210 to R245, 20_memory.md rule R66): what a
host computes and which commands it issues for each format. "A rule here is a duty of the host, not a
behaviour of the hardware" (R210), so nothing here is part of `exec` or `step`; the open host parameters
(F2U8, F2H, LUMA, the partition and anchor tables, the BC6H layouts and tiers, the BC7 rotations) are
arguments, with the spec's defaults where it gives them (log 13). -/

namespace Sys2Proof.Machine

/-! ### The front end -/

/-- `ceil(size / 4)`: blocks per row or column (R66). -/
def blocksPer (size : Nat) : Nat := (size + 3) / 4

/-- The address of the block at block coordinate (`bx`, `row`) in the output buffer (R66). -/
def slotAddress (obase width bytesPerBlock bx row : Nat) : Nat :=
  obase + (row * blocksPer width + bx) * bytesPerBlock

/-- Column and row of the source sample of pixel `p`, clamped at the image's edges (R15, R211). -/
def samplePoint (width height bx row : Nat) (p : Pixel) : Nat × Nat :=
  (min (4 * bx + p.val % 4) (width - 1), min (4 * row + p.val / 4) (height - 1))

/-- The default F2U8 (R212): `floor(255·clamp(v, 0, 1) + 0.5)`. -/
def defaultF2U8 (v : Rat) : Nat := (255 * max 0 (min v 1) + 1 / 2).floor.toNat

/-- Round to the nearest integer, ties to even. -/
def roundEven (v : Rat) : Nat :=
  let n := v.floor.toNat
  let r := v - n
  if r < 1 / 2 then n else if 1 / 2 < r then n + 1 else if n % 2 = 0 then n else n + 1

/-- The greatest `k` in `0..n` with `2^k ≤ v`, or 0. -/
def binade (v : Rat) : Nat → Nat
  | 0 => 0
  | k + 1 => if (2 : Rat) ^ (k + 1) ≤ v then k + 1 else binade v k

/-- The default F2H (R212): the binary16 pattern nearest to `max(v, 0)`, ties to even, saturating at the
largest finite half; `none` is NaN. In units of 2^-24 a pattern of exponent field `k + 1` counts steps
of `2^k`. -/
def defaultF2H : Option Rat → Nat
  | none => 0
  | some v =>
    let u := max v 0 * 2 ^ 24
    let k := binade (u / 1024) 31
    min (k * 1024 + roundEven (u / 2 ^ k)) 0x7BFF

/-- The 16 pixels as the host holds them after conversion (R212). -/
abbrev PixelBlock := Pixel → Chan → Half

/-- An endpoint as the host derives it. -/
abbrev Colour := Chan → Half

/-- The pixels of a subset under the masks of the partition in use (R42). -/
def maskPixels (pm1 pm2 : Half) (b : Subset) : List Pixel :=
  allPixels.filter fun p => maskSubset pm1 pm2 p = b

/-- The smallest value of a channel over some pixels. -/
def leastOf (px : PixelBlock) (ps : List Pixel) (c : Chan) : Nat :=
  ps.foldl (fun a p => min a (px p c).toNat) 0xFFFF

/-- The largest value of a channel over some pixels. -/
def mostOf (px : PixelBlock) (ps : List Pixel) (c : Chan) : Nat :=
  ps.foldl (fun a p => max a (px p c).toNat) 0

/-- The 1/16 inset of the bounding box (R213). -/
def insetOf (px : PixelBlock) (ps : List Pixel) (c : Chan) : Nat :=
  (mostOf px ps c - leastOf px ps c) >>> 4

/-- `lo`, the low corner of the inset bounding box (R213). -/
def boxLow (px : PixelBlock) (ps : List Pixel) : Colour :=
  fun c => BitVec.ofNat 16 (leastOf px ps c + insetOf px ps c)

/-- `hi`, the high corner of the inset bounding box (R213). -/
def boxHigh (px : PixelBlock) (ps : List Pixel) : Colour :=
  fun c => BitVec.ofNat 16 (mostOf px ps c - insetOf px ps c)

/-- BC4's maximum and minimum, perturbed when equal (R214, R220). -/
def channelRange (px : PixelBlock) (c : Chan) : Half × Half :=
  let mx := mostOf px allPixels c
  let mn := leastOf px allPixels c
  if mx ≠ mn then (BitVec.ofNat 16 mx, BitVec.ofNat 16 mn)
  else if mx < 255 then (BitVec.ofNat 16 (mx + 1), BitVec.ofNat 16 mn)
  else (BitVec.ofNat 16 mx, 254)

/-- The first pixel of a list at which `f` is least (R214: "first in raster order"). -/
def leastPixel (f : Pixel → Nat) : List Pixel → Pixel
  | [] => 0
  | p :: ps => ps.foldl (fun a q => if f q < f a then q else a) p

/-- The first pixel of a list at which `f` is greatest (R214). -/
def mostPixel (f : Pixel → Nat) : List Pixel → Pixel
  | [] => 0
  | p :: ps => ps.foldl (fun a q => if f a < f q then q else a) p

/-- BC6H's endpoints, the darkest and the brightest pixel under the host's LUMA (R214). -/
def lumaEndpoints (luma : Half → Half → Half → Nat) (px : PixelBlock) (ps : List Pixel) : Colour × Colour :=
  let f := fun p => luma (px p 0) (px p 1) (px p 2)
  (px (leastPixel f ps), px (mostPixel f ps))

/-! ### Pieces shared by the flows -/

/-- Load the channels of a list, pixel by pixel (R215, R223, R225). -/
def loadPixels (px : PixelBlock) (cs : List Chan) : List Instr :=
  allPixels.flatMap fun p => cs.map fun c => asmLdpx p c (px p c)

/-- Load an endpoint's channels. -/
def loadEndpoint (b : Subset) (e : EndNo) (cs : List Chan) (v : Colour) : List Instr :=
  cs.map fun c => asmLder b e c (v c)

/-- `CFG`'s code of a format (R40). -/
def targetCode : Target → Nat
  | .bc1 => 0
  | .bc3 => 1
  | .bc4 => 2
  | .bc5 => 3
  | .bc6h => 4
  | .bc7 => 5

/-- `LDC CFG` for a format and a quality level (R40, R244). -/
def selectFormat (f : Target) (quality : Nat) : Instr :=
  asmLdc .cfg (BitVec.ofNat 16 (16 * quality + targetCode f))

/-- One block as the dispatcher runs it: the format, the address, the flow (R244). -/
def blockProgram (f : Target) (quality : Nat) (addr : BitVec 32) (flow : List Instr) : List Instr :=
  selectFormat f quality :: pseudoLda addr ++ flow

/-- The channels of a colour without alpha, in order. -/
def rgbChans : List Chan := [0, 1, 2]

/-! ### BC1, BC4, BC5, BC3 -/

/-- Endpoints to 5-6-5, in the order of R215, with QNTL or UNQL. -/
def quantize565 (k : BitVec 2 → BitVec 1 → Mask → BitVec 5 → Instr) : List Instr :=
  [asmQ k 0 0 maskRb 5, asmQ k 0 0 (maskOf 1) 6, asmQ k 0 1 maskRb 5, asmQ k 0 1 (maskOf 1) 6]

/-- The lines of R215 from LDER3 to PUTIX, every offset increased by `base` (R215, R225). `equal` is the
host's reading of `STATUS.EQL` after ORDER. -/
def bc1Body (base : Nat) (e0 e1 : Colour) (equal : Bool) : List Instr :=
  loadEndpoint 0 0 rgbChans e0 ++ loadEndpoint 0 1 rgbChans e1
    ++ quantize565 .qntl ++ [asmO .order 0 maskRgb]
    ++ (if equal then []
        else quantize565 .unql ++ [asmO .palt 0 maskRgb, asmX .idxn 0 0 maskRgb 2])
    ++ [asmPut base 5 (.eq 0 0 2), asmPut (base + 5) 6 (.eq 0 0 1), asmPut (base + 11) 5 (.eq 0 0 0),
        asmPut (base + 16) 5 (.eq 0 1 2), asmPut (base + 21) 6 (.eq 0 1 1), asmPut (base + 27) 5 (.eq 0 1 0),
        asmPutix 0 (base + 32) 2 0]

/-- The BC1 flow (R215). -/
def bc1Flow (px : PixelBlock) (e0 e1 : Colour) (equal : Bool) : List Instr :=
  .blkinit :: loadPixels px rgbChans ++ bc1Body 0 e0 e1 equal ++ [emitOB]

/-- The lines of R223 from LDER to PUTIX for channel `c` at base bit `base`. -/
def bc4Body (c : Chan) (base : Nat) (mx mn : Half) : List Instr :=
  [asmLder 0 0 c mx, asmLder 0 1 c mn,
   asmQ .qntl 0 0 (maskOf c) 8, asmQ .qntl 0 1 (maskOf c) 8, asmO .order 0 (maskOf c),
   asmQ .unql 0 0 (maskOf c) 8, asmQ .unql 0 1 (maskOf c) 8, asmO .pals 0 (maskOf c),
   asmX .idxn 0 0 (maskOf c) 3,
   asmPut base 8 (.eq 0 0 c), asmPut (base + 8) 8 (.eq 0 1 c), asmPutix 0 (base + 16) 3 0]

/-- The BC4 flow (R223). -/
def bc4Flow (px : PixelBlock) (mx mn : Half) : List Instr :=
  .blkinit :: loadPixels px [0] ++ bc4Body 0 0 mx mn ++ [emitOB]

/-- The BC5 flow: the R block in the first eight bytes, then the G block (R224). -/
def bc5Flow (px : PixelBlock) (r g : Half × Half) : List Instr :=
  .blkinit :: loadPixels px [0] ++ bc4Body 0 0 r.1 r.2
    ++ loadPixels px [1] ++ bc4Body 1 64 g.1 g.2 ++ [emitOB]

/-- The BC3 flow: the alpha block, then the colour block (R225). -/
def bc3Flow (px : PixelBlock) (a : Half × Half) (e0 e1 : Colour) (equal : Bool) : List Instr :=
  .blkinit :: loadPixels px allChans ++ bc4Body 3 0 a.1 a.2 ++ bc1Body 64 e0 e1 equal ++ [emitOB]

/-! ### The host's tables and the candidate search -/

/-- The partition and anchor tables, open parameters of the host (R243). Entry 0 of `part2` and of
`anchor2` is never read: the rule gives it (`PartitionTables.mask2`, `PartitionTables.anchorOf2`). -/
structure PartitionTables where
  part2 : Nat → Half
  part3 : Nat → Half × Half
  anchor2 : Nat → Pixel
  anchor3a : Nat → Pixel
  anchor3b : Nat → Pixel

/-- `PART2[i]`: partition 0 is the pattern `0xCCCC`, no other entry is assumed (R243). -/
def PartitionTables.mask2 (tb : PartitionTables) (i : Nat) : Half :=
  if i = 0 then 0xCCCC else tb.part2 i

/-- `ANCHOR2[i]`: pixel 15 for partition 0, no other entry is assumed (R243). -/
def PartitionTables.anchorOf2 (tb : PartitionTables) (i : Nat) : Pixel :=
  if i = 0 then 15 else tb.anchor2 i

/-- `PM1` and `PM2` of a partition of `ns` subsets (R41, R243). -/
def partitionMasks (tb : PartitionTables) (ns i : Nat) : Half × Half :=
  match ns with
  | 2 => (tb.mask2 i, 0)
  | 3 => tb.part3 i
  | _ => (0, 0)

/-- The anchor of a subset in a partition of `ns` subsets: pixel 0 for subset 0 and for a subset that the
partition does not have (R43, R160, R243). -/
def partitionAnchor (tb : PartitionTables) (ns i : Nat) (b : Subset) : Pixel :=
  match ns, b with
  | 2, 1 => tb.anchorOf2 i
  | 3, 1 => tb.anchor3a i
  | 3, 2 => tb.anchor3b i
  | _, _ => 0

/-- `ANCH` of a partition of `ns` subsets (R43, R243). -/
def partitionAnchors (tb : PartitionTables) (ns i : Nat) : Half :=
  BitVec.ofNat 16 ((partitionAnchor tb ns i 1).val + 16 * (partitionAnchor tb ns i 2).val)

/-- The condition on a host's tables: `subset(anchor(s)) = s` for every subset of every partition, which
for subset 0 says that pixel 0 lies in it (R243, R296, U25). -/
def PartitionTables.Legal (tb : PartitionTables) : Prop :=
  ∀ ns, ns ≤ 3 → ∀ i, i < 64 → ∀ b : Subset, b.val < ns →
    maskSubset (partitionMasks tb ns i).1 (partitionMasks tb ns i).2 (partitionAnchor tb ns i b) = b

/-- Load `PM1` and `PM2` for a partition (R235, R241). -/
def selectMasks (tb : PartitionTables) (ns i : Nat) : List Instr :=
  [asmLdc .pm1 (partitionMasks tb ns i).1, asmLdc .pm2 (partitionMasks tb ns i).2]

/-- Load `ANCH` for a partition (R235, R242). -/
def selectAnchors (tb : PartitionTables) (ns i : Nat) : List Instr :=
  [asmLdc .anch (partitionAnchors tb ns i)]

/-- One candidate of the fold (R230). -/
def candidate (body : List Instr) : List Instr := .candinit :: body ++ [.keepmin]

/-- The search as commands, pixels loaded once (R230). -/
def searchFlow (load : List Instr) (bodies : List (List Instr)) : List Instr :=
  .blkinit :: load ++ bodies.flatMap candidate ++ [emitBest]

/-- The subsets of a mode. -/
def subsetList (ns : Nat) : List Subset := ([0, 1, 2] : List Subset).take ns

/-- The endpoints of a mode, in the order of R237. -/
def endList (ns : Nat) : List (Subset × EndNo) := (subsetList ns).flatMap fun b => [(b, 0), (b, 1)]

/-! ### BC7 -/

/-- One row of the BC7 mode table (R232). -/
structure Bc7Mode where
  mode : Nat
  ns : Nat
  pb : Nat
  rb : Nat
  isb : Nat
  cb : Nat
  ab : Nat
  epb : Nat
  spb : Nat
  ib : Nat
  ib2 : Nat
  deriving DecidableEq, Repr

/-- The eight BC7 modes (R232). -/
def bc7Modes : List Bc7Mode :=
  [ ⟨0, 3, 4, 0, 0, 4, 0, 1, 0, 3, 0⟩,
    ⟨1, 2, 6, 0, 0, 6, 0, 0, 1, 3, 0⟩,
    ⟨2, 3, 6, 0, 0, 5, 0, 0, 0, 2, 0⟩,
    ⟨3, 2, 6, 0, 0, 7, 0, 1, 0, 2, 0⟩,
    ⟨4, 1, 0, 2, 1, 5, 6, 0, 0, 2, 3⟩,
    ⟨5, 1, 0, 2, 0, 7, 8, 0, 0, 2, 2⟩,
    ⟨6, 1, 0, 0, 0, 7, 7, 1, 0, 4, 0⟩,
    ⟨7, 2, 6, 0, 0, 5, 5, 1, 0, 2, 0⟩ ]

/-- The row of a mode number. -/
def bc7Mode (n : Nat) : Bc7Mode := bc7Modes.getD n ⟨6, 1, 0, 0, 0, 7, 7, 1, 0, 4, 0⟩

/-- The start bits of the field groups of a mode (R237): partition, rotation, selector, R, G, B, A, p-bits,
primary indices, secondary indices, and the bit after the last field. Each field follows the one before.
DEDUCED (log 18): for mode 7 the rule's table prints the partition at bit 6, inside the 8 mode bits, where
the rule's text and R238's sum 8+6+80+4+30 give 8, and so does this definition. -/
def bc7Starts (m : Bc7Mode) : List Nat :=
  let colour := 2 * m.ns * m.cb
  [m.pb, m.rb, m.isb, colour, colour, colour, 2 * m.ns * m.ab, m.epb * 2 * m.ns + m.spb * m.ns,
    16 * m.ib - m.ns, if m.ib2 = 0 then 0 else 16 * m.ib2 - 1].scanl (· + ·) (m.mode + 1)

/-- One start bit: 0 partition, 1 rotation, 2 selector, 3 R, 4 G, 5 B, 6 A, 7 p-bits, 8 primary indices,
9 secondary indices, 10 the end (R237). -/
def bc7Start (m : Bc7Mode) (g : Nat) : Nat := (bc7Starts m).getD g 0

/-- The modes of a quality tier, in list order (R233). -/
def bc7Tier (q : Nat) : List Nat :=
  [6] ++ (if 1 ≤ q then [1, 3, 5] else []) ++ (if 2 ≤ q then [0, 2, 4, 7] else [])

/-- One member of the BC7 candidate list (R230, R233, R234). -/
structure Bc7Candidate where
  mode : Nat
  partition : Nat
  rotation : Nat
  selector : Nat
  parity : Nat
  deriving DecidableEq, Repr

/-- The default of the host parameter `BC7_ROT`: all four rotations at every quality (R233, U27). -/
def defaultBc7Rot : Nat → List Nat := fun _ => [0, 1, 2, 3]

/-- The rotation codes of a mode, ascending; `rots` is the set `BC7_ROT[q]` (R233). -/
def bc7Rotations (rots : List Nat) (m : Bc7Mode) : List Nat :=
  if m.rb = 0 then [0] else (List.range 4).filter (rots.contains ·)

/-- The parity codes of a mode, ascending (R234). -/
def bc7Parities (m : Bc7Mode) : List Nat :=
  List.range (if m.epb = 1 then 4 else if m.spb = 1 then 2 else 1)

/-- The candidates of one mode, in the order of R233: partitions ascending, then rotation, then index
selector, then parity code. -/
def bc7ModeCandidates (rots : List Nat) (m : Bc7Mode) : List Bc7Candidate :=
  (List.range (2 ^ m.pb)).flatMap fun part =>
  (bc7Rotations rots m).flatMap fun rot =>
  (List.range (2 ^ m.isb)).flatMap fun sel =>
  (bc7Parities m).map fun k => ⟨m.mode, part, rot, sel, k⟩

/-- The candidate list of a quality level (R233). -/
def bc7Candidates (q : Nat) (rot : Nat → List Nat := defaultBc7Rot) : List Bc7Candidate :=
  (bc7Tier q).flatMap fun n => bc7ModeCandidates (rot q) (bc7Mode n)

/-- The value of `PBITS` for a parity code (R234). -/
def bc7PBits (m : Bc7Mode) (k : Nat) : Half :=
  BitVec.ofNat 16 (if m.epb = 1 then k * [0, 1, 5, 21].getD m.ns 0 else 15 * k)

/-- The channel that a rotation code exchanges with alpha (R236). -/
def rotated (rot : Nat) (c : Chan) : Chan :=
  if rot = 0 then c
  else if c.val = 3 then Fin.ofNat 4 (rot - 1)
  else if c.val = rot - 1 then 3
  else c

/-- The pixels with alpha exchanged, as the host loads them (R236). -/
def rotatePixels (rot : Nat) (px : PixelBlock) : PixelBlock := fun p c => px p (rotated rot c)

/-- The mode bits, the partition, the rotation and the selector of a candidate (R235, R237). -/
def bc7Header (m : Bc7Mode) (cd : Bc7Candidate) : List Instr :=
  pseudoPutc 0 (m.mode + 1) (BitVec.ofNat 16 (2 ^ m.mode))
    ++ (if m.pb = 0 then [] else pseudoPutc (bc7Start m 0) m.pb (BitVec.ofNat 16 cd.partition))
    ++ (if m.rb = 0 then [] else pseudoPutc (bc7Start m 1) m.rb (BitVec.ofNat 16 cd.rotation))
    ++ (if m.isb = 0 then [] else pseudoPutc (bc7Start m 2) m.isb (BitVec.ofNat 16 cd.selector))

/-- Pack one channel's endpoint fields (R237). -/
def bc7Group (m : Bc7Mode) (c : Chan) : List Instr :=
  let w := if c.val = 3 then m.ab else m.cb
  if w = 0 then []
  else (endList m.ns).map fun (b, e) =>
    asmPut (bc7Start m (3 + c.val) + (2 * b.val + e.val) * w) w (.eq b e c)

/-- Pack the p-bits, one per endpoint or one per subset (R237, R238). -/
def bc7PackPBits (m : Bc7Mode) : List Instr :=
  if m.epb = 1 then
    (endList m.ns).map fun (b, e) => asmPut (bc7Start m 7 + 2 * b.val + e.val) 1 (.pb b e)
  else if m.spb = 1 then
    (subsetList m.ns).map fun b => asmPut (bc7Start m 7 + b.val) 1 (.pb b 0)
  else []

/-- The commands of a single-stream candidate from its quantize commands on (R235). -/
def bc7Single (m : Bc7Mode) (cd : Bc7Candidate) : List Instr :=
  let mask := if m.ab = 0 then maskRgb else maskRgba
  let parity := m.epb = 1 ∨ m.spb = 1
  ((endList m.ns).map fun (b, e) => asmQ (if parity then .qntlp else .qntl) b e mask m.cb)
    ++ ((endList m.ns).map fun (b, e) => asmQ (if parity then .unqlp else .unql) b e mask m.cb)
    ++ ((subsetList m.ns).map fun b => asmL .palw b mask m.ib)
    ++ ((subsetList m.ns).map fun b => asmX .idxp 0 b mask m.ib)
    ++ ((subsetList m.ns).map fun b => asmX .fix 0 b mask m.ib)
    ++ bc7Header m cd ++ allChans.flatMap (bc7Group m) ++ bc7PackPBits m
    ++ [asmPutix 0 (bc7Start m 8) m.ib m.ns]

/-- The commands of a dual-stream candidate (modes 4 and 5) from its quantize commands on (R236). -/
def bc7Dual (m : Bc7Mode) (cd : Bc7Candidate) : List Instr :=
  let iwc := if cd.selector = 0 then m.ib else m.ib2
  let iwa := if cd.selector = 0 then m.ib2 else m.ib
  let first : Stream := if cd.selector = 0 then 0 else 1
  let second : Stream := if cd.selector = 0 then 1 else 0
  [asmQ .qntl 0 0 maskRgb m.cb, asmQ .qntl 0 1 maskRgb m.cb,
   asmQ .qntl 0 0 (maskOf 3) m.ab, asmQ .qntl 0 1 (maskOf 3) m.ab,
   asmQ .unql 0 0 maskRgb m.cb, asmQ .unql 0 1 maskRgb m.cb,
   asmQ .unql 0 0 (maskOf 3) m.ab, asmQ .unql 0 1 (maskOf 3) m.ab,
   asmL .palw 0 maskRgb iwc, asmL .palw 0 (maskOf 3) iwa,
   asmX .idxp 0 0 maskRgb iwc, asmX .idxp 1 0 (maskOf 3) iwa,
   asmX .fix 0 0 maskRgb iwc, asmX .fix 1 0 (maskOf 3) iwa]
    ++ bc7Header m cd ++ allChans.flatMap (bc7Group m)
    ++ [asmPutix first (bc7Start m 8) m.ib 1, asmPutix second (bc7Start m 9) m.ib2 1]

/-- The commands of a candidate from its quantize commands on (R235, R236). -/
def bc7Code (m : Bc7Mode) (cd : Bc7Candidate) : List Instr :=
  if m.ib2 = 0 then bc7Single m cd else bc7Dual m cd

/-- The endpoints of every subset of a candidate, loaded (R213, R235). -/
def bc7LoadEndpoints (tb : PartitionTables) (px : PixelBlock) (m : Bc7Mode) (cd : Bc7Candidate) :
    List Instr :=
  let masks := partitionMasks tb m.ns cd.partition
  let cs := if m.ab = 0 then rgbChans else allChans
  (subsetList m.ns).flatMap fun b =>
    let ps := maskPixels masks.1 masks.2 b
    loadEndpoint b 0 cs (boxLow px ps) ++ loadEndpoint b 1 cs (boxHigh px ps)

/-- The whole of a candidate between CANDINIT and KEEPMIN (R235); `px` is already rotated. -/
def bc7Body (tb : PartitionTables) (px : PixelBlock) (cd : Bc7Candidate) : List Instr :=
  let m := bc7Mode cd.mode
  selectMasks tb m.ns cd.partition ++ selectAnchors tb m.ns cd.partition
    ++ (if m.epb = 1 ∨ m.spb = 1 then [asmLdc .pbits (bc7PBits m cd.parity)] else [])
    ++ bc7LoadEndpoints tb px m cd ++ bc7Code m cd

/-- The candidates of a list, the pixels loaded again whenever the rotation changes (R230, R236). -/
def bc7Fold (tb : PartitionTables) (px : PixelBlock) : Option Nat → List Bc7Candidate → List Instr
  | _, [] => []
  | loaded, cd :: rest =>
    let rpx := rotatePixels cd.rotation px
    (if loaded = some cd.rotation then [] else loadPixels rpx allChans)
      ++ candidate (bc7Body tb rpx cd) ++ bc7Fold tb px (some cd.rotation) rest

/-- The BC7 flow of a block at a quality level (R230, R233, R235, R236). -/
def bc7Flow (tb : PartitionTables) (q : Nat) (px : PixelBlock) (rot : Nat → List Nat := defaultBc7Rot) :
    List Instr :=
  .blkinit :: bc7Fold tb px none (bc7Candidates q rot) ++ [emitBest]

/-! ### BC6H -/

/-- One PUT of a BC6H layout: source, shift, width, offset (R242). -/
structure PutTuple where
  src : Source
  sh : Nat
  width : Nat
  off : Nat
  deriving DecidableEq, Repr

/-- A BC6H mode as the host holds it: the open parameter `BC6H_LAYOUT[mode]` with its widths (R242).
`deltaBits` 0 means untransformed; `partitionOff` is the model's (log 19). -/
structure Bc6hMode where
  modeValue : Nat
  modeBits : Nat
  ns : Nat
  endBits : Nat
  deltaBits : Nat
  partitionOff : Nat
  indexOff : Nat
  layout : List PutTuple
  deriving DecidableEq, Repr

/-- The baseline mode, single subset, 10 bits, untransformed (R241). -/
def bc6hBaseline : Bc6hMode where
  modeValue := 0x03
  modeBits := 5
  ns := 1
  endBits := 10
  deltaBits := 0
  partitionOff := 0
  indexOff := 65
  layout :=
    [⟨.eq 0 0 0, 0, 10, 5⟩, ⟨.eq 0 0 1, 0, 10, 15⟩, ⟨.eq 0 0 2, 0, 10, 25⟩,
     ⟨.eq 0 1 0, 0, 10, 35⟩, ⟨.eq 0 1 1, 0, 10, 45⟩, ⟨.eq 0 1 2, 0, 10, 55⟩]

/-- The commands of a BC6H candidate from its quantize commands on (R241, R242). DESIGN CHOICE (log 19):
the spec does not say where a mode other than the baseline has its mode bits and its partition index;
here the mode bits start at bit 0, as the baseline's do, and a two-subset mode's partition index is one
5-bit constant at the mode's `partitionOff`, packed between the mode bits and the layout. -/
def bc6hCode (m : Bc6hMode) (partition : Nat) : List Instr :=
  let iw := if m.ns = 1 then 4 else 3
  ((endList m.ns).map fun (b, e) => asmQ .qnth b e maskRgb m.endBits)
    ++ ((endList m.ns).map fun (b, e) => asmQ .unqh b e maskRgb m.endBits)
    ++ ((subsetList m.ns).map fun b => asmL .palh b maskRgb iw)
    ++ ((subsetList m.ns).map fun b => asmX .idxp 0 b maskRgb iw)
    ++ ((subsetList m.ns).map fun b => asmX .fix 0 b maskRgb iw)
    ++ (if m.deltaBits = 0 then []
        else ((endList m.ns).drop 1).map fun (b, e) => asmQ .delta b e maskRgb m.deltaBits)
    ++ pseudoPutc 0 m.modeBits (BitVec.ofNat 16 m.modeValue)
    ++ (if m.ns = 1 then [] else pseudoPutc m.partitionOff 5 (BitVec.ofNat 16 partition))
    ++ (m.layout.map fun l => asmPut l.off l.width l.src l.sh)
    ++ [asmPutix 0 m.indexOff iw m.ns]

/-- The whole of a BC6H candidate between CANDINIT and KEEPMIN: one subset loads the masks alone (R241),
two subsets `ANCH` too (R242). -/
def bc6hBody (tb : PartitionTables) (luma : Half → Half → Half → Nat) (px : PixelBlock) (m : Bc6hMode)
    (partition : Nat) : List Instr :=
  let masks := partitionMasks tb m.ns partition
  selectMasks tb m.ns partition ++ (if m.ns = 1 then [] else selectAnchors tb m.ns partition)
    ++ ((subsetList m.ns).flatMap fun b =>
        let ends := lumaEndpoints luma px (maskPixels masks.1 masks.2 b)
        loadEndpoint b 0 rgbChans ends.1 ++ loadEndpoint b 1 rgbChans ends.2)
    ++ bc6hCode m partition

/-- The default of the host parameter `BC6H_TIER`, over the host's modes other than the baseline: quality 0
the baseline, quality 1 adds the single-subset transformed modes, quality 2 the two-subset modes (R240, U27). -/
def defaultBc6hTier (modes : List Bc6hMode) (q : Nat) : List Bc6hMode :=
  [bc6hBaseline]
    ++ (if 1 ≤ q then modes.filter fun m => m.ns = 1 && m.deltaBits != 0 else [])
    ++ (if 2 ≤ q then modes.filter fun m => m.ns = 2 else [])

/-- The condition on a host's tiers: "The baseline is first in every list" (R240). -/
def Bc6hTierLegal (tier : Nat → List Bc6hMode) : Prop := ∀ q, (tier q).head? = some bc6hBaseline

/-- The candidates of a quality level, a two-subset mode over all 32 partitions (R240). -/
def bc6hCandidates (tier : Nat → List Bc6hMode) (q : Nat) : List (Bc6hMode × Nat) :=
  (tier q).flatMap fun m => (List.range (if m.ns = 1 then 1 else 32)).map fun i => (m, i)

/-- The BC6H flow of a block; `modes` is `BC6H_LAYOUT`, the modes other than the baseline, and `tier` is
`BC6H_TIER`, whose lists hold the baseline too (R230, R240, R242). -/
def bc6hFlow (tb : PartitionTables) (luma : Half → Half → Half → Nat) (modes : List Bc6hMode) (q : Nat)
    (px : PixelBlock) (tier : Nat → List Bc6hMode := defaultBc6hTier modes) : List Instr :=
  searchFlow (loadPixels px rgbChans)
    ((bc6hCandidates tier q).map fun c => bc6hBody tb luma px c.1 c.2)

end Sys2Proof.Machine
end

