-- ==== Sys2Proof/Laws/HostFlows.lean ====
section
/-! SUPPORT. What the host's tables and tiers secure (46_format_flows.md R233, R240, R243). -/

namespace Sys2Proof.Machine

/-- The two anchors of a partition as `ANCH` holds them (R43). -/
theorem partitionAnchors_toNat (tb : PartitionTables) (ns i : Nat) :
    (partitionAnchors tb ns i).toNat
      = (partitionAnchor tb ns i 1).val + 16 * (partitionAnchor tb ns i 2).val := by
  unfold partitionAnchors
  have h1 := (partitionAnchor tb ns i 1).isLt
  have h2 := (partitionAnchor tb ns i 2).isLt
  simp only [BitVec.toNat_ofNat]
  omega

/-- A unit loaded from the tables has each subset's anchor where the tables say (R43, R160). -/
theorem anchor_of_tables (tb : PartitionTables) (ns i : Nat) (s : State) (b : Subset)
    (h : s.anch = partitionAnchors tb ns i) : s.anchor b = partitionAnchor tb ns i b := by
  have h1 := (partitionAnchor tb ns i 1).isLt
  have h2 := (partitionAnchor tb ns i 2).isLt
  have hn := partitionAnchors_toNat tb ns i
  match b with
  | 0 => unfold State.anchor partitionAnchor; split <;> simp_all
  | 1 => apply Fin.ext; simp only [State.anchor, h, hn, Fin.val_ofNat]; omega
  | 2 => apply Fin.ext; simp only [State.anchor, h, hn, Fin.val_ofNat]; omega

/-- R296 for a unit loaded from legal tables: every anchor lies in its subset. -/
theorem anchor_in_subset_of_legal_tables {tb : PartitionTables} (hl : tb.Legal) {ns i : Nat} {s : State}
    {b : Subset} (hns : ns ≤ 3) (hi : i < 64) (hb : b.val < ns)
    (h1 : s.pm1 = (partitionMasks tb ns i).1) (h2 : s.pm2 = (partitionMasks tb ns i).2)
    (ha : s.anch = partitionAnchors tb ns i) : s.subsetAt (s.anchor b) = b := by
  rw [anchor_of_tables tb ns i s b ha, State.subsetAt, h1, h2]
  exact hl ns hns i hi b hb

/-- The default tiers begin with the baseline (R240). -/
theorem defaultBc6hTier_legal (modes : List Bc6hMode) : Bc6hTierLegal (defaultBc6hTier modes) :=
  fun _ => rfl

/-- The rotations of a mode ascend, whatever the order in which the set is given (R233). -/
theorem bc7Rotations_ascend (rots : List Nat) (m : Bc7Mode) :
    (bc7Rotations rots m).Pairwise (· < ·) := by
  unfold bc7Rotations
  split
  · simp
  · exact List.Pairwise.filter _ (by decide)

/-- The defaults are nested, so the search of a higher quality covers that of a lower one (R231). -/
theorem bc7Tier_nested {q r : Nat} (h : q ≤ r) : bc7Tier q ⊆ bc7Tier r := by
  intro n hn
  simp only [bc7Tier, List.mem_append] at *
  split_ifs at * <;> first | omega | simp_all

/-- The same for BC6H (R231, R240). -/
theorem defaultBc6hTier_nested (modes : List Bc6hMode) {q r : Nat} (h : q ≤ r) :
    defaultBc6hTier modes q ⊆ defaultBc6hTier modes r := by
  intro n hn
  simp only [defaultBc6hTier, List.mem_append] at *
  split_ifs at * <;> first | omega | simp_all

end Sys2Proof.Machine
end

