-- ==== Sys2Proof/Laws/Index.lean ====
section
/-! SUPPORT. The index assigner's sums and choices in the spec's words (42_index.md rules R145 to R148):
what `firstLeast` chooses, and the distances, the error sum and the projection as sums over the channels
and the pixels. -/

namespace Sys2Proof.Machine

/-- All that `firstLeast` says: a number up to `n`, least there, and the first such (R146). -/
theorem firstLeast_spec (d : Nat → Nat) (n : Nat) :
    firstLeast d n ≤ n ∧ (∀ j, j ≤ n → d (firstLeast d n) ≤ d j) ∧
      ∀ j, j < firstLeast d n → d (firstLeast d n) < d j := by
  induction n with
  | zero => simp [firstLeast]
  | succ n ih =>
    obtain ⟨h1, h2, h3⟩ := ih
    unfold firstLeast
    split
    · rename_i h
      refine ⟨le_refl _, fun j hj => ?_, fun j hj => lt_of_lt_of_le h (h2 j (by omega))⟩
      rcases Nat.lt_or_ge n j with h' | h'
      · rw [show j = n + 1 by omega]
      · exact le_of_lt (lt_of_lt_of_le h (h2 j h'))
    · rename_i h
      refine ⟨by omega, fun j hj => ?_, h3⟩
      rcases Nat.lt_or_ge n j with h' | h'
      · rw [show j = n + 1 by omega]
        exact Nat.not_lt.mp h
      · exact h2 j h'

/-- A sum over the channels of a mask. -/
theorem sum_chans (m : Mask) (f : Chan → Int) :
    ((chans m).map f).sum = ∑ c : Chan, if inMask m c then f c else 0 := by
  unfold chans allChans
  cases h0 : inMask m 0 <;> cases h1 : inMask m 1 <;> cases h2 : inMask m 2 <;> cases h3 : inMask m 3 <;>
    simp [h0, h1, h2, h3, Fin.sum_univ_succ]

/-- The model's distance is the spec's sum of squares (R146). -/
theorem State.dist_eq (s : State) (b : Subset) (m : Mask) (p : Pixel) (k : Entry) :
    ((s.dist b m p k : Nat) : Int) = s.squaredError b m p k := by
  rw [State.squaredError, ← sum_chans m, State.dist]
  generalize chans m = l
  induction l with
  | nil => rfl
  | cons c l ih => simp [← ih, sqDist]

/-- The model's norm of the line is the spec's (R148). -/
theorem State.lineNorm_eq (s : State) (b : Subset) (m : Mask) (iw : Nat) :
    s.lineNorm b m iw = s.spanNorm b m (entryOf (2 ^ iw - 1)) := by
  rw [State.lineNorm, sum_chans, State.spanNorm]
  rfl

/-- The model's projection is the spec's (R148). -/
theorem State.lineDot_eq (s : State) (b : Subset) (m : Mask) (iw : Nat) (p : Pixel) :
    s.lineDot b m iw p = s.spanDot b m (entryOf (2 ^ iw - 1)) p := by
  rw [State.lineDot, sum_chans, State.spanDot]
  rfl

/-- The errors added, as a sum over all the pixels (R145). -/
theorem State.sum_pixelsOf (s : State) (b : Subset) (f : Pixel → Nat) :
    ((s.pixelsOf b).map f).sum = ∑ p : Pixel, if s.subsetAt p = b then f p else 0 := by
  rw [← sum_allPixels]
  unfold State.pixelsOf
  generalize allPixels = l
  induction l with
  | nil => rfl
  | cons a l ih =>
    by_cases h : s.subsetAt a = b
    · simp [h, ih]
    · simp [h, ih]

/-- An index names its palette entry. -/
theorem entryOf_eq (k : Nat) : (BitVec.ofNat 4 k).toFin = entryOf k := by
  apply Fin.ext
  simp [entryOf]

/-- What one assignment does (R145): the chosen indices in the subset's pixels, and their errors added. -/
theorem State.assignIndices_spec (s : State) (t : Stream) (b : Subset) (m : Mask) (choose : Pixel → Nat) :
    let u := s.assignIndices t b m choose
    u = { s with ix := u.ix, err := u.err } ∧
    (∀ (t' : Stream) (p : Pixel),
      u.ix[t'][p] = if t' = t ∧ s.subsetAt p = b then BitVec.ofNat 4 (choose p) else s.ix[t'][p]) ∧
    (u.err.toNat : Int) = min (2 ^ 64 - 1) (s.err.toNat + ∑ p : Pixel,
      if s.subsetAt p = b then s.squaredError b m p u.ix[t][p].toFin else 0) := by
  intro u
  have hix : ∀ (t' : Stream) (p : Pixel),
      u.ix[t'][p] = if t' = t ∧ s.subsetAt p = b then BitVec.ofNat 4 (choose p) else s.ix[t'][p] := by
    intro t' p
    simp only [u, State.assignIndices, IndexFile.write_get, decide_eq_true_eq]
  refine ⟨rfl, hix, ?_⟩
  have key : (∑ p : Pixel, if s.subsetAt p = b then s.squaredError b m p u.ix[t][p].toFin else 0 : Int)
      = ((∑ p : Pixel, if s.subsetAt p = b then s.dist b m p (entryOf (choose p)) else 0 : Nat) : Int) := by
    push_cast
    refine Finset.sum_congr rfl fun p _ => ?_
    by_cases hp : s.subsetAt p = b
    · rw [if_pos hp, if_pos hp, hix t p, if_pos ⟨rfl, hp⟩, entryOf_eq, State.dist_eq]
    · rw [if_neg hp, if_neg hp]
  rw [key]
  simp only [u, State.assignIndices, State.sum_pixelsOf, sat64, BitVec.toNat_ofNat]
  omega

end Sys2Proof.Machine
end

