-- ==== Sys2Proof/Laws/Memory.lean ====
section
/-! SUPPORT. The laws of the output memory: reading after writing, and that every write keeps the
canonical form (20_memory.md rules R60 to R65). -/

namespace Sys2Proof.Machine

/-- Read after write. It holds of any list of cells, canonical or not. -/
theorem Memory.read_write (m : Memory) (x a : Nat) (v : Byte) :
    (m.write x v).read a = if a = x then some v else m.read a := by
  induction m with
  | nil => simp [Memory.write, Memory.read]
  | cons cell rest ih =>
    obtain ⟨y, w⟩ := cell
    simp only [Memory.write]
    split
    · simp [Memory.read]
    · split
      · rename_i h
        subst h
        by_cases ha : a = x <;> simp [Memory.read, ha]
      · rename_i h1 h2
        by_cases hy : a = y
        · simp [Memory.read, hy]
          intro h
          exact absurd h.symm h2
        · simp [Memory.read, hy, ih]

@[simp] theorem Memory.read_write_same (m : Memory) (x : Nat) (v : Byte) :
    (m.write x v).read x = some v := by simp [Memory.read_write]

theorem Memory.read_write_other (m : Memory) {x a : Nat} (v : Byte) (h : a ≠ x) :
    (m.write x v).read a = m.read a := by simp [Memory.read_write, h]

/-- Read after writing a run of bytes. -/
theorem Memory.read_writeBytes (vs : List Byte) (m : Memory) (x a : Nat) :
    (m.writeBytes x vs).read a
      = if x ≤ a ∧ a < x + vs.length then vs[a - x]? else m.read a := by
  induction vs generalizing m x with
  | nil => simp [Memory.writeBytes]
  | cons v vs ih =>
    simp only [Memory.writeBytes, ih, Memory.read_write, List.length_cons]
    by_cases hx : a = x
    · subst hx
      simp
    · by_cases h : x + 1 ≤ a ∧ a < x + 1 + vs.length
      · have h' : x ≤ a ∧ a < x + (vs.length + 1) := by omega
        have e : a - x = (a - (x + 1)) + 1 := by omega
        rw [if_pos h, if_pos h', e, List.getElem?_cons_succ]
      · have h' : ¬(x ≤ a ∧ a < x + (vs.length + 1)) := by omega
        rw [if_neg h, if_neg h', if_neg hx]

/-- Outside the bytes written, memory reads as before. -/
theorem Memory.read_writeBytes_outside (vs : List Byte) (m : Memory) {x a : Nat}
    (h : a < x ∨ x + vs.length ≤ a) : (m.writeBytes x vs).read a = m.read a := by
  rw [Memory.read_writeBytes, if_neg (by omega)]

theorem risingFrom_mono {lo lo' : Nat} (h : lo ≤ lo') (m : Memory) (hm : risingFrom lo' m = true) :
    risingFrom lo m = true := by
  cases m with
  | nil => rfl
  | cons cell rest =>
    obtain ⟨a, b⟩ := cell
    simp only [risingFrom, Bool.and_eq_true, decide_eq_true_eq] at hm ⊢
    exact ⟨⟨by omega, hm.1.2⟩, hm.2⟩

theorem risingFrom_write (m : Memory) (lo x : Nat) (v : Byte) (hm : risingFrom lo m = true) (hlo : lo ≤ x)
    (hx : x < 2 ^ 32) : risingFrom lo (m.write x v) = true := by
  induction m generalizing lo with
  | nil =>
    simp only [Memory.write, risingFrom, Bool.and_true, Bool.and_eq_true, decide_eq_true_eq]
    exact ⟨hlo, hx⟩
  | cons cell rest ih =>
    obtain ⟨a, b⟩ := cell
    simp only [risingFrom, Bool.and_eq_true, decide_eq_true_eq] at hm
    simp only [Memory.write]
    split
    · rename_i h
      simp only [risingFrom, Bool.and_eq_true, decide_eq_true_eq]
      exact ⟨⟨hlo, hx⟩, ⟨h, hm.1.2⟩, hm.2⟩
    · split
      · simp only [risingFrom, Bool.and_eq_true, decide_eq_true_eq]
        exact hm
      · simp only [risingFrom, Bool.and_eq_true, decide_eq_true_eq]
        exact ⟨hm.1, ih (a + 1) hm.2 (by omega)⟩

/-- Writing one byte inside the memory keeps the canonical form. -/
theorem Memory.wf_write (m : Memory) (x : Nat) (v : Byte) (hm : m.wf = true) (hx : x < 2 ^ 32) :
    (m.write x v).wf = true := risingFrom_write m 0 x v hm (Nat.zero_le x) hx

/-- Writing a run of bytes inside the memory keeps the canonical form. -/
theorem Memory.wf_writeBytes (vs : List Byte) (m : Memory) (x : Nat) (hm : m.wf = true)
    (hx : x + vs.length ≤ 2 ^ 32) : (m.writeBytes x vs).wf = true := by
  induction vs generalizing m x with
  | nil => exact hm
  | cons v vs ih =>
    simp only [List.length_cons] at hx
    exact ih (m.write x v) (x + 1) (Memory.wf_write m x v hm (by omega)) (by omega)

/-- Memory right after reset is in canonical form. -/
theorem State.reset_mem_wf : State.reset.mem.wf = true := rfl

@[simp] theorem blockBytes_length (v : Block) (n : Nat) : (blockBytes v n).length = n := by
  simp [blockBytes]

theorem blockBytes_getElem? (v : Block) {n i : Nat} (h : i < n) :
    (blockBytes v n)[i]? = some (v.extractLsb' (8 * i) 8) := by
  simp [blockBytes, h]

@[simp] theorem State.emitBytes_length (s : State) (src : BitVec 1) :
    (s.emitBytes src).length = s.blockSize := by
  simp [State.emitBytes]

theorem State.blockSize_cases (s : State) : s.blockSize = 8 ∨ s.blockSize = 16 := by
  unfold State.blockSize
  split <;> simp

/-- The bytes an EMIT of the whole block leaves in memory (R62, R192). -/
theorem State.storeAtOADDR_read (s : State) (vs : List Byte) (a : Nat) :
    (s.storeAtOADDR vs).mem.read a
      = if s.oaddr.toNat ≤ a ∧ a < s.oaddr.toNat + vs.length then vs[a - s.oaddr.toNat]?
        else s.mem.read a := by
  simp [Memory.read_writeBytes]

end Sys2Proof.Machine
end

