-- ==== Sys2Proof/Laws/PerInstr.lean ====
section
/-! SUPPORT. The family `RowWord`, one lemma per command: the encoded word has the opcode of a row of the
opcode map and no reserved bit of that row's format (30_encoding.md rules R83 to R94). -/

namespace Sys2Proof.Laws.RowWord

/-- The word of `i` is one that some row of the opcode map accepts. -/
def Statement (i : Instr) : Prop :=
  ∃ r, rowOf (opcodeOf (encode i)) = some r ∧ encode i &&& r.fmt.reserved = 0

/-- A word with the opcode of a row and that row's reserved bits clear. -/
theorem of_row {i : Instr} {op : BitVec 8} (r : OpRow) (hop : opcodeOf (encode i) = op)
    (hr : rowOf op = some r) (h : encode i &&& r.fmt.reserved = 0) : Statement i :=
  ⟨r, hop ▸ hr, h⟩

theorem nop : Statement (.nop) :=
  of_row _ (opcodeOf_wordZ 0x00) rowOf_nop (wordZ_reserved _)

theorem blkinit : Statement (.blkinit) :=
  of_row _ (opcodeOf_wordZ 0x01) rowOf_blkinit (wordZ_reserved _)

theorem ldc (reg : BitVec 8) (imm : Half) : Statement (.ldc reg imm) :=
  of_row _ (opcodeOf_wordC 0x02 reg imm) rowOf_ldc (wordC_reserved _ _ _)

theorem ldpx (p : BitVec 4) (c : BitVec 2) (imm : Half) : Statement (.ldpx p c imm) :=
  of_row _ (opcodeOf_wordP 0x03 p c imm) rowOf_ldpx (wordP_reserved _ _ _ _)

theorem lder (s : BitVec 2) (e : BitVec 1) (c : BitVec 2) (imm : Half) : Statement (.lder s e c imm) :=
  of_row _ (opcodeOf_wordE 0x04 s e c imm) rowOf_lder (wordE_reserved _ _ _ _ _)

theorem keepmin : Statement (.keepmin) :=
  of_row _ (opcodeOf_wordZ 0x05) rowOf_keepmin (wordZ_reserved _)

theorem emit (src : BitVec 1) : Statement (.emit src) :=
  of_row _ (opcodeOf_wordM 0x06 src) rowOf_emit (wordM_reserved _ _)

theorem candinit : Statement (.candinit) :=
  of_row _ (opcodeOf_wordZ 0x07) rowOf_candinit (wordZ_reserved _)

theorem qntl (s : BitVec 2) (e : BitVec 1) (m : Mask) (bits : BitVec 5) : Statement (.qntl s e m bits) :=
  of_row _ (opcodeOf_wordQ 0x10 s e m bits) rowOf_qntl (wordQ_reserved _ _ _ _ _)

theorem qntlp (s : BitVec 2) (e : BitVec 1) (m : Mask) (bits : BitVec 5) : Statement (.qntlp s e m bits) :=
  of_row _ (opcodeOf_wordQ 0x11 s e m bits) rowOf_qntlp (wordQ_reserved _ _ _ _ _)

theorem qnth (s : BitVec 2) (e : BitVec 1) (m : Mask) (bits : BitVec 5) : Statement (.qnth s e m bits) :=
  of_row _ (opcodeOf_wordQ 0x12 s e m bits) rowOf_qnth (wordQ_reserved _ _ _ _ _)

theorem unql (s : BitVec 2) (e : BitVec 1) (m : Mask) (bits : BitVec 5) : Statement (.unql s e m bits) :=
  of_row _ (opcodeOf_wordQ 0x13 s e m bits) rowOf_unql (wordQ_reserved _ _ _ _ _)

theorem unqlp (s : BitVec 2) (e : BitVec 1) (m : Mask) (bits : BitVec 5) : Statement (.unqlp s e m bits) :=
  of_row _ (opcodeOf_wordQ 0x14 s e m bits) rowOf_unqlp (wordQ_reserved _ _ _ _ _)

theorem unqh (s : BitVec 2) (e : BitVec 1) (m : Mask) (bits : BitVec 5) : Statement (.unqh s e m bits) :=
  of_row _ (opcodeOf_wordQ 0x15 s e m bits) rowOf_unqh (wordQ_reserved _ _ _ _ _)

theorem order (s : BitVec 2) (m : Mask) : Statement (.order s m) :=
  of_row _ (opcodeOf_wordO 0x16 s m) rowOf_order (wordO_reserved _ _ _)

theorem delta (s : BitVec 2) (e : BitVec 1) (m : Mask) (bits : BitVec 5) : Statement (.delta s e m bits) :=
  of_row _ (opcodeOf_wordQ 0x17 s e m bits) rowOf_delta (wordQ_reserved _ _ _ _ _)

theorem palw (s : BitVec 2) (m : Mask) (iw : BitVec 3) : Statement (.palw s m iw) :=
  of_row _ (opcodeOf_wordL 0x20 s m iw) rowOf_palw (wordL_reserved _ _ _ _)

theorem palh (s : BitVec 2) (m : Mask) (iw : BitVec 3) : Statement (.palh s m iw) :=
  of_row _ (opcodeOf_wordL 0x21 s m iw) rowOf_palh (wordL_reserved _ _ _ _)

theorem palt (s : BitVec 2) (m : Mask) : Statement (.palt s m) :=
  of_row _ (opcodeOf_wordO 0x22 s m) rowOf_palt (wordO_reserved _ _ _)

theorem pals (s : BitVec 2) (m : Mask) : Statement (.pals s m) :=
  of_row _ (opcodeOf_wordO 0x23 s m) rowOf_pals (wordO_reserved _ _ _)

theorem idxn (t : BitVec 1) (s : BitVec 2) (m : Mask) (iw : BitVec 3) : Statement (.idxn t s m iw) :=
  of_row _ (opcodeOf_wordX 0x30 t s m iw) rowOf_idxn (wordX_reserved _ _ _ _ _)

theorem idxp (t : BitVec 1) (s : BitVec 2) (m : Mask) (iw : BitVec 3) : Statement (.idxp t s m iw) :=
  of_row _ (opcodeOf_wordX 0x31 t s m iw) rowOf_idxp (wordX_reserved _ _ _ _ _)

theorem fix (t : BitVec 1) (s : BitVec 2) (m : Mask) (iw : BitVec 3) : Statement (.fix t s m iw) :=
  of_row _ (opcodeOf_wordX 0x40 t s m iw) rowOf_fix (wordX_reserved _ _ _ _ _)

theorem put (off : BitVec 7) (wm1 : BitVec 4) (sh : BitVec 4) (sel : BitVec 8) : Statement (.put off wm1 sh sel) :=
  of_row _ (opcodeOf_wordK 0x50 off wm1 sh sel) rowOf_put (wordK_reserved _ _ _ _ _)

theorem putix (t : BitVec 1) (off : BitVec 7) (iw : BitVec 3) (na : BitVec 2) : Statement (.putix t off iw na) :=
  of_row _ (opcodeOf_wordJ 0x51 t off iw na) rowOf_putix (wordJ_reserved _ _ _ _ _)

end Sys2Proof.Laws.RowWord
end

