-- ==== Sys2Proof/Laws/Port.lean ====
section
/-! SUPPORT. What one step can do, event by event (30_encoding.md rules R80, R81; 70_reset_and_hazards.md
rule R285): the command port answers always, drives byte writes and no acknowledgement of its own, and an
abandoned command leaves a prefix of its block. -/

namespace Sys2Proof.Machine

theorem step_command {s : State} {w : Word} {rest : List PortEvent} (h : s.pending = .command w :: rest) :
    step s = acceptWord w { s with pending := rest, out := [] } := by
  simp [step, stepPort, h, servePort]

theorem step_resetDuring {s : State} {w : Word} {rest : List PortEvent}
    (h : s.pending = .resetDuring w :: rest) :
    step s = .next (State.abandon w { s with pending := rest, out := [] }).assertReset := by
  simp [step, stepPort, h, servePort]

theorem ack_not_mem_byteWrites (x : Nat) (vs : List Byte) : PortOutput.ack ∉ byteWrites x vs := by
  induction vs generalizing x with
  | nil => simp [byteWrites]
  | cons v vs ih => simp [byteWrites, ih]

/-- All that a command word can do: the effect of the command it spells, or one fault (R96, R262). -/
theorem runWord_cases (w : Word) (s : State) :
    (∃ i, decode w = .command i ∧ s.legal i = true ∧ runWord w s = .next (effect i s).complete) ∨
      ∃ f, runWord w s = .next (s.raise f) := by
  unfold runWord
  split
  · rename_i i hd
    rcases exec_endsBy i s with ⟨hl, h⟩ | ⟨-, f, h⟩
    · exact .inl ⟨i, hd, hl, h⟩
    · exact .inr ⟨f, h⟩
  · exact .inr ⟨_, rfl⟩
  · exact .inr ⟨_, rfl⟩

/-- What a command drives on the port: byte writes of EMIT, no acknowledgement (R69, R81). -/
theorem effect_drives (i : Instr) (s : State) :
    ∃ ws, (effect i s).out = s.out ++ ws ∧ PortOutput.ack ∉ ws := by
  by_cases he : ∃ src, i = .emit src
  · obtain ⟨src, rfl⟩ := he
    exact ⟨byteWrites s.oaddr.toNat (s.emitBytes src), by simp [effect], ack_not_mem_byteWrites _ _⟩
  · exact ⟨[], by simp [effect_out i s (by simpa using he)], by simp⟩

/-- All that a command abandoned by reset can have done (R285): nothing, or a prefix of an EMIT. -/
theorem State.abandon_cases (w : Word) (s : State) :
    s.abandon w = s ∨
      ∃ src k, decode w = .command (.emit src) ∧ s.status.fault = false ∧ s.emitFits = true ∧
        k ≤ s.blockSize ∧ s.abandon w = s.storeAtOADDR (blockBytes (s.emitBlock src) k) := by
  unfold State.abandon
  split
  · exact .inl rfl
  · rename_i hf
    split
    · rename_i src hd
      split
      · rename_i he
        have hk : Config.abandonedPrefix s.draws % (s.blockSize + 1) < s.blockSize + 1 :=
          Nat.mod_lt _ (Nat.succ_pos _)
        refine .inr ⟨src, Config.abandonedPrefix s.draws % (s.blockSize + 1), hd, by simpa using hf, he,
          by omega, ?_⟩
        rw [State.emitBytes, blockBytes, blockBytes, ← List.map_take, List.take_range,
          Nat.min_eq_left (by omega)]
      · exact .inl rfl
    · exact .inl rfl

end Sys2Proof.Machine
end

