-- ==== Sys2Proof/Tests/Slice0.lean ====
section
/-! SUPPORT. Tests. Every expected value is the spec's, from the vectors of 95_test_vectors.md that the
docstrings name. The witnesses show, for each statement that has hypotheses, a state and operands that meet
them together. -/

namespace Sys2Proof.Tests

open Sys2Proof Sys2Proof.Machine

set_option Elab.async false

/-! ### Decoding: one word of every command, written out field by field (V-ENC) -/

theorem test_decode_format_Z :
    decode 0b00000000_000000000000000000000000 = .command .nop ∧
    decode 0b00000001_000000000000000000000000 = .command .blkinit ∧
    decode 0b00000101_000000000000000000000000 = .command .keepmin ∧
    decode 0b00000111_000000000000000000000000 = .command .candinit := by decide

theorem test_decode_loads :
    decode 0b00000010_00000010_1100110011001100 = .command (.ldc 0x02 0xCCCC) ∧
    decode 0b00000011_0101_01_00_0000000010000000 = .command (.ldpx 5 1 0x80) ∧
    decode 0b00000100_00_1_00_000_0000000011111111 = .command (.lder 0 1 0 255) := by decide

theorem test_decode_emit :
    decode 0b00000110_1_00000000000000000000000 = .command (.emit 1) := by decide

theorem test_decode_quantize :
    decode 0b00010000_00_0_0101_00101_000000000000 = .command (.qntl 0 0 0b0101 5) ∧
    decode 0b00010001_00_0_1111_00111_000000000000 = .command (.qntlp 0 0 0b1111 7) ∧
    decode 0b00010010_01_1_0111_01010_000000000000 = .command (.qnth 1 1 0b0111 10) ∧
    decode 0b00010011_00_0_0010_00110_000000000000 = .command (.unql 0 0 0b0010 6) ∧
    decode 0b00010100_00_0_0111_00100_000000000000 = .command (.unqlp 0 0 0b0111 4) ∧
    decode 0b00010101_01_1_0111_01010_000000000000 = .command (.unqh 1 1 0b0111 10) ∧
    decode 0b00010110_00_0_0111_00000000000000000 = .command (.order 0 0b0111) ∧
    decode 0b00010111_00_1_0111_01001_000000000000 = .command (.delta 0 1 0b0111 9) := by decide

theorem test_decode_palette :
    decode 0b00100000_00_0_0111_010_00000000000000 = .command (.palw 0 0b0111 2) ∧
    decode 0b00100001_01_0_0111_011_00000000000000 = .command (.palh 1 0b0111 3) ∧
    decode 0b00100010_10_0_0111_00000000000000000 = .command (.palt 2 0b0111) ∧
    decode 0b00100011_10_0_0001_00000000000000000 = .command (.pals 2 0b0001) := by decide

theorem test_decode_index_and_anchor :
    decode 0b00110000_0_00_0001_011_00000000000000 = .command (.idxn 0 0 0b0001 3) ∧
    decode 0b00110001_0_00_1111_100_00000000000000 = .command (.idxp 0 0 0b1111 4) ∧
    decode 0b01000000_0_01_0001_011_00000000000000 = .command (.fix 0 1 0b0001 3) := by decide

theorem test_decode_packer :
    decode 0b01010000_0101100_0000_0_1010_00000000 = .command (.put 44 0 10 0x00) ∧
    decode 0b01010001_0_1010010_011_10_00000000000 = .command (.putix 0 82 3 2) := by decide

/-- The table's numbering of bits is the command word's own (R82). -/
theorem test_decodeTableWord :
    decodeTableWord 32 0x51527000 = some (.putix 0 82 3 2) ∧ decodeTableWord 32 0x08000000 = none ∧
    decodeTableWord 32 0x16000001 = none := by decide

/-! ### WellFormed: for each check a command that it refuses (R95) -/

theorem test_subset_three_is_ill_formed :
    Instr.wellFormed (.lder 3 0 0 0) = false ∧ Instr.wellFormed (.order 3 1) = false ∧
    Instr.wellFormed (.idxn 0 3 1 2) = false ∧ Instr.wellFormed (.fix 0 3 1 2) = false := by decide

theorem test_empty_mask_is_ill_formed :
    Instr.wellFormed (.palt 0 0) = false ∧ Instr.wellFormed (.pals 0 0) = false ∧
    Instr.wellFormed (.palw 0 0 2) = false ∧ Instr.wellFormed (.qnth 0 0 0 10) = false := by decide

theorem test_endpoint_width_out_of_range_is_ill_formed :
    Instr.wellFormed (.qntl 0 0 1 3) = false ∧ Instr.wellFormed (.qntl 0 0 1 9) = false ∧
    Instr.wellFormed (.qntlp 0 0 1 8) = false ∧ Instr.wellFormed (.qnth 0 0 1 17) = false ∧
    Instr.wellFormed (.unql 0 0 1 9) = false ∧ Instr.wellFormed (.unqlp 0 0 1 8) = false ∧
    Instr.wellFormed (.unqh 0 0 1 0) = false ∧ Instr.wellFormed (.delta 0 0 1 1) = false := by decide

theorem test_index_width_out_of_range_is_ill_formed :
    Instr.wellFormed (.palh 0 1 5) = false ∧ Instr.wellFormed (.idxp 0 0 1 1) = false ∧
    Instr.wellFormed (.putix 0 0 0 0) = false := by decide

theorem test_register_and_value_of_LDC_are_checked :
    Instr.wellFormed (.ldc 0x01 0) = false ∧ Instr.wellFormed (.ldc 0x00 6) = false ∧
    Instr.wellFormed (.ldc 0x00 8) = false ∧ Instr.wellFormed (.ldc 0x00 0x30) = false ∧
    Instr.wellFormed (.ldc 0x00 0x40) = false ∧ Instr.wellFormed (.ldc 0x04 0x100) = false ∧
    Instr.wellFormed (.ldc 0x05 0x40) = false := by decide

theorem test_selector_and_range_of_PUT_are_checked :
    Instr.wellFormed (.put 0 0 0 0x18) = false ∧ Instr.wellFormed (.put 127 1 0 0x70) = false := by decide

/-- The same commands with legal operands are well formed. -/
theorem test_legal_commands_are_well_formed :
    Instr.wellFormed (.lder 2 0 0 0) = true ∧ Instr.wellFormed (.qntl 0 0 1 4) = true ∧
    Instr.wellFormed (.unqh 2 1 15 16) = true ∧ Instr.wellFormed (.palh 0 1 4) = true ∧
    Instr.wellFormed (.ldc 0x00 0x25) = true ∧ Instr.wellFormed (.put 127 0 0 0x70) = true := by decide

/-! ### Small states -/

/-- The state after a command. -/
def after (i : Instr) (s : State) : State :=
  match exec i s with
  | .next t => t
  | .fault _ => s
  | .refused _ => s

/-- The state after a step. -/
def stepped (s : State) : State :=
  match step s with
  | .next t => t
  | .fault _ => s
  | .refused _ => s

/-- Reset, with events waiting on the port. -/
def waiting (evs : List PortEvent) : State := { State.reset with pending := evs }

/-- The faulted state after one illegal word, with events waiting. -/
def faulted (evs : List PortEvent) : State := { State.reset.faultRecord 1 with pending := evs }

/-- Four channel values. -/
def channels (v : List Nat) (c : Chan) : DataReg := .ofNat (v.getD c.val 0)

def withER (b : Subset) (e : EndNo) (v : List Nat) (s : State) : State :=
  { s with er := s.er.write b e 15 (channels v) }

def withEQ (b : Subset) (e : EndNo) (v : List Nat) (s : State) : State :=
  { s with eq := s.eq.write b e 15 (channels v) }

def withEU (b : Subset) (e : EndNo) (v : List Nat) (s : State) : State :=
  { s with eu := s.eu.write b e 15 (channels v) }

/-- Channel r of a palette. -/
def withPAL (b : Subset) (v : List Nat) (s : State) : State :=
  { s with pal := s.pal.write b 1 16 fun k _ => .ofNat (v.getD k.val 0) }

/-- Channel r of the pixels. -/
def withPX (v : List Nat) (s : State) : State :=
  { s with px := Vector.ofFn fun p : Fin 16 => Vector.ofFn fun c : Fin 4 =>
      if c = 0 then .ofNat (v.getD p.val 0) else s.px[p][c] }

/-- The indices of a stream. -/
def withIX (t : Stream) (v : List Nat) (s : State) : State :=
  { s with ix := s.ix.write t (fun _ => true) fun p => BitVec.ofNat 4 (v.getD p.val 0) }

/-- The four values of an endpoint. -/
def endpoint (f : EndpointFile) (b : Subset) (e : EndNo) : List Nat :=
  allChans.map fun c => f[b][e][c].bits.toNat

/-- The entries of one channel of a palette. -/
def entries (s : State) (b : Subset) (c : Chan) : List Nat :=
  (List.range 16).map fun k => s.pal[b][entryOf k][c].bits.toNat

/-- The indices of a stream. -/
def indices (s : State) (t : Stream) : List Nat := allPixels.map fun p => s.ix[t][p].toNat

/-! ### The commands of 45_control.md -/

/-- R185. -/
theorem test_nop : (after .nop State.reset).cidx = 1 ∧ (after .nop State.reset).mem = [] := by decide +kernel

/-- V-CTL-3's state. -/
def busy : State :=
  { withIX 1 [0, 0, 0, 9] (withPX [77] State.reset) with
    ob := 5, bestOb := 6, err := 7, bestErr := 8, t := 0x1234, pm1 := 0xCCCC,
    status := ⟨false, true, true, true, true⟩ }

/-- V-CTL-3. -/
theorem test_candinit :
    let t := after .candinit busy
    t.ob = 0 ∧ t.err = 0 ∧ indices t 1 = List.replicate 16 0 ∧ t.readPort 0x01 = 0x0010 ∧ t.bestOb = 6 ∧
      t.bestErr = 8 ∧ t.t = 0x1234 ∧ t.pm1 = 0xCCCC := by decide +kernel

/-- V-CTL-3. -/
theorem test_blkinit :
    let t := after .blkinit busy
    t.ob = 0 ∧ t.bestOb = 0 ∧ t.err = 0 ∧ t.bestErr = 0xFFFFFFFFFFFFFFFF ∧ t.readPort 0x01 = 0 ∧
      t.px[(0 : Pixel)][(0 : Chan)] = .ofNat 77 := by decide +kernel

/-- V-CTL-1. -/
theorem test_ldc :
    (after (.ldc 0x00 0x25) State.reset).fmt = 5 ∧ (after (.ldc 0x00 0x25) State.reset).qual = 2 ∧
    (after (.ldc 0x09 0xFFFF) State.reset).oaddr = 0xFFFF0000 ∧
    (after (.ldc 0x08 0xFFFF) State.reset).oaddr = 0x0000FFFF := by decide +kernel

/-- V-CTL-1. -/
theorem test_ldc_faults :
    (after (.ldc 0x00 0x0030) State.reset).fcode = 3 ∧ (after (.ldc 0x05 0x0040) State.reset).fcode = 3 ∧
    (after (.ldc 0x07 0) State.reset).fcode = 6 ∧ (after (.ldc 0xFF 0x1234) State.reset).fcode = 6 := by
  decide +kernel

/-- V-CTL-5: `LDPX p15.a, 0xFFFF` is `0x03FCFFFF`. -/
theorem test_ldpx :
    encode (.ldpx 15 3 0xFFFF) = 0x03FCFFFF ∧
    (after (.ldpx 15 3 0xFFFF) State.reset).px[(15 : Pixel)][(3 : Chan)] = .ofValue 0xFFFF := by decide +kernel

/-- V-CTL-5: `LDER s2.e1.a, 0x7BFF` is `0x04B87BFF`. -/
theorem test_lder :
    encode (.lder 2 1 3 0x7BFF) = 0x04B87BFF ∧
    (after (.lder 2 1 3 0x7BFF) State.reset).er[(2 : Subset)][(1 : EndNo)][(3 : Chan)] = .ofValue 0x7BFF := by
  decide +kernel

/-- V-CTL-2, rows 2 and 5: an equal error does not replace what is held, a lesser one does. -/
theorem test_keepmin :
    let held : State := { State.reset with bestErr := errInf, bestOb := 0x0A, status := ⟨false, false, false, false, true⟩ }
    (after .keepmin { held with err := errInf, ob := 0x0B }).bestOb = 0x0A ∧
    (after .keepmin { held with bestErr := 100, bestOb := 0x0C, err := 99, ob := 0x0E }).bestOb = 0x0E := by
  decide +kernel

/-- V-CTL-2, row 1: the first candidate is kept though its error is the sentinel. -/
theorem test_keepmin_first :
    let t := after .keepmin { State.reset with err := errInf, ob := 0x0A }
    t.bestOb = 0x0A ∧ t.bestErr = errInf ∧ t.status.bvalid = true := by decide +kernel

/-- V-CTL-4: BC4 writes eight bytes, least significant first. -/
theorem test_emit :
    (after (.emit 0) { State.reset with cfg := 2, oaddr := 0x100, ob := 0x0F0E0D0C0B0A09080706050403020100 }).mem
      = [(0x100, 0), (0x101, 1), (0x102, 2), (0x103, 3), (0x104, 4), (0x105, 5), (0x106, 6), (0x107, 7)] := by
  decide +kernel

/-- V-CTL-4: the last legal slot of each size, and one byte further. -/
theorem test_emit_range :
    (after (.emit 0) { State.reset with oaddr := 0xFFFFFFF8 }).fcode = 0 ∧
    (after (.emit 0) { State.reset with oaddr := 0xFFFFFFF9 }).fcode = 5 ∧
    (after (.emit 0) { State.reset with cfg := 5, oaddr := 0xFFFFFFF0 }).fcode = 0 ∧
    (after (.emit 0) { State.reset with cfg := 5, oaddr := 0xFFFFFFF1 }).mem = [] := by decide +kernel

/-! ### The quantize unit -/

/-- V-QNT-1; bits 15:8 of `ER` are ignored. -/
theorem test_qntl :
    endpoint (after (.qntl 0 0 15 5) (withER 0 0 [5, 128, 200, 254] State.reset)).eq 0 0 = [1, 16, 24, 31] ∧
    endpoint (after (.qntl 0 0 15 7) (withER 0 0 [0x01C8, 4, 250, 255] State.reset)).eq 0 0
      = [100, 2, 125, 127] := by decide +kernel

/-- V-QNT-2. -/
theorem test_qntlp :
    endpoint (after (.qntlp 0 1 15 6) (withER 0 1 [4, 127, 200, 250] State.reset)).eq 0 1 = [1, 31, 50, 62] ∧
    endpoint (after (.qntlp 0 1 15 4) (withER 0 1 [8, 128, 200, 250] State.reset)).eq 0 1 = [0, 8, 12, 15] := by
  decide +kernel

/-- V-QNT-6, the default function; the machine's own is open (R115). -/
theorem test_default_quantH :
    defaultQuantH 0x3555 10 = 440 ∧ defaultQuantH 0x7BFF 16 = 65533 ∧ defaultQuantH 0xFFFF 1 = 1 := by decide

/-- R115: 0 is quantized to 0 whatever the implementation. -/
theorem test_qnth :
    (after (.qnth 0 0 1 10) (withER 0 0 [0] State.reset)).eq[(0 : Subset)][(0 : EndNo)][(0 : Chan)] = .ofNat 0 := by
  decide +kernel

/-- V-QNT-3; bits of `EQ` at and above `bits` are ignored. -/
theorem test_unql :
    endpoint (after (.unql 0 0 15 5) (withEQ 0 0 [0x25, 1, 16, 30] State.reset)).eu 0 0 = [41, 8, 132, 247] ∧
    endpoint (after (.unql 0 0 15 8) (withEQ 0 0 [0, 1, 127, 254] State.reset)).eu 0 0 = [0, 1, 127, 254] := by
  decide +kernel

/-- V-QNT-4. -/
theorem test_unqlp :
    endpoint (after (.unqlp 0 0 15 4) { withEQ 0 0 [0, 7, 15, 15] State.reset with pbits := 1 }).eu 0 0
      = [8, 123, 255, 255] ∧
    endpoint (after (.unqlp 0 0 15 7) (withEQ 0 0 [0, 1, 127, 1] State.reset)).eu 0 0 = [0, 2, 254, 2] := by
  decide +kernel

/-- V-QNT-7. -/
theorem test_unqh :
    endpoint (after (.unqh 0 0 15 6) (withEQ 0 0 [1, 31, 62, 63] State.reset)).eu 0 0
      = [1536, 32256, 64000, 65535] ∧
    endpoint (after (.unqh 0 0 15 15) (withEQ 0 0 [1, 16384, 32767, 0] State.reset)).eu 0 0
      = [1, 16384, 32767, 0] := by decide +kernel

/-- V-QNT-8, rows 1 and 4: the first differing channel decides; channels outside the mask stay, the p-bits
do not. -/
theorem test_order_exchanges :
    let t := after (.order 0 7) { withEQ 0 1 [10, 21, 0, 0] (withEQ 0 0 [10, 20, 5, 0] State.reset) with pbits := 1 }
    let u := after (.order 0 8) { withEQ 0 1 [10, 20, 5, 9] (withEQ 0 0 [10, 20, 5, 1] State.reset) with pbits := 1 }
    endpoint t.eq 0 0 = [10, 21, 0, 0] ∧ endpoint t.eq 0 1 = [10, 20, 5, 0] ∧ t.pbits = 2 ∧ t.status.eql = false ∧
      endpoint u.eq 0 0 = [10, 20, 5, 9] ∧ u.pbits = 2 := by decide +kernel

/-- V-QNT-8, row 3: alpha is outside the mask. -/
theorem test_order_keeps :
    let t := after (.order 0 7) { withEQ 0 1 [10, 20, 5, 1] (withEQ 0 0 [10, 20, 5, 9] State.reset) with pbits := 1 }
    endpoint t.eq 0 0 = [10, 20, 5, 9] ∧ t.pbits = 1 ∧ t.status.eql = true := by decide +kernel

/-- V-QNT-9: the greatest delta that fits, and the next. -/
theorem test_delta :
    let s := fun v => { withEQ 1 0 [v] (withEQ 0 0 [500] State.reset) with err := 7 }
    let t := after (.delta 1 0 1 9) (s 755)
    let u := after (.delta 1 0 1 9) (s 756)
    t.ed[(1 : Subset)][(0 : EndNo)][(0 : Chan)] = .ofNat 0x00FF ∧ t.status.dovf = false ∧ t.err = 7 ∧
      u.ed[(1 : Subset)][(0 : EndNo)][(0 : Chan)] = .ofNat 0x00FF ∧ u.status.dovf = true ∧ u.err = errInf := by
  decide +kernel

/-- V-QNT-9: a negative delta in two's complement, and the least that fits. -/
theorem test_delta_negative :
    let s := fun v => withEQ 1 0 [v] (withEQ 0 0 [500] State.reset)
    (after (.delta 1 0 1 9) (s 244)).ed[(1 : Subset)][(0 : EndNo)][(0 : Chan)] = .ofNat 0x0100 ∧
    (after (.delta 1 0 1 9) (s 244)).status.dovf = false ∧
    (after (.delta 1 0 1 9) (s 243)).status.dovf = true ∧
    (after (.delta 1 0 1 2) (s 499)).ed[(1 : Subset)][(0 : EndNo)][(0 : Chan)] = .ofNat 3 := by decide +kernel

/-! ### The palette interpolator -/

/-- V-PAL-4: only the channels of the mask, only entries 0 to 3. -/
theorem test_palw :
    let s := withEU 1 1 [110, 120, 130, 140] (withEU 1 0 [10, 20, 30, 40] State.reset)
    let t := after (.palw 1 0b1010 2)
      { s with pal := Vector.replicate 3 (Vector.replicate 16 (Vector.replicate 4 (DataReg.ofNat 999))) }
    entries t 1 1 = [20, 53, 87, 120] ++ List.replicate 12 999 ∧ entries t 1 0 = List.replicate 16 999 := by
  decide +kernel

/-- V-PAL-2. -/
theorem test_palh :
    (entries (after (.palh 0 1 3) (withEU 0 1 [65535] (withEU 0 0 [0] State.reset))) 0 0).take 8
      = [0x0000, 0x1170, 0x22E0, 0x3450, 0x47AF, 0x591F, 0x6A8F, 0x7BFF] := by decide +kernel

/-- V-PAL-3. -/
theorem test_palt :
    (entries (after (.palt 0 1) (withEU 0 1 [8] (withEU 0 0 [198] State.reset))) 0 0).take 4
      = [198, 8, 135, 71] := by decide +kernel

/-- V-PAL-3. -/
theorem test_pals :
    (entries (after (.pals 0 1) (withEU 0 1 [0] (withEU 0 0 [255] State.reset))) 0 0).take 8
      = [255, 0, 219, 182, 146, 109, 73, 36] ∧
    (entries (after (.pals 0 1) (withEU 0 1 [0] (withEU 0 0 [2] State.reset))) 0 0).take 8
      = [2, 0, 2, 1, 1, 1, 1, 0] := by decide +kernel

/-! ### The index assigner -/

/-- V-IDX-1: ties go to the lowest index. -/
theorem test_idxn :
    let t := after (.idxn 0 0 1 2)
      (withPAL 0 [10, 20, 10, 30] (withPX [10, 15, 25, 40, 10, 10, 10, 10, 10, 10, 10, 10, 10, 10, 10, 10] State.reset))
    indices t 0 = [0, 0, 1, 3, 0, 0, 0, 0, 0, 0, 0, 0, 0, 0, 0, 0] ∧ t.err = 150 := by decide +kernel

/-- V-IDX-6: the error saturates. -/
theorem test_idxn_saturates :
    (after (.idxn 0 0 1 2) { withPAL 0 [0, 0, 0, 0] (withPX [12] State.reset) with err := errInf - 10 }).err
      = errInf := by decide +kernel

/-- V-IDX-3: a reversed line; both its ends are fixed whatever the table. -/
theorem test_idxp :
    let t := after (.idxp 0 0 1 3)
      (withPAL 0 [255, 219, 183, 147, 108, 72, 36, 0] (withPX (255 :: List.replicate 15 0) State.reset))
    indices t 0 = 0 :: List.replicate 15 7 ∧ t.err = 0 := by decide +kernel

/-- V-IDX-4: equal palette ends give index 0. -/
theorem test_idxp_equal_ends :
    let t := after (.idxp 0 0 1 4) (withPAL 0 (List.replicate 16 7) (withPX [9, 7, 7, 300] State.reset))
    indices t 0 = List.replicate 16 0 ∧ t.err.toNat = 4 + 293 ^ 2 + 12 * 49 := by decide +kernel

/-- V-IDX-2's column f against its column index iw = 3, for the default table (R150). -/
theorem test_default_lut :
    [0, 5, 10, 11, 16, 21, 31, 32, 42, 52, 53, 62, 63].map (defaultLut 3)
      = [0, 1, 1, 1, 2, 2, 3, 4, 5, 6, 6, 7, 7] := by decide

/-- V-IDX-5: the subset of a pixel, `PM2` first (R42). -/
theorem test_subsets :
    allPixels.map { State.reset with pm1 := 0xCCCC, pm2 := 0x8000 }.subsetAt
      = [0, 0, 1, 1, 0, 0, 1, 1, 0, 0, 1, 1, 0, 0, 1, 2] := by decide +kernel

/-! ### The anchor fixer -/

/-- V-FIX-1, row 4. -/
theorem test_fix :
    let s := withPAL 0 [0, 36, 72, 108, 147, 183, 219, 255] (withEU 0 1 [255] (withEU 0 0 [0] State.reset))
    let t := after (.fix 0 0 1 3) (withIX 0 [4, 1, 2, 3, 4, 5, 6, 7] s)
    indices t 0 = [3, 6, 5, 4, 3, 2, 1, 0, 7, 7, 7, 7, 7, 7, 7, 7] ∧
      (entries t 0 0).take 8 = [255, 219, 183, 147, 108, 72, 36, 0] ∧
      (endpoint t.eu 0 0).head? = some 255 := by decide +kernel

/-- V-FIX-2: a width mismatch. -/
theorem test_fix_width_mismatch :
    indices (after (.fix 0 0 1 3) (withIX 0 [9, 12] State.reset)) 0 = [9, 12] ++ List.replicate 14 0 ∧
    indices (after (.fix 0 0 1 3) (withIX 0 [12, 9] State.reset)) 0 = [11, 14] ++ List.replicate 14 7 := by
  decide +kernel

/-! ### The packer -/

/-- V-PUT-1, steps 7 and 2. -/
theorem test_put :
    let t := after (.put 96 15 4 0x70) { State.reset with ob := 0xFFFF0000000000008000000000000001, t := 0x1234 }
    let u := after (.put 127 0 0 0x70) { State.reset with ob := 0xABCD000000, t := 0xFFFF }
    t.ob = 0xFFFF0123000000008000000000000001 ∧ t.status.trunc = false ∧
      u.ob = 0x8000000000000000000000ABCD000000 ∧ u.status.trunc = true := by decide +kernel

/-- V-PUT-2: the selector of an index and of a p-bit. -/
theorem test_put_selectors :
    (after (.put 32 3 0 0x5F) (withIX 1 (List.replicate 15 0 ++ [9]) State.reset)).ob = 0x900000000 ∧
    (after (.put 36 0 0 0x65) { State.reset with pbits := 0x20 }).ob = 0x1000000000 ∧
    (after (.put 0 15 0 0x17) (withEQ 2 1 [0, 0, 0, 0x1111] State.reset)).ob = 0x1111 := by decide +kernel

/-- V-PUT-4. -/
theorem test_putix :
    let s := { withIX 0 [1, 2, 3, 1, 0, 1, 2, 3, 3, 2, 1, 0, 0, 0, 0, 1] State.reset with anch := 0x00F3 }
    let t := after (.putix 0 99 2 3) s
    t.ob = 0x8037C9E8000000000000000000000000 ∧ t.status.trunc = false := by decide +kernel

/-- V-PUT-3: totals, a pixel named twice being short once. -/
theorem test_putix_totals :
    State.reset.streamBits 4 1 = 63 ∧ { State.reset with anch := 0x0033 }.streamBits 2 3 = 30 ∧
    { State.reset with anch := 0x000F }.streamBits 3 2 = 46 := by decide +kernel

/-! ### Faults, the port, reset -/

/-- V-FLT: the codes of one-word faults, taken by `step` from the reset state. -/
theorem test_faults :
    ([0x08000000, 0xFF000000, 0x00000001, 0x01800000, 0x16000001, 0x202E8000, 0x50001070, 0x40624000,
        0x02010000] : List Word).map
      (fun w => (stepped (waiting [.command w])).fcode.toNat) = [1, 1, 2, 2, 2, 2, 2, 3, 6] := by decide +kernel

/-- R263: a faulted unit acknowledges and discards. -/
theorem test_discards :
    stepped (faulted [.command 0x01000000]) = { faulted [] with out := [.ack] } := by decide +kernel

/-- R48: `ID` and `BESTERR` read back. -/
theorem test_readPort :
    (stepped (waiting [.read 0x0F])).out = [.readData 0xBC01] ∧ State.reset.readPort 0x17 = 0xFFFF := by
  decide +kernel

/-- R285: reset clears the record and keeps the memory. -/
theorem test_reset :
    stepped { faulted [.reset] with mem := [(3, 7)] } = { State.reset with mem := [(3, 7)], draws := 1 } := by
  decide +kernel

/-- R80: a word placed where the unit takes its next command runs as the first command after reset. -/
theorem test_withFetchWord :
    (stepped (State.reset.withFetchWord 32 0x02060005)).t = 5 ∧
    (stepped (State.reset.withFetchWord 32 0x02060005)).out = [.ack] := by decide +kernel

/-! ### Notation and host flows -/

/-- Lines of P10 and P8 (R97). -/
theorem test_asmText :
    asmText (.put 62 0 10 0) = "PUT 62, 1, EQ.s0.e0.r >> 10" ∧ asmText (.fix 1 0 8 2) = "FIX t1, s0, a, 2" ∧
    asmText (.delta 0 1 7 9) = "DELTA s0.e1, rgb, 9" ∧ asmText (.emit 1) = "EMIT BEST" := by decide +kernel

/-- The words of P1 from ORDER on: a host that reads EQL = 1 skips UNQL, PALT and IDXN (R215). -/
theorem test_bc1_short_circuit :
    ((bc1Body 0 (fun _ => 0) (fun _ => 0) true).drop 10).map encode
      = [0x160E0000, 0x50008002, 0x500AA001, 0x50168000, 0x50208006, 0x502AA005, 0x50368004, 0x51204000] := by
  decide +kernel

/-- The start bits of BC7 modes 6 and 5 as P3 and P10 use them (R237), and of mode 7 by R238's sum. -/
theorem test_bc7_starts :
    bc7Starts (bc7Mode 5) = [6, 6, 8, 8, 22, 36, 50, 66, 66, 97, 128] ∧
    bc7Start (bc7Mode 6) 7 = 63 ∧ bc7Start (bc7Mode 6) 8 = 65 ∧
    bc7Starts (bc7Mode 7) = [8, 14, 14, 14, 34, 54, 74, 94, 98, 128, 128] := by decide +kernel

/-- Rotations ascend whatever the order of the set, and all four are the default (R233). -/
theorem test_bc7_rotations :
    (bc7ModeCandidates [3, 1] (bc7Mode 5)).map (·.rotation) = [1, 3] ∧
    ((bc7Candidates 1).filter (·.mode = 5)).map (·.rotation) = [0, 1, 2, 3] := by decide +kernel

/-- Tables with one pattern for all three-subset partitions, and PART2 open beyond entry 0. -/
def sampleTables : PartitionTables :=
  ⟨fun _ => 0x8000, fun _ => (0x4000, 0x8000), fun _ => 15, fun _ => 14, fun _ => 15⟩

/-- Partition 0 as P4 loads it; tables that meet the condition exist (R243). -/
theorem test_partition_tables :
    (selectMasks sampleTables 2 0 ++ selectAnchors sampleTables 2 0).map encode
      = [0x0202CCCC, 0x02030000, 0x0204000F] ∧ sampleTables.Legal := by
  unfold PartitionTables.Legal; decide +kernel

/-- The words of P5, whose endpoints stand the other way round, that R241 lists: no LDC ANCH. -/
theorem test_bc6h_baseline :
    let lines := (bc6hBody sampleTables (fun r _ _ => r.toNat) (fun _ _ => 0x3000) bc6hBaseline 0).map encode
    lines.take 2 = [0x02020000, 0x02030000] ∧ (lines.drop 2).length = 6 + 16 ∧
    lines.drop 8 = [0x120EA000, 0x122EA000, 0x150EA000, 0x152EA000, 0x210F0000, 0x310F0000, 0x400F0000,
      0x02060003, 0x50008070, 0x500B2000, 0x501F2001, 0x50332002, 0x50472004, 0x505B2005, 0x506F2006,
      0x51418800] := by decide +kernel

/-- The default tiers of BC6H, on a made-up transformed and a made-up two-subset mode (R240). -/
theorem test_bc6h_tiers :
    let one : Bc6hMode := ⟨7, 5, 1, 11, 9, 0, 65, []⟩
    let two : Bc6hMode := ⟨0, 2, 2, 10, 5, 77, 82, []⟩
    defaultBc6hTier [two, one] 0 = [bc6hBaseline] ∧ defaultBc6hTier [two, one] 1 = [bc6hBaseline, one] ∧
    bc6hCandidates (defaultBc6hTier [two, one]) 2
      = (bc6hBaseline, 0) :: (one, 0) :: (List.range 32).map fun i => (two, i) := by decide +kernel

/-! ### Witnesses: the hypotheses of each statement, met together -/

theorem witness_EncodeOfDecode : decode 0x51527000 = .command (.putix 0 82 3 2) := by decide

theorem witness_EncodedWordIsSumOfFields :
    ((.delta 2 1 15 31 : Instr), 0x17) ∈ [((.qntl 2 1 15 31 : Instr), 0x10), (.delta 2 1 15 31, 0x17)] ∧
    ((.pals 2 15 : Instr), 0x23) ∈ [((.order 2 15 : Instr), 0x16), (.palt 2 15, 0x22), (.pals 2 15, 0x23)] ∧
    ((.palh 2 15 7 : Instr), 0x21) ∈ [((.palw 2 15 7 : Instr), 0x20), (.palh 2 15 7, 0x21)] ∧
    ((.fix 1 2 15 7 : Instr), 0x40) ∈
      [((.idxn 1 2 15 7 : Instr), 0x30), (.idxp 1 2 15 7, 0x31), (.fix 1 2 15 7, 0x40)] := by decide

theorem witness_OperandFieldsNameTheirNumbers : (2 : BitVec 2) ≠ 3 ∧ (0 : BitVec 2) ≠ 3 := by decide

theorem witness_StepRunsTheDecodedCommand :
    (waiting [.command 0x06800000]).pending = .command 0x06800000 :: [] ∧
    (waiting [.command 0x06800000]).status.fault = false ∧ decode 0x06800000 = .command (.emit 1) := by decide

theorem witness_IdleUnitWaits : State.reset.pending = [] := rfl

theorem witness_ReadPortHasNoSideEffect : (faulted [.read 0xFF]).pending = .read 0xFF :: [] := rfl

/-- The ends of each range of numbers that read as 0. -/
theorem witness_ReadPortMap :
    ∀ n ∈ [(0x07 : BitVec 8), 0x18, 0x1F, 0x30, 0xFF],
      n.toNat = 0x07 ∨ (0x18 ≤ n.toNat ∧ n.toNat ≤ 0x1F) ∨ 0x30 ≤ n.toNat := by decide +kernel

theorem witness_CommandsAreAcknowledgedOnce :
    (waiting [.command 0x06000000]).pending = .command 0x06000000 :: [] ∧
    (waiting [.resetDuring 0x06000000]).pending = .resetDuring 0x06000000 :: [] := ⟨rfl, rfl⟩

/-- Opcodes beside the defined ones. -/
theorem witness_UndefinedOpcodeFaults :
    (waiting [.command 0x08000000]).pending = .command 0x08000000 :: [] ∧
    (waiting [.command 0x08000000]).status.fault = false ∧
    ([0x08000000, 0x0F000000, 0x18000000, 0x24000000, 0x32000000, 0x41000000, 0x52000000, 0xFFFFFFFF] :
        List Word).all fun w =>
      w.toNat / 2 ^ 24 ∉ [0x00, 0x01, 0x02, 0x03, 0x04, 0x05, 0x06, 0x07, 0x10, 0x11, 0x12, 0x13, 0x14, 0x15,
        0x16, 0x17, 0x20, 0x21, 0x22, 0x23, 0x30, 0x31, 0x40, 0x50, 0x51] := by decide +kernel

theorem witness_ReservedBitFaults :
    (waiting [.command 0x50001070]).pending = .command 0x50001070 :: [] ∧
    (waiting [.command 0x50001070]).status.fault = false ∧
    (0x50, (0x00001000 : Word)) ∈ [(0x40, (0x00003FFF : Word)), (0x50, 0x00001000)] ∧
    (0x50001070 : Word).toNat / 2 ^ 24 = 0x50 ∧ (0x50001070 : Word) &&& 0x00001000 ≠ 0 := by decide +kernel

/-- Each clause at its own boundary: the subset, the mask, and the widths just out of range. -/
theorem witness_IllegalOperandsFault :
    State.reset.status.fault = false ∧ (0b11 : BitVec 2) = 3 ∧ (0b0000 : Mask) = 0 ∧
    ((3 : BitVec 5).toNat < 4 ∧ 8 < (9 : BitVec 5).toNat) ∧ 7 < (8 : BitVec 5).toNat ∧
    ((0 : BitVec 5).toNat < 1 ∧ 16 < (17 : BitVec 5).toNat) ∧ (1 : BitVec 5).toNat < 2 ∧
    ((1 : BitVec 3).toNat < 2 ∧ 4 < (5 : BitVec 3).toNat) := by decide

theorem witness_IllegalLoadsFault :
    State.reset.status.fault = false ∧
    (∀ reg ∈ [(0x01 : BitVec 8), 0x07, 0x0A, 0xFF],
      reg.toNat = 0x01 ∨ reg.toNat = 0x07 ∨ 0x0A ≤ reg.toNat) ∧
    ((0x00 : BitVec 8).toNat = 0x00 ∧ ([6, 8, 0x30, 64] : List Half).all fun imm =>
      5 < imm.toNat % 8 ∨ imm.toNat / 8 % 2 = 1 ∨ imm.toNat / 16 % 4 = 3 ∨ 64 ≤ imm.toNat) ∧
    ((0x04 : BitVec 8).toNat = 0x04 ∧ 256 ≤ (256 : Half).toNat) ∧
    ((0x05 : BitVec 8).toNat = 0x05 ∧ 64 ≤ (64 : Half).toNat) := by decide +kernel

/-- The ends of the undefined selectors, a field that ends at bit 128, a stream one bit too long. -/
theorem witness_PackingFaults :
    State.reset.status.fault = false ∧
    (∀ sel ∈ [(0x18 : BitVec 8), 0x1F, 0x38, 0x3F, 0x66, 0x6F, 0x71, 0xFF],
      (0x18 ≤ sel.toNat ∧ sel.toNat ≤ 0x1F) ∨ (0x38 ≤ sel.toNat ∧ sel.toNat ≤ 0x3F) ∨
        (0x66 ≤ sel.toNat ∧ sel.toNat ≤ 0x6F) ∨ 0x71 ≤ sel.toNat) ∧
    ((∀ sel ∈ [(0x00 : BitVec 8), 0x17, 0x20, 0x37, 0x40, 0x65, 0x70],
      sel.toNat < 0x18 ∨ (0x20 ≤ sel.toNat ∧ sel.toNat < 0x38) ∨ (0x40 ≤ sel.toNat ∧ sel.toNat < 0x66) ∨
        sel.toNat = 0x70) ∧ 128 < (127 : BitVec 7).toNat + ((1 : BitVec 4).toNat + 1)) ∧
    (2 ≤ (4 : BitVec 3).toNat ∧ (4 : BitVec 3).toNat ≤ 4 ∧
      128 < (66 : BitVec 7).toNat + ∑ p : Pixel, State.reset.indexBits (4 : BitVec 3).toNat 1 p) := by
  decide +kernel

theorem witness_EmitPastTheEndFaults :
    let s := { State.reset with oaddr := 0xFFFFFFF9 }
    s.status.fault = false ∧ 8 = (if s.cfg.toNat % 8 = 0 ∨ s.cfg.toNat % 8 = 2 then 8 else 16) ∧
      2 ^ 32 < s.oaddr.toNat + 8 := by decide +kernel

theorem witness_RaisingAFaultWritesTheRecord :
    let s := waiting [.command 0x40624000]
    s.status.fault = false ∧ step s = .next (stepped s) ∧ (stepped s).status.fault = true :=
  ⟨rfl, rfl, by decide⟩

theorem witness_FaultedUnitDiscards :
    (faulted [.command 0x01000000]).status.fault = true ∧
    (faulted [.command 0x01000000]).pending = .command 0x01000000 :: [] ∧
    (faulted [.read 0x0C]).status.fault = true ∧ (faulted [.read 0x0C]).pending = .read 0x0C :: [] ∧
    (faulted [.reset]).status.fault = true ∧ step (faulted [.reset]) = .next (stepped (faulted [.reset])) ∧
    (stepped (faulted [.reset])).status.fault = false := ⟨rfl, rfl, rfl, rfl, rfl, rfl, rfl⟩

theorem witness_ResetRestoresTheState : (faulted [.reset, .read 0]).pending = .reset :: [.read 0] := rfl

theorem witness_ResetAbandonsTheCommand :
    (waiting [.resetDuring 0x06800000]).pending = .resetDuring 0x06800000 :: [] := rfl

theorem witness_StepKeepsTheInvariant :
    Inv (waiting [.command 0x01000000]) ∧
    step (waiting [.command 0x01000000]) = .next (stepped (waiting [.command 0x01000000])) :=
  ⟨⟨by decide, by decide, by decide, by decide, by decide, by decide⟩, rfl⟩

theorem witness_CommandsCountAndOnlyEmitStores :
    State.reset.status.fault = false ∧
    (exec .nop State.reset = .next (after .nop State.reset) ∧ (after .nop State.reset).status.fault = false) ∧
    (exec (.order 3 1) State.reset = .next (after (.order 3 1) State.reset) ∧
      (after (.order 3 1) State.reset).status.fault = true) ∧
    ∀ src, Instr.nop ≠ .emit src :=
  ⟨rfl, ⟨rfl, rfl⟩, ⟨rfl, rfl⟩, by decide⟩

/-- EMIT in the last slot, PUTIX to the last bit. -/
theorem witness_LegalCommandsNeverFault :
    State.reset.status.fault = false ∧ Instr.wellFormed (.emit 0) = true ∧
    (let s := { State.reset with oaddr := 0xFFFFFFF8 }
    s.oaddr.toNat + (if s.cfg.toNat % 8 = 0 ∨ s.cfg.toNat % 8 = 2 then 8 else 16) ≤ 2 ^ 32) ∧
    Instr.wellFormed (.putix 0 65 4 1) = true ∧
    (65 : BitVec 7).toNat + ∑ p : Pixel, State.reset.indexBits (4 : BitVec 3).toNat 1 p ≤ 128 := by
  decide +kernel

theorem witness_ErrorNeverDecreases :
    Instr.delta 0 1 1 2 ≠ .blkinit ∧ Instr.delta 0 1 1 2 ≠ .candinit ∧
    (let s := withEQ 0 1 [9] (withEQ 0 0 [0] State.reset)
    exec (.delta 0 1 1 2) s = .next (after (.delta 0 1 1 2) s)) ∧
    ({ State.reset with err := errInf }).err = 0xFFFFFFFFFFFFFFFF :=
  ⟨by decide, by decide, rfl, rfl⟩

/-- An EMIT under another CFG of the same FMT; another command under any other CFG. -/
theorem witness_QualityHasNoEffect :
    (∀ imm, Instr.emit 0 ≠ .ldc 0x00 imm) ∧ (0x20 : Half).toNat % 8 = State.reset.cfg.toNat % 8 ∧
    exec (.emit 0) State.reset = .next (after (.emit 0) State.reset) ∧
    (∀ imm, Instr.keepmin ≠ .ldc 0x00 imm) ∧ (∀ src, Instr.keepmin ≠ .emit src) ∧
    exec .keepmin State.reset = .next (after .keepmin State.reset) :=
  ⟨fun _ h => Instr.noConfusion h, by decide, rfl, fun _ h => Instr.noConfusion h,
    fun _ h => Instr.noConfusion h, rfl⟩

theorem witness_AdvisoryFlagsAreNeverRead :
    exec (.order 0 1) (withEQ 0 1 [1] (withEQ 0 0 [1] State.reset))
      = .next (after (.order 0 1) (withEQ 0 1 [1] (withEQ 0 0 [1] State.reset))) := rfl

/-- Two states that differ in the stored bits of a pixel that no command has written. -/
theorem witness_UnwrittenBitsAreNeverSeen :
    let s := waiting [.command 0x03540080]
    let s' := { s with px := s.px.write 0 0 ⟨0xFFFF, false⟩ }
    Alike s s' ∧ s ≠ s' ∧ step s = .next (stepped s) := by
  refine ⟨⟨?_, ?_, ?_, ?_, ?_, ?_, rfl⟩, by decide +kernel, rfl⟩ <;>
    (unfold DataReg.Alike; decide +kernel)

theorem witness_LdcWritesTheRegister :
    (([0x25, 0x00, 0x20] : List Half).all fun imm =>
      imm.toNat % 8 ≤ 5 ∧ imm.toNat / 8 % 2 = 0 ∧ imm.toNat / 16 % 4 ≠ 3 ∧ imm.toNat < 64) ∧
    (255 : Half).toNat < 256 ∧ (63 : Half).toNat < 64 := by decide +kernel

theorem witness_LoadsWriteOneRegister : (2 : BitVec 2) ≠ 3 := by decide

/-- No candidate held; a better one; one that is not better, its error equal to the best. -/
theorem witness_KeepminKeepsTheBetter :
    (State.reset.status.bvalid = false ∨ State.reset.err.toNat < State.reset.bestErr.toNat) ∧
    (let s := { State.reset with bestErr := 8, err := 7, status := ⟨false, false, false, false, true⟩ }
    s.status.bvalid = false ∨ s.err.toNat < s.bestErr.toNat) ∧
    (let s := { State.reset with bestErr := 7, err := 7, status := ⟨false, false, false, false, true⟩ }
    s.status.bvalid = true ∧ s.bestErr.toNat ≤ s.err.toNat) := by decide +kernel

/-- The last legal slot of a 16-byte block. -/
theorem witness_EmitStoresTheBlock :
    let s := { State.reset with cfg := 5, oaddr := 0xFFFFFFF0 }
    16 = (if s.cfg.toNat % 8 = 0 ∨ s.cfg.toNat % 8 = 2 then 8 else 16) ∧ s.oaddr.toNat + 16 ≤ 2 ^ 32 := by
  decide +kernel

/-- The least and the greatest width of each command. -/
theorem witness_QuantizeWritesEq :
    (2 : BitVec 2) ≠ 3 ∧ (8 : Mask) ≠ 0 ∧
    ∀ r ∈ [((.qntl 2 1 8 4 : Instr), (4 : BitVec 5), 4, 8), (.qntl 2 1 8 8, 8, 4, 8), (.qntlp 2 1 8 4, 4, 4, 7),
        (.qntlp 2 1 8 7, 7, 4, 7), (.qnth 2 1 8 1, 1, 1, 16), (.qnth 2 1 8 16, 16, 1, 16)],
      r.2.2.1 ≤ r.2.1.toNat ∧ r.2.1.toNat ≤ r.2.2.2 := by decide +kernel

/-- The least and the greatest width of each command. -/
theorem witness_UnquantizeWritesEu :
    (2 : BitVec 2) ≠ 3 ∧ (8 : Mask) ≠ 0 ∧
    ∀ r ∈ [((.unql 2 1 8 4 : Instr), (4 : BitVec 5), 4, 8), (.unql 2 1 8 8, 8, 4, 8), (.unqlp 2 1 8 4, 4, 4, 7),
        (.unqlp 2 1 8 7, 7, 4, 7), (.unqh 2 1 8 1, 1, 1, 16), (.unqh 2 1 8 16, 16, 1, 16)],
      r.2.2.1 ≤ r.2.1.toNat ∧ r.2.1.toNat ≤ r.2.2.2 := by decide +kernel

theorem witness_QuantizeRoundTrips :
    4 ≤ 8 ∧ (254 : Half).toNat ≤ (255 : Half).toNat ∧ (255 : Half).toNat ≤ 255 ∧ (255 : Half).toNat < 2 ^ 8 := by
  decide

/-- A function that R115 admits. -/
theorem witness_QuantHIsBounded :
    1 ≤ 16 ∧ (∀ n : Nat, (fun (_ : Half) (_ : Nat) => 0) 0 n = 0) ∧
    ∀ (h : Half) (n : Nat), (fun (_ : Half) (_ : Nat) => 0) h n < 2 ^ n :=
  ⟨by decide, fun _ => rfl, fun _ n => Nat.two_pow_pos n⟩

/-- Endpoints that ORDER exchanges, the second channel deciding, and endpoints that it keeps. -/
theorem witness_OrderPutsTheLargerFirst :
    let s := withEQ 0 1 [10, 21] (withEQ 0 0 [10, 20, 5] State.reset)
    let u := withEQ 0 1 [10, 20] (withEQ 0 0 [10, 21] State.reset)
    let rises := fun (s : State) => ∃ c : Chan, inMask 7 c = true ∧
      (s.readEQ 0 0 c).toNat < (s.readEQ 0 1 c).toNat ∧
      ∀ c' : Chan, c' < c → inMask 7 c' → s.readEQ 0 0 c' = s.readEQ 0 1 c'
    (0 : BitVec 2) ≠ 3 ∧ (7 : Mask) ≠ 0 ∧ rises s ∧ ¬rises u := by
  refine ⟨by decide +kernel, by decide +kernel, ⟨1, by decide +kernel, by decide +kernel, ?_⟩, ?_⟩
  · intro c' h
    have : c' = 0 := by
      rw [Fin.lt_def] at h
      exact Fin.ext (by simpa using h)
    subst this
    decide +kernel
  · rintro ⟨c, hm, h, -⟩
    revert hm h
    revert c
    decide +kernel

theorem witness_SwapEndpointsExchanges : inMask 8 3 = true ∧ ¬inMask 8 2 = true ∧ (5 : Nat) ≠ 2 * 1 := by decide

/-- A delta that overflows a signed field of 9 bits, and the greatest that does not. -/
theorem witness_DeltaClampsAndMarks :
    (1 : BitVec 2) ≠ 3 ∧ (1 : Mask) ≠ 0 ∧ 2 ≤ (9 : BitVec 5).toNat ∧ (9 : BitVec 5).toNat ≤ 16 ∧
    inMask 1 0 = true ∧ (2 : Int) ^ 8 - 1 < 756 - 500 ∧ ¬((2 : Int) ^ 8 - 1 < 755 - 500) ∧
    ¬((244 : Int) - 500 < -2 ^ 8) ∧ (243 : Int) - 500 < -2 ^ 8 := by decide

theorem witness_WeightsAreTheTables : 2 ≤ 4 ∧ 4 ≤ 4 ∧ 15 < 2 ^ 4 := by decide

theorem witness_WeightedPalettesInterpolate :
    (2 : BitVec 2) ≠ 3 ∧ (15 : Mask) ≠ 0 ∧ 2 ≤ (4 : BitVec 3).toNat ∧ (4 : BitVec 3).toNat ≤ 4 := by decide

theorem witness_DividedPalettes : (2 : BitVec 2) ≠ 3 ∧ (1 : Mask) ≠ 0 := by decide

theorem witness_ExchangeReversesThePalette :
    2 ≤ 3 ∧ 3 ≤ 4 ∧ 0 < 65536 ∧ 65535 < 65536 ∧ ((7 : Entry).val < 2 ^ 3) := by decide

/-- Pixels 15, 2 and 0 of V-IDX-5. -/
theorem witness_SubsetOfAPixel :
    (0x8000 : Half).getLsbD (15 : Pixel).val = true ∧
    ((0x8000 : Half).getLsbD (2 : Pixel).val = false ∧ (0xCCCC : Half).getLsbD (2 : Pixel).val = true) ∧
    ((0x8000 : Half).getLsbD (0 : Pixel).val = false ∧ (0xCCCC : Half).getLsbD (0 : Pixel).val = false) := by decide +kernel

theorem witness_IdxnChoosesTheNearest :
    (0 : BitVec 2) ≠ 3 ∧ (1 : Mask) ≠ 0 ∧ 2 ≤ (2 : BitVec 3).toNat ∧ (2 : BitVec 3).toNat ≤ 4 ∧
    State.reset.subsetAt 0 = subsetOf 0 ∧ (3 : Entry).val < 2 ^ (2 : BitVec 3).toNat := by decide +kernel

/-- On a line from 0 to 255: a pixel before its start, one beyond its end, one between. -/
theorem witness_IdxpProjectsAndLooksUp :
    let s := withPAL 0 [0, 84, 171, 255] (withPX [0, 300, 100] State.reset)
    (0 : BitVec 2) ≠ 3 ∧ (1 : Mask) ≠ 0 ∧ 2 ≤ (2 : BitVec 3).toNat ∧ (2 : BitVec 3).toNat ≤ 4 ∧
      s.subsetAt 2 = subsetOf 0 ∧ s.spanDot 0 1 3 0 ≤ 0 ∧
      (s.spanNorm 0 1 3 ≠ 0 ∧ 0 < s.spanDot 0 1 3 1 ∧ s.spanNorm 0 1 3 ≤ s.spanDot 0 1 3 1) ∧
      (0 < s.spanDot 0 1 3 2 ∧ s.spanDot 0 1 3 2 < s.spanNorm 0 1 3 ∧
        ((25 : Nat) : Int) = (126 * s.spanDot 0 1 3 2 + s.spanNorm 0 1 3) / (2 * s.spanNorm 0 1 3)) := by
  decide +kernel

/-- A table that R149 admits: a step at 63. -/
theorem witness_AssignLutIsBounded :
    let raw := fun (iw f : Nat) => if 63 ≤ f then 2 ^ iw - 1 else 0
    2 ≤ 3 ∧ 3 ≤ 4 ∧ raw 3 0 = 0 ∧ raw 3 63 = 2 ^ 3 - 1 ∧ ∀ f g, f ≤ g → g ≤ 63 → raw 3 f ≤ raw 3 g := by
  refine ⟨by decide, by decide, by decide, by decide, fun f g h _ => ?_⟩
  dsimp only
  split <;> split <;> omega

/-- Anchor 15 of subset 1 with its top bit clear and with it set. -/
theorem witness_FixExchangesAtAHighAnchor :
    let s := { withIX 0 (List.replicate 15 0 ++ [3]) State.reset with anch := 0x0F, pm1 := 0x8000 }
    let u := { withIX 0 (List.replicate 15 0 ++ [4]) State.reset with anch := 0x0F, pm1 := 0x8000 }
    (1 : BitVec 2) ≠ 3 ∧ (1 : Mask) ≠ 0 ∧ 2 ≤ (3 : BitVec 3).toNat ∧ (3 : BitVec 3).toNat ≤ 4 ∧
      (15 : Pixel).val = (if (1 : BitVec 2) = 0 then 0 else if (1 : BitVec 2) = 1 then s.anch.toNat % 16
        else s.anch.toNat / 16 % 16) ∧
      s.ix[(0 : Stream)][(15 : Pixel)].getLsbD (3 - 1) = false ∧
      u.ix[(0 : Stream)][(15 : Pixel)].getLsbD (3 - 1) = true ∧ u.subsetAt 15 = subsetOf 1 := by decide +kernel

theorem witness_FixKeepsTheColours :
    let s := { withIX 0 (List.replicate 15 0 ++ [4]) State.reset with anch := 0x0F, pm1 := 0x8000 }
    (1 : BitVec 2) ≠ 3 ∧ (1 : Mask) ≠ 0 ∧ 2 ≤ (3 : BitVec 3).toNat ∧ (3 : BitVec 3).toNat ≤ 4 ∧
      s.subsetAt (s.anchor (subsetOf 1)) = subsetOf 1 ∧
      (∀ p : Pixel, s.subsetAt p = subsetOf 1 → s.ix[streamOf 0][p].toNat < 2 ^ (3 : BitVec 3).toNat) ∧
      exec (.fix 0 1 1 3) s = .next (after (.fix 0 1 1 3) s) := by
  refine ⟨?_, ?_, ?_, ?_, ?_, ?_, rfl⟩ <;> decide +kernel

theorem witness_PackReplacesTheField : 1 ≤ 16 ∧ 16 ≤ 16 ∧ 112 + 16 ≤ 128 := by decide

/-- The ends of the undefined selectors. -/
theorem witness_SelectorsNameRegisters :
    ∀ sel ∈ [(0x18 : BitVec 8), 0x1F, 0x38, 0x3F, 0x66, 0x6F, 0x71, 0xFF],
      (0x18 ≤ sel.toNat ∧ sel.toNat ≤ 0x1F) ∨ (0x38 ≤ sel.toNat ∧ sel.toNat ≤ 0x3F) ∨
        (0x66 ≤ sel.toNat ∧ sel.toNat ≤ 0x6F) ∨ 0x71 ≤ sel.toNat := by decide +kernel

/-- The last bit of the block, packed from the accumulator T. -/
theorem witness_PutPacksAField :
    selSource 0x70 = some .t ∧ (127 : BitVec 7).toNat + ((0 : BitVec 4).toNat + 1) ≤ 128 := by decide +kernel

/-- A stream that ends at the last bit. -/
theorem witness_PutixPacksTheStream :
    2 ≤ (4 : BitVec 3).toNat ∧ (4 : BitVec 3).toNat ≤ 4 ∧
    (65 : BitVec 7).toNat + ∑ p : Pixel, State.reset.indexBits (4 : BitVec 3).toNat 1 p ≤ 128 := by decide +kernel

theorem witness_DisjointPacksCommute :
    1 ≤ 16 ∧ 16 ≤ 16 ∧ 112 + 16 ≤ 128 ∧ 1 ≤ 1 ∧ 1 ≤ 16 ∧ 111 + 1 ≤ 128 ∧ (112 + 16 ≤ 111 ∨ 111 + 1 ≤ 112) := by
  decide

end Sys2Proof.Tests
end

section
/-! CFG matters to no command but through FMT, and FMT to EMIT alone (10_state.md rule R40; 45_control.md
rule R192). Every command is a list of checks followed by an effect (`exec_eq_checked`), so it is enough that
the checks do not see CFG and that the effect commutes with changing it. -/

namespace Sys2Proof.Machine

/-! ### Every command as its checks and its effect -/

/-- The checks a command makes before its first write, in order, each with its fault (R95, R266). -/
def State.checks (s : State) : Instr → List (Bool × FaultCause)
  | .nop | .blkinit | .keepmin | .candinit | .ldpx _ _ _ => []
  | .ldc reg imm => match ldcTarget reg with
    | some r => [(ldcLegal r imm, .illegalOperand)]
    | none => [(false, .illegalRegister)]
  | .lder b _ _ _ => [(subsetOk b, .illegalOperand)]
  | .emit _ => [(s.emitFits, .emitRange)]
  | .qntl b _ m n | .unql b _ m n => widthChecks b m 4 8 n
  | .qntlp b _ m n | .unqlp b _ m n => widthChecks b m 4 7 n
  | .qnth b _ m n | .unqh b _ m n => widthChecks b m 1 16 n
  | .delta b _ m n => widthChecks b m 2 16 n
  | .order b m | .palt b m | .pals b m => subsetChecks b m
  | .palw b m iw | .palh b m iw | .idxn _ b m iw | .idxp _ b m iw | .fix _ b m iw => indexWidthChecks b m iw
  | .put off wm1 _ sel => match selSource sel with
    | some _ => [(putFits off wm1, .packRange)]
    | none => [(false, .illegalOperand)]
  | .putix _ off iw na => [(widthOk iw, .illegalOperand), (s.streamFits off iw.toNat na, .packRange)]

/-- A command makes its checks and then has its effect (R262, R266). -/
theorem exec_eq_checked (i : Instr) (s : State) : exec i s = checked (s.checks i) s (effect i s).complete := by
  cases i
  case ldc reg imm =>
    simp only [exec, execLdc, State.checks, effect]
    cases ldcTarget reg <;> rfl
  case put off wm1 sh sel =>
    simp only [exec, execPut, State.checks, effect]
    cases selSource sel <;> rfl
  all_goals rfl

/-! ### The state under another CFG -/

/-- `s` with another value in CFG (R40). -/
def State.withCfg (s : State) (v : Half) : State := { s with cfg := v }

section
variable (s : State) (v : Half)

theorem State.complete_withCfg : (s.withCfg v).complete = s.complete.withCfg v := rfl

theorem State.blockSize_withCfg (h : v.toNat % 8 = s.cfg.toNat % 8) :
    (s.withCfg v).blockSize = s.blockSize := by
  have hfmt : (s.withCfg v).fmt = s.fmt := h
  simp only [State.blockSize, hfmt]

theorem State.raise_withCfg (f : FaultCause) : (s.withCfg v).raise f = (s.raise f).withCfg v := by
  simp only [State.raise, apply_ite (State.withCfg · v)]
  rfl

theorem State.keepMin_withCfg : (s.withCfg v).keepMin = s.keepMin.withCfg v := by
  simp only [State.keepMin, apply_ite (State.withCfg · v)]
  rfl

theorem State.markOverflow_withCfg (o : Bool) : (s.withCfg v).markOverflow o = (s.markOverflow o).withCfg v := by
  cases o <;> rfl

theorem State.deltaCode_withCfg (b : Subset) (e : EndNo) (m : Mask) (n : Nat) :
    (s.withCfg v).deltaCode b e m n = (s.deltaCode b e m n).withCfg v := by
  simp only [State.deltaCode, ← State.markOverflow_withCfg]
  rfl

theorem State.orderEndpoints_withCfg (b : Subset) (m : Mask) :
    (s.withCfg v).orderEndpoints b m = (s.orderEndpoints b m).withCfg v := by
  have hrise : (s.withCfg v).endpointsRise b m = s.endpointsRise b m := rfl
  cases h : s.endpointsRise b m
  · rw [State.orderEndpoints_of_not_rise h, State.orderEndpoints_of_not_rise (hrise.trans h)]
    rfl
  · rw [State.orderEndpoints_of_rise h, State.orderEndpoints_of_rise (hrise.trans h)]
    rfl

theorem State.fixAnchor_withCfg (t : Stream) (b : Subset) (m : Mask) (iw : Nat) :
    (s.withCfg v).fixAnchor t b m iw = (s.fixAnchor t b m iw).withCfg v := by
  simp only [State.fixAnchor, apply_ite (State.withCfg · v)]
  rfl

/-- LDC to another control register than CFG (R188). -/
theorem State.storeCtrl_withCfg {r : CtrlReg} (hr : r ≠ .cfg) (imm : Half) :
    (s.withCfg v).storeCtrl r imm = (s.storeCtrl r imm).withCfg v := by
  cases r
  case cfg => exact absurd rfl hr
  all_goals rfl

theorem packAll_withCfg (width : Pixel → Nat) (value : Pixel → Half) (ps : List Pixel) (pos : Nat) :
    packAll width value ps pos (s.withCfg v) = (packAll width value ps pos s).withCfg v := by
  induction ps generalizing pos s with
  | nil => rfl
  | cons p ps ih => exact ih (s.pack pos (width p) (value p)) (pos + width p)

end

/-- Register number 0 alone is CFG (R38). -/
theorem ldcTarget_eq_cfg {reg : BitVec 8} (h : ldcTarget reg = some .cfg) : reg = 0 := by
  revert reg
  decide

/-! ### No command but EMIT sees CFG, and EMIT sees FMT alone -/

section
variable {i : Instr} {s : State} {v : Half}

/-- The checks do not see what the hypothesis lets vary in CFG: only EMIT's range reads it, through the block
size (R192). -/
theorem State.checks_withCfg (hv : v.toNat % 8 = s.cfg.toNat % 8 ∨ ∀ src, i ≠ .emit src) :
    (s.withCfg v).checks i = s.checks i := by
  cases i
  case emit src =>
    have hfmt := hv.resolve_right fun h => h src rfl
    simp only [State.checks, State.emitFits, State.blockSize_withCfg s v hfmt]
    rfl
  all_goals rfl

/-- Changing CFG commutes with the effect of a command that does not write it. LDC needs its register not to be
CFG, EMIT the same block size, a guarded or repeated update its own lemma above; every other effect is one
record update that names no CFG. -/
theorem effect_withCfg (hw : ∀ imm, i ≠ .ldc 0x00 imm)
    (hv : v.toNat % 8 = s.cfg.toNat % 8 ∨ ∀ src, i ≠ .emit src) :
    effect i (s.withCfg v) = (effect i s).withCfg v := by
  cases i
  case ldc reg imm =>
    dsimp only [effect]
    split
    · rename_i r hr
      refine State.storeCtrl_withCfg s v (fun hcfg => hw imm ?_) imm
      rw [ldcTarget_eq_cfg (hr.trans (congrArg some hcfg))]
    · rfl
  case emit src =>
    have hfmt := hv.resolve_right fun h => h src rfl
    simp only [effect, State.emitBytes, State.blockSize_withCfg s v hfmt]
    rfl
  case put off wm1 sh sel =>
    dsimp only [effect]
    split <;> rfl
  case putix t off iw na => exact packAll_withCfg s v _ _ _ _
  case keepmin => exact State.keepMin_withCfg s v
  case order b m => exact State.orderEndpoints_withCfg s v _ _
  case delta b e m n => exact State.deltaCode_withCfg s v _ _ _ _
  case fix t b m iw => exact State.fixAnchor_withCfg s v _ _ _ _
  all_goals rfl

/-- Changing CFG commutes with making the checks: the same one fails, or none does. -/
theorem checked_withCfg {cs : List (Bool × FaultCause)} {run t : State} (h : checked cs s run = .next t) :
    checked cs (s.withCfg v) (run.withCfg v) = .next (t.withCfg v) := by
  rw [checked_eq] at h ⊢
  cases h
  cases firstFailing cs with
  | none => rfl
  | some f => exact congrArg _ (State.raise_withCfg s v f)

end

/-- Settles O29: the checks do not see CFG, and the effect commutes with changing it. -/
theorem qualityHasNoEffect : Obligations.QualityHasNoEffect := by
  intro i s t v hw hv hexec
  change exec i (s.withCfg v) = .next (t.withCfg v)
  rw [exec_eq_checked] at hexec ⊢
  rw [State.checks_withCfg hv, effect_withCfg hw hv, State.complete_withCfg]
  exact checked_withCfg hexec

end Sys2Proof.Machine
end

section
/-! What one step can do, event by event, in one inductive relation: later proofs about `step` split on it
(30_encoding.md rules R80, R81; 60_exceptions.md rule R263; 70_reset_and_hazards.md rules R279, R285). -/

namespace Sys2Proof.Machine

/-- All that one step can do to a state, by the event that the port serves. In `completed` the state `u` is the
one the command runs in: the event is off the port and the outputs are cleared. -/
inductive Served (s : State) : State → Prop
  /-- No event: the unit waits (R279). -/
  | idle (h : s.pending = []) : Served s { s with out := [] }
  /-- A command in the faulted state is discarded (R263). -/
  | discarded {w : Word} {rest : List PortEvent} (h : s.pending = .command w :: rest)
      (hf : s.status.fault = true) : Served s { s with pending := rest, out := [.ack] }
  /-- A legal command completes with its effect (R265). -/
  | completed {w : Word} {rest : List PortEvent} {i : Instr} {u : State} (h : s.pending = .command w :: rest)
      (hf : s.status.fault = false) (hu : u = { s with pending := rest, out := [] })
      (hd : decode w = .command i) (hl : u.legal i = true) :
      Served s { (effect i u).complete with out := (effect i u).out ++ [.ack] }
  /-- A word that spells no legal command takes a fault (R262). -/
  | faulted {w : Word} {rest : List PortEvent} (h : s.pending = .command w :: rest)
      (hf : s.status.fault = false) (f : FaultCause) :
      Served s { s.faultRecord (faultCode f) with pending := rest, out := [.ack] }
  /-- A read answers the view (R48). -/
  | answered {num : BitVec 8} {rest : List PortEvent} (h : s.pending = .read num :: rest) :
      Served s { s with pending := rest, out := [.readData (s.readPort num)] }
  /-- Reset, between commands (R285). -/
  | reset {rest : List PortEvent} (h : s.pending = .reset :: rest) :
      Served s (State.assertReset { s with pending := rest, out := [] })
  /-- Reset, during a command (R285). -/
  | abandoned {w : Word} {rest : List PortEvent} (h : s.pending = .resetDuring w :: rest) :
      Served s (State.assertReset (State.abandon w { s with pending := rest, out := [] }))

/-- A healthy unit performs the word presented, and acknowledges it (R81). -/
theorem acceptWord_of_healthy {s : State} (h : s.status.fault = false) (w : Word) :
    acceptWord w s = acknowledge (runWord w s) := by
  simp [acceptWord, h]

/-- A faulted unit acknowledges the word presented (R263). -/
theorem acceptWord_of_faulted {s : State} (h : s.status.fault = true) (w : Word) :
    acceptWord w s = .next { s with out := s.out ++ [.ack] } := by
  simp [acceptWord, acknowledge, h]

theorem step_idle {s : State} (h : s.pending = []) : step s = .next { s with out := [] } := by
  simp [step, stepPort, h]

theorem step_read {s : State} {num : BitVec 8} {rest : List PortEvent} (h : s.pending = .read num :: rest) :
    step s = .next { s with pending := rest, out := [.readData (s.readPort num)] } := by
  simp [step, stepPort, h, servePort]
  rfl

theorem step_reset {s : State} {rest : List PortEvent} (h : s.pending = .reset :: rest) :
    step s = .next (State.assertReset { s with pending := rest, out := [] }) := by
  simp [step, stepPort, h, servePort]

/-- Every step answers a next state, and `Served` says which. -/
theorem step_served (s : State) : ∃ t, step s = .next t ∧ Served s t := by
  match h : s.pending with
  | [] => exact ⟨_, step_idle h, .idle h⟩
  | .read num :: rest => exact ⟨_, step_read h, .answered h⟩
  | .reset :: rest => exact ⟨_, step_reset h, .reset h⟩
  | .resetDuring w :: rest => exact ⟨_, step_resetDuring h, .abandoned h⟩
  | .command w :: rest =>
    rw [step_command h]
    cases hf : s.status.fault with
    | true => exact ⟨_, acceptWord_of_faulted (by exact hf) w, .discarded h hf⟩
    | false =>
      rw [acceptWord_of_healthy (by exact hf)]
      rcases runWord_cases w { s with pending := rest, out := [] } with ⟨i, hd, hl, hr⟩ | ⟨f, hr⟩
      · exact ⟨_, congrArg acknowledge hr, .completed h hf rfl hd hl⟩
      · refine ⟨_, congrArg acknowledge hr, ?_⟩
        rw [State.raise_of_healthy (by exact hf)]
        exact .faulted h hf f

/-- The inversion of `step`. -/
theorem served_of_step {s t : State} (h : step s = .next t) : Served s t := by
  obtain ⟨t', ht', hs⟩ := step_served s
  rw [ht'] at h
  cases h
  exact hs

/-- Settles O9: the step on a read is the one case of serving a read, in the faulted state too. -/
theorem readPortHasNoSideEffect : Obligations.ReadPortHasNoSideEffect :=
  fun _ _ _ h => step_read h

end Sys2Proof.Machine
end

section
/-! The invariant of the unit's state (10_state.md rules R32, R33, R39, R40, R43, R44, R46; 60_exceptions.md rule
R264): reset has it, completing, faulting and resetting keep it, and of a command's effect each clause is kept
on its own. -/

namespace Sys2Proof.Machine

/-! ### What the invariant says of single updates -/

/-- Settles O24: every control register, flag and record is 0 after reset, and the memory lists nothing. -/
theorem resetMeetsTheInvariant : Obligations.ResetMeetsTheInvariant where
  memory := State.reset_mem_wf
  controls := by decide
  recorded := by simp [State.reset]
  unrecorded := by simp [State.reset]
  sentinel := by simp [State.reset]
  emptyStore := by simp [State.reset]

/-- Reset keeps the memory and gives everything else its reset value (R285). -/
theorem Inv.assertReset {s : State} (h : s.mem.wf = true) : Inv s.assertReset where
  memory := h
  controls := resetMeetsTheInvariant.controls
  recorded := resetMeetsTheInvariant.recorded
  unrecorded := resetMeetsTheInvariant.unrecorded
  sentinel := resetMeetsTheInvariant.sentinel
  emptyStore := resetMeetsTheInvariant.emptyStore

/-- The invariant says nothing of the host's next acts or of what the unit drives. -/
theorem Inv.withPort {s : State} (h : Inv s) (p : List PortEvent) (o : List PortOutput) :
    Inv { s with pending := p, out := o } where
  memory := h.memory
  controls := h.controls
  recorded := h.recorded
  unrecorded := h.unrecorded
  sentinel := h.sentinel
  emptyStore := h.emptyStore

/-- `CIDX` moves only where no fault is recorded (R264). -/
theorem Inv.complete_of_healthy {s : State} (h : Inv s) (hf : s.status.fault = false) : Inv s.complete where
  memory := h.memory
  controls := h.controls
  recorded := fun hc => by rw [State.complete_status, hf] at hc; cases hc
  unrecorded := h.unrecorded
  sentinel := h.sentinel
  emptyStore := h.emptyStore

theorem faultCode_bounds (f : FaultCause) : 1 ≤ (faultCode f).toNat ∧ (faultCode f).toNat ≤ 6 := by
  cases f <;> decide

/-- The record of a fault names its cause and `CIDX` (R262, R264). -/
theorem Inv.faultRecord {s : State} (h : Inv s) (f : FaultCause) : Inv (s.faultRecord (faultCode f)) where
  memory := h.memory
  controls := h.controls
  recorded := fun _ => ⟨(faultCode_bounds f).1, (faultCode_bounds f).2, rfl⟩
  unrecorded := fun hc => by simp at hc
  sentinel := h.sentinel
  emptyStore := h.emptyStore

/-! ### STATUS and ERR after the guarded updates -/

@[simp] theorem State.keepMin_status (s : State) :
    s.keepMin.status = { s.status with bvalid := s.status.bvalid || s.candidateWins } := by
  unfold State.keepMin
  split <;> simp [*]

@[simp] theorem State.orderEndpoints_status (s : State) (b : Subset) (m : Mask) :
    (s.orderEndpoints b m).status = { s.status with eql := s.endpointsEqual b m } := by
  unfold State.orderEndpoints
  split <;> rfl

@[simp] theorem State.deltaCode_status (s : State) (b : Subset) (e : EndNo) (m : Mask) (n : Nat) :
    (s.deltaCode b e m n).status
      = { s.status with dovf := s.status.dovf || s.anyDeltaOverflows b e m n } := by
  rw [State.deltaCode_frame]

@[simp] theorem State.deltaCode_err (s : State) (b : Subset) (e : EndNo) (m : Mask) (n : Nat) :
    (s.deltaCode b e m n).err = if s.anyDeltaOverflows b e m n then errInf else s.err := by
  rw [State.deltaCode_frame]

@[simp] theorem Status.candidateStart_bvalid (f : Status) : f.candidateStart.bvalid = f.bvalid := rfl

/-! ### What a command's effect leaves of the invariant, clause by clause -/

/-- EMIT writes inside the memory (R65), the others write none. -/
theorem effect_keeps_wf {i : Instr} {s : State} (hl : s.legal i = true) (h : s.mem.wf = true) :
    (effect i s).mem.wf = true := by
  by_cases he : ∃ src, i = .emit src
  · obtain ⟨src, rfl⟩ := he
    have hfits : s.oaddr.toNat + s.blockSize ≤ 2 ^ 32 := by
      simpa [State.legal, Instr.wellFormed, State.rangeOk, State.emitFits] using hl
    exact Memory.wf_writeBytes _ _ _ h (by rwa [State.emitBytes_length])
  · rwa [effect_mem i s (by simpa using he)]

theorem pbits_legal_iff (v : Half) : ldcLegal .pbits v = true ↔ ∀ j, 6 ≤ j → v.getLsbD j = false := by
  have hlt : ldcLegal .pbits v = true ↔ v.toNat < 2 ^ 6 := by simp [ldcLegal]
  rw [hlt]
  refine ⟨fun h j hj => ?_, fun h => Nat.lt_pow_two_of_testBit _ h⟩
  exact Nat.testBit_lt_two_pow (Nat.lt_of_lt_of_le h (Nat.pow_le_pow_right (by decide) hj))

/-- The exchange moves bits 0 to 5 alone (R44, R121). -/
theorem exchangePBits_legal {v : Half} (h : ldcLegal .pbits v = true) (b : Subset) :
    ldcLegal .pbits (exchangePBits v b) = true := by
  rw [pbits_legal_iff] at h ⊢
  intro j hj
  have hb := b.isLt
  rw [exchangePBits_getLsbD, if_neg (by omega), if_neg (by omega)]
  exact h j hj

/-- A sum that begins at the sentinel saturates there (R17, R32). -/
theorem sat64_add_of_errInf {v : BitVec 64} (h : v = errInf) (n : Nat) : sat64 (v.toNat + n) = errInf := by
  subst h
  have hmin : min (errInf.toNat + n) (2 ^ 64 - 1) = errInf.toNat := by
    simp only [show errInf.toNat = 2 ^ 64 - 1 from rfl]
    omega
  rw [sat64, hmin, BitVec.ofNat_toNat, BitVec.setWidth_eq]

/-- A legal LDC stores a legal value, and ORDER and FIX permute p-bits; no other command writes CFG, ANCH or
PBITS (R39, R40, R43, R44). -/
theorem effect_keeps_controls {i : Instr} {s : State} (hl : s.legal i = true)
    (h : ldcLegal .cfg s.cfg = true ∧ ldcLegal .anch s.anch = true ∧ ldcLegal .pbits s.pbits = true) :
    ldcLegal .cfg (effect i s).cfg = true ∧ ldcLegal .anch (effect i s).anch = true ∧
      ldcLegal .pbits (effect i s).pbits = true := by
  obtain ⟨hcfg, hanch, hpbits⟩ := h
  cases i <;> dsimp only [effect]
  case ldc reg imm =>
    split
    · rename_i r hr
      have himm : ldcLegal r imm = true := by
        simpa [State.legal, Instr.wellFormed, State.rangeOk, hr] using hl
      cases r
      case cfg => exact ⟨himm, hanch, hpbits⟩
      case anch => exact ⟨hcfg, himm, hpbits⟩
      case pbits => exact ⟨hcfg, hanch, himm⟩
      all_goals exact ⟨hcfg, hanch, hpbits⟩
    · exact ⟨hcfg, hanch, hpbits⟩
  case order b m =>
    refine ⟨by simpa using hcfg, by simpa using hanch, ?_⟩
    unfold State.orderEndpoints
    split
    · exact exchangePBits_legal hpbits _
    · exact hpbits
  case fix t b m iw =>
    refine ⟨by simpa using hcfg, by simpa using hanch, ?_⟩
    unfold State.fixAnchor
    split
    · exact exchangePBits_legal hpbits _
    · exact hpbits
  case put => split <;> exact ⟨hcfg, hanch, hpbits⟩
  case putix => rw [packAll_frame]; exact ⟨hcfg, hanch, hpbits⟩
  all_goals simp [hcfg, hanch, hpbits]

/-- DOVF comes with the sentinel, sums saturate there, and BLKINIT and CANDINIT clear both (R32, R120). -/
theorem effect_keeps_sentinel (i : Instr) {s : State} (h : s.status.dovf = true → s.err = errInf) :
    (effect i s).status.dovf = true → (effect i s).err = errInf := by
  cases i <;> dsimp only [effect]
  case blkinit => simp [Status.blockStart]
  case candinit => simp [Status.candidateStart]
  case idxn => exact fun hd => sat64_add_of_errInf (h hd) _
  case idxp => exact fun hd => sat64_add_of_errInf (h hd) _
  case delta b e m n =>
    cases ho : s.anyDeltaOverflows (subsetOf b) (endOf e) m n.toNat with
    | true => simp [ho]
    | false => simpa [ho] using h
  case ldc => split <;> simpa using h
  case put => split <;> exact h
  case putix => rw [packAll_frame]; exact h
  all_goals simpa using h

/-- KEEPMIN fills the candidate store and sets BVALID, BLKINIT clears both; no other command writes either
(R33, R186, R191). -/
theorem effect_keeps_emptyStore (i : Instr) {s : State}
    (h : s.status.bvalid = false → s.bestOb = 0 ∧ s.bestErr = errInf) :
    (effect i s).status.bvalid = false → (effect i s).bestOb = 0 ∧ (effect i s).bestErr = errInf := by
  cases i <;> dsimp only [effect]
  case blkinit => exact fun _ => ⟨rfl, rfl⟩
  case keepmin =>
    unfold State.keepMin
    split
    · exact fun hb => absurd hb (by simp)
    · exact h
  case ldc => split <;> simpa using h
  case put => split <;> exact h
  case putix => rw [packAll_frame]; exact h
  all_goals simpa using h

/-- A legal command's effect keeps the invariant. -/
theorem Inv.effect_of_legal {i : Instr} {s : State} (h : Inv s) (hl : s.legal i = true) : Inv (effect i s) where
  memory := effect_keeps_wf hl h.memory
  controls := effect_keeps_controls hl h.controls
  recorded := by rw [effect_fault, effect_fcode, effect_fcidx, effect_cidx]; exact h.recorded
  unrecorded := by rw [effect_fault, effect_fcode, effect_fcidx]; exact h.unrecorded
  sentinel := effect_keeps_sentinel i h.sentinel
  emptyStore := effect_keeps_emptyStore i h.emptyStore

/-- Of an abandoned command at most the first bytes of a block that fits are in memory (R65, R285). -/
theorem abandon_keeps_wf (w : Word) {s : State} (h : s.mem.wf = true) : (s.abandon w).mem.wf = true := by
  rcases s.abandon_cases w with ha | ⟨src, k, -, -, hfits, hk, ha⟩
  · rwa [ha]
  · have hbound : s.oaddr.toNat + s.blockSize ≤ 2 ^ 32 := by simpa [State.emitFits] using hfits
    rw [ha]
    exact Memory.wf_writeBytes _ _ _ h (by rw [blockBytes_length]; omega)

/-- Settles O23, by what the step served: a command's effect or a fault's record keeps each clause of the
invariant, reset establishes them all, and nothing else touches what they speak of. -/
theorem stepKeepsTheInvariant : Obligations.StepKeepsTheInvariant := by
  intro s t h hstep
  cases served_of_step hstep with
  | idle => exact h.withPort _ _
  | discarded => exact h.withPort _ _
  | answered => exact h.withPort _ _
  | faulted _ _ f => exact (h.faultRecord f).withPort _ _
  | completed _ hf hu _ hl =>
    subst hu
    have hdone := ((h.withPort _ _).effect_of_legal hl).complete_of_healthy ((effect_fault _ _).trans hf)
    exact hdone.withPort _ _
  | reset => exact .assertReset h.memory
  | abandoned => exact .assertReset (abandon_keeps_wf _ h.memory)

end Sys2Proof.Machine
end

section
/-! Two runs of one command from related states: as every command is its checks and its effect
(`exec_eq_checked`), it is enough to compare those. -/

namespace Sys2Proof.Machine

/-- A command relates its next states if the two states pass the same checks and the relation holds between the
faults and between the completed effects. -/
theorem exec_related {R : State → State → Prop} {i : Instr} {s s' t : State} (hc : s'.checks i = s.checks i)
    (hraise : ∀ f, R (s.raise f) (s'.raise f)) (hrun : R (effect i s).complete (effect i s').complete)
    (h : exec i s = .next t) : ∃ t', exec i s' = .next t' ∧ R t t' := by
  rw [exec_eq_checked, checked_eq] at h
  rw [exec_eq_checked, checked_eq, hc]
  cases h
  refine ⟨_, rfl, ?_⟩
  cases firstFailing (s.checks i) with
  | none => exact hrun
  | some f => exact hraise f

end Sys2Proof.Machine
end

section
/-! Noninterference (10_state.md rule R35): the bits stored in a register that no command has written have no
effect on a run. `State.scrub` sets them to 0, so two states are `Alike` iff they scrub to one state
(`alike_iff_scrub`); and as no command reads them and every command moves them with their mark, scrubbing
commutes with a step (`step_scrub`). -/

namespace Sys2Proof.Machine

/-! ### Scrubbing a register and a register file -/

/-- A data register without the stored bits that no command has written (log 1). -/
def DataReg.scrub (r : DataReg) : DataReg := if r.written then r else .unspecified

@[simp] theorem DataReg.scrub_ofValue (v : Half) : (DataReg.ofValue v).scrub = .ofValue v := rfl

@[simp] theorem DataReg.scrub_ofNat (n : Nat) : (DataReg.ofNat n).scrub = .ofNat n := rfl

@[simp] theorem DataReg.scrub_unspecified : DataReg.unspecified.scrub = .unspecified := rfl

/-- A read does not see the bits that scrubbing removes (R35). -/
@[simp] theorem DataReg.read_scrub (r : DataReg) (free : Half) : r.scrub.read free = r.read free := by
  cases h : r.written <;> simp [DataReg.scrub, DataReg.read, DataReg.unspecified, h]

theorem DataReg.alike_iff_scrub (r r' : DataReg) : r.Alike r' ↔ r.scrub = r'.scrub := by
  obtain ⟨v, w⟩ := r
  obtain ⟨v', w'⟩ := r'
  cases w <;> cases w' <;> simp [DataReg.Alike, DataReg.scrub, DataReg.unspecified]

/-- Every register of `PX` scrubbed. -/
def PixelFile.scrub (f : PixelFile) : PixelFile := f.map (·.map DataReg.scrub)

/-- Every register of an endpoint file scrubbed. -/
def EndpointFile.scrub (f : EndpointFile) : EndpointFile := f.map (·.map (·.map DataReg.scrub))

/-- Every register of `PAL` scrubbed. -/
def PaletteFile.scrub (f : PaletteFile) : PaletteFile := f.map (·.map (·.map DataReg.scrub))

theorem PixelFile.scrub_get (f : PixelFile) (p : Pixel) (c : Chan) :
    f.scrub[p][c] = (f[p][c]).scrub := by
  simp [PixelFile.scrub]

theorem EndpointFile.scrub_get (f : EndpointFile) (b : Subset) (e : EndNo) (c : Chan) :
    f.scrub[b][e][c] = (f[b][e][c]).scrub := by
  simp [EndpointFile.scrub]

theorem PaletteFile.scrub_get (f : PaletteFile) (b : Subset) (k : Entry) (c : Chan) :
    f.scrub[b][k][c] = (f[b][k][c]).scrub := by
  simp [PaletteFile.scrub]

/-- Two pixel files that agree at every index are equal. -/
theorem PixelFile.ext_get {f g : PixelFile} (h : ∀ (p : Pixel) (c : Chan), f[p][c] = g[p][c]) : f = g := by
  ext p hp c hc : 2
  exact h ⟨p, hp⟩ ⟨c, hc⟩

theorem PixelFile.write_scrub (f : PixelFile) (p : Pixel) (c : Chan) (v : Half) :
    f.scrub.write p c (.ofValue v) = (f.write p c (.ofValue v)).scrub := by
  apply PixelFile.ext_get
  intro p' c'
  rw [PixelFile.scrub_get, PixelFile.write_get, PixelFile.write_get, PixelFile.scrub_get]
  split <;> rfl

/-- What a command writes is specified, so that scrubbing leaves it. -/
theorem EndpointFile.write_scrub (f : EndpointFile) (b : Subset) (e : EndNo) (m : Mask) {v : Chan → DataReg}
    (hv : ∀ c, (v c).scrub = v c) : f.scrub.write b e m v = (f.write b e m v).scrub := by
  apply EndpointFile.ext_get
  intro b' e' c
  rw [EndpointFile.scrub_get, EndpointFile.write_get, EndpointFile.write_get, EndpointFile.scrub_get,
    apply_ite DataReg.scrub, hv]

/-- An exchange moves a register's content whole, its mark included (R121; log 3). -/
theorem EndpointFile.exchange_scrub (f : EndpointFile) (b : Subset) (m : Mask) :
    f.scrub.exchange b m = (f.exchange b m).scrub := by
  apply EndpointFile.ext_get
  intro b' e c
  rw [EndpointFile.scrub_get, EndpointFile.exchange_get, EndpointFile.exchange_get, EndpointFile.scrub_get,
    EndpointFile.scrub_get, apply_ite DataReg.scrub]

theorem PaletteFile.write_scrub (f : PaletteFile) (b : Subset) (m : Mask) (n : Nat) {v : Entry → Chan → DataReg}
    (hv : ∀ k c, (v k c).scrub = v k c) : f.scrub.write b m n v = (f.write b m n v).scrub := by
  apply PaletteFile.ext_get
  intro b' k c
  rw [PaletteFile.scrub_get, PaletteFile.write_get, PaletteFile.write_get, PaletteFile.scrub_get,
    apply_ite DataReg.scrub, hv]

/-- A reversal moves a register's content whole, its mark included (R161; log 3). -/
theorem PaletteFile.reverse_scrub (f : PaletteFile) (b : Subset) (m : Mask) (max : Nat) :
    f.scrub.reverse b m max = (f.reverse b m max).scrub := by
  apply PaletteFile.ext_get
  intro b' k c
  rw [PaletteFile.scrub_get, PaletteFile.reverse_get, PaletteFile.reverse_get, PaletteFile.scrub_get,
    PaletteFile.scrub_get, apply_ite DataReg.scrub]

theorem PixelFile.scrub_eq_iff (f g : PixelFile) :
    f.scrub = g.scrub ↔ ∀ (p : Pixel) (c : Chan), (f[p][c]).Alike (g[p][c]) := by
  simp only [DataReg.alike_iff_scrub, ← PixelFile.scrub_get]
  exact ⟨fun h _ _ => by rw [h], PixelFile.ext_get⟩

theorem EndpointFile.scrub_eq_iff (f g : EndpointFile) :
    f.scrub = g.scrub ↔ ∀ (b : Subset) (e : EndNo) (c : Chan), (f[b][e][c]).Alike (g[b][e][c]) := by
  simp only [DataReg.alike_iff_scrub, ← EndpointFile.scrub_get]
  exact ⟨fun h _ _ _ => by rw [h], EndpointFile.ext_get⟩

theorem PaletteFile.scrub_eq_iff (f g : PaletteFile) :
    f.scrub = g.scrub ↔ ∀ (b : Subset) (k : Entry) (c : Chan), (f[b][k][c]).Alike (g[b][k][c]) := by
  simp only [DataReg.alike_iff_scrub, ← PaletteFile.scrub_get]
  exact ⟨fun h _ _ _ => by rw [h], PaletteFile.ext_get⟩

/-! ### Scrubbing the state -/

/-- `s` with every data register scrubbed. -/
def State.scrub (s : State) : State :=
  { s with
    px := s.px.scrub, er := s.er.scrub, eq := s.eq.scrub, ed := s.ed.scrub, eu := s.eu.scrub,
    pal := s.pal.scrub }

/-- Two states differ in unwritten bits alone iff they scrub to one state. -/
theorem alike_iff_scrub (s s' : State) : Alike s s' ↔ s.scrub = s'.scrub := by
  constructor
  · intro h
    calc s.scrub
        = { s with
            px := s'.px.scrub, er := s'.er.scrub, eq := s'.eq.scrub, ed := s'.ed.scrub, eu := s'.eu.scrub,
            pal := s'.pal.scrub } := by
          rw [State.scrub, (PixelFile.scrub_eq_iff _ _).mpr h.px, (EndpointFile.scrub_eq_iff _ _).mpr h.er,
            (EndpointFile.scrub_eq_iff _ _).mpr h.eq, (EndpointFile.scrub_eq_iff _ _).mpr h.ed,
            (EndpointFile.scrub_eq_iff _ _).mpr h.eu, (PaletteFile.scrub_eq_iff _ _).mpr h.pal]
      _ = s'.scrub := congrArg State.scrub h.rest.symm
  · intro h
    exact {
      px := (PixelFile.scrub_eq_iff _ _).mp (congrArg State.px h)
      er := (EndpointFile.scrub_eq_iff _ _).mp (congrArg State.er h)
      eq := (EndpointFile.scrub_eq_iff _ _).mp (congrArg State.eq h)
      ed := (EndpointFile.scrub_eq_iff _ _).mp (congrArg State.ed h)
      eu := (EndpointFile.scrub_eq_iff _ _).mp (congrArg State.eu h)
      pal := (PaletteFile.scrub_eq_iff _ _).mp (congrArg State.pal h)
      rest := congrArg (fun u : State => { u with
        px := s'.px, er := s'.er, eq := s'.eq, ed := s'.ed, eu := s'.eu, pal := s'.pal }) h.symm }

/-! ### No command reads what scrubbing removes -/

section
variable (s : State)

@[simp] theorem State.readPX_scrub (p : Pixel) (c : Chan) : s.scrub.readPX p c = s.readPX p c := by
  simp only [State.readPX, State.scrub, PixelFile.scrub_get, DataReg.read_scrub]

@[simp] theorem State.readER_scrub (b : Subset) (e : EndNo) (c : Chan) :
    s.scrub.readER b e c = s.readER b e c := by
  simp only [State.readER, State.scrub, EndpointFile.scrub_get, DataReg.read_scrub]

@[simp] theorem State.readEQ_scrub (b : Subset) (e : EndNo) (c : Chan) :
    s.scrub.readEQ b e c = s.readEQ b e c := by
  simp only [State.readEQ, State.scrub, EndpointFile.scrub_get, DataReg.read_scrub]

@[simp] theorem State.readED_scrub (b : Subset) (e : EndNo) (c : Chan) :
    s.scrub.readED b e c = s.readED b e c := by
  simp only [State.readED, State.scrub, EndpointFile.scrub_get, DataReg.read_scrub]

@[simp] theorem State.readEU_scrub (b : Subset) (e : EndNo) (c : Chan) :
    s.scrub.readEU b e c = s.readEU b e c := by
  simp only [State.readEU, State.scrub, EndpointFile.scrub_get, DataReg.read_scrub]

@[simp] theorem State.readPAL_scrub (b : Subset) (k : Entry) (c : Chan) :
    s.scrub.readPAL b k c = s.readPAL b k c := by
  simp only [State.readPAL, State.scrub, PaletteFile.scrub_get, DataReg.read_scrub]

@[simp] theorem State.endpointsRise_scrub (b : Subset) (m : Mask) :
    s.scrub.endpointsRise b m = s.endpointsRise b m := by
  simp only [State.endpointsRise, State.eqList, State.readEQ_scrub]

@[simp] theorem State.endpointsEqual_scrub (b : Subset) (m : Mask) :
    s.scrub.endpointsEqual b m = s.endpointsEqual b m := by
  rw [Bool.eq_iff_iff, State.endpointsEqual_iff, State.endpointsEqual_iff]
  simp only [State.readEQ_scrub]

@[simp] theorem State.deltaOf_scrub (b : Subset) (e : EndNo) (c : Chan) :
    s.scrub.deltaOf b e c = s.deltaOf b e c := by
  simp only [State.deltaOf, State.readEQ_scrub]

@[simp] theorem State.anyDeltaOverflows_scrub (b : Subset) (e : EndNo) (m : Mask) (n : Nat) :
    s.scrub.anyDeltaOverflows b e m n = s.anyDeltaOverflows b e m n := by
  simp only [State.anyDeltaOverflows, State.deltaOf_scrub]

@[simp] theorem State.dist_scrub (b : Subset) (m : Mask) (p : Pixel) (k : Entry) :
    s.scrub.dist b m p k = s.dist b m p k := by
  simp only [State.dist, State.readPX_scrub, State.readPAL_scrub]

@[simp] theorem State.nearestIndex_scrub (b : Subset) (m : Mask) (iw : Nat) :
    s.scrub.nearestIndex b m iw = s.nearestIndex b m iw := by
  funext p
  simp only [State.nearestIndex, State.dist_scrub]

@[simp] theorem State.projectedIndex_scrub (lut : Nat → Nat → Nat) (b : Subset) (m : Mask) (iw : Nat) :
    s.scrub.projectedIndex lut b m iw = s.projectedIndex lut b m iw := by
  funext p
  simp only [State.projectedIndex, State.lineNorm, State.lineDot, State.lineSpan, State.readPX_scrub,
    State.readPAL_scrub]

@[simp] theorem State.sourceValue_scrub (src : Source) : s.scrub.sourceValue src = s.sourceValue src := by
  cases src with
  | eq b e c => exact s.readEQ_scrub b e c
  | ed b e c => exact s.readED_scrub b e c
  | ix | pb | t => rfl

/-! ### Scrubbing commutes with every update -/

theorem State.complete_scrub : s.scrub.complete = s.complete.scrub := rfl

theorem State.raise_scrub (f : FaultCause) : s.scrub.raise f = (s.raise f).scrub := by
  simp only [State.raise, apply_ite State.scrub]
  rfl

theorem State.keepMin_scrub : s.scrub.keepMin = s.keepMin.scrub := by
  simp only [State.keepMin, apply_ite State.scrub]
  rfl

theorem State.storeCtrl_scrub (r : CtrlReg) (v : Half) : s.scrub.storeCtrl r v = (s.storeCtrl r v).scrub := by
  cases r <;> rfl

theorem State.quantize_scrub (b : Subset) (e : EndNo) (m : Mask) (f : Half → Nat) :
    s.scrub.quantize b e m f = (s.quantize b e m f).scrub := by
  simp only [State.quantize, State.readER_scrub]
  simp only [State.scrub, ← EndpointFile.write_scrub _ _ _ _ fun _ => DataReg.scrub_ofNat _]

theorem State.unquantize_scrub (b : Subset) (e : EndNo) (m : Mask) (f : Half → Nat) :
    s.scrub.unquantize b e m f = (s.unquantize b e m f).scrub := by
  simp only [State.unquantize, State.readEQ_scrub]
  simp only [State.scrub, ← EndpointFile.write_scrub _ _ _ _ fun _ => DataReg.scrub_ofNat _]

theorem State.deltaCode_scrub (b : Subset) (e : EndNo) (m : Mask) (n : Nat) :
    s.scrub.deltaCode b e m n = (s.deltaCode b e m n).scrub := by
  simp only [State.deltaCode_frame, State.anyDeltaOverflows_scrub, State.deltaOf_scrub]
  simp only [State.scrub, ← EndpointFile.write_scrub _ _ _ _ fun _ => DataReg.scrub_ofNat _]

theorem State.buildPalette_scrub (b : Subset) (m : Mask) (n : Nat) (f : Nat → Nat → Entry → Nat) :
    s.scrub.buildPalette b m n f = (s.buildPalette b m n f).scrub := by
  simp only [State.buildPalette, State.readEU_scrub]
  simp only [State.scrub, ← PaletteFile.write_scrub _ _ _ _ fun _ _ => DataReg.scrub_ofNat _]

theorem State.swapEndpoints_scrub (b : Subset) (m : Mask) :
    s.scrub.swapEndpoints b m = (s.swapEndpoints b m).scrub := by
  simp only [State.swapEndpoints, State.scrub, EndpointFile.exchange_scrub]

theorem State.orderEndpoints_scrub (b : Subset) (m : Mask) :
    s.scrub.orderEndpoints b m = (s.orderEndpoints b m).scrub := by
  simp only [State.orderEndpoints, State.endpointsRise_scrub, State.endpointsEqual_scrub,
    State.swapEndpoints_scrub, ← apply_ite State.scrub]
  rfl

theorem State.assignIndices_scrub (t : Stream) (b : Subset) (m : Mask) (choose : Pixel → Nat) :
    s.scrub.assignIndices t b m choose = (s.assignIndices t b m choose).scrub := by
  simp only [State.assignIndices, State.dist_scrub]
  rfl

theorem State.fixAnchor_scrub (t : Stream) (b : Subset) (m : Mask) (iw : Nat) :
    s.scrub.fixAnchor t b m iw = (s.fixAnchor t b m iw).scrub := by
  have hhigh : s.scrub.anchorHigh t b iw = s.anchorHigh t b iw := rfl
  cases h : s.anchorHigh t b iw
  · rw [State.fixAnchor_of_low h, State.fixAnchor_of_low (hhigh.trans h)]
  · rw [State.fixAnchor_of_high h, State.fixAnchor_of_high (hhigh.trans h), State.swapEndpoints_scrub]
    simp only [State.scrub, ← PaletteFile.reverse_scrub]
    rfl

theorem packAll_scrub (width : Pixel → Nat) (value : Pixel → Half) (ps : List Pixel) (pos : Nat) :
    packAll width value ps pos s.scrub = (packAll width value ps pos s).scrub := by
  induction ps generalizing pos s with
  | nil => rfl
  | cons p ps ih => exact ih (s.pack pos (width p) (value p)) (pos + width p)

end

/-! ### Scrubbing commutes with a command and with a step -/

theorem effect_scrub (i : Instr) (s : State) : effect i s.scrub = (effect i s).scrub := by
  cases i <;> dsimp only [effect]
  case ldc =>
    split
    · exact s.storeCtrl_scrub _ _
    · rfl
  case ldpx => simp only [State.scrub, PixelFile.write_scrub]
  case lder => simp only [State.scrub, ← EndpointFile.write_scrub _ _ _ _ fun _ => DataReg.scrub_ofValue _]
  case keepmin => exact s.keepMin_scrub
  case qntl | qntlp | qnth => exact s.quantize_scrub _ _ _ _
  case unql | unqlp | unqh => exact s.unquantize_scrub _ _ _ _
  case order => exact s.orderEndpoints_scrub _ _
  case delta => exact s.deltaCode_scrub _ _ _ _
  case palw | palh | palt | pals => exact s.buildPalette_scrub _ _ _ _
  case idxn => rw [State.nearestIndex_scrub, State.assignIndices_scrub]
  case idxp => rw [State.projectedIndex_scrub, State.assignIndices_scrub]
  case fix => exact s.fixAnchor_scrub _ _ _ _
  case put =>
    split
    · rw [State.sourceValue_scrub]; rfl
    · rfl
  case putix => exact packAll_scrub s _ _ _ _
  all_goals rfl

theorem State.checks_scrub (i : Instr) (s : State) : s.scrub.checks i = s.checks i := by
  cases i <;> rfl

section
variable {s t : State} {w : Word}

theorem exec_scrub {i : Instr} (h : exec i s = .next t) : exec i s.scrub = .next t.scrub := by
  obtain ⟨t', ht', rfl⟩ := exec_related (R := fun t t' => t' = t.scrub) (s.checks_scrub i) s.raise_scrub
    (by rw [effect_scrub, State.complete_scrub]) h
  exact ht'

theorem runWord_scrub (h : runWord w s = .next t) : runWord w s.scrub = .next t.scrub := by
  unfold runWord at h ⊢
  split at h
  · exact exec_scrub h
  all_goals
    cases h
    rw [State.raise_scrub]

theorem acknowledge_scrub {r r' : Result} (hr : ∀ u, r = .next u → r' = .next u.scrub)
    (h : acknowledge r = .next t) : acknowledge r' = .next t.scrub := by
  cases r with
  | next u =>
    cases h
    rw [hr u rfl]
    rfl
  | fault | refused => cases h

theorem acceptWord_scrub (h : acceptWord w s = .next t) : acceptWord w s.scrub = .next t.scrub := by
  cases hf : s.status.fault with
  | true =>
    rw [acceptWord_of_faulted hf] at h
    cases h
    exact acceptWord_of_faulted (s := s.scrub) hf w
  | false =>
    rw [acceptWord_of_healthy hf] at h
    rw [acceptWord_of_healthy (s := s.scrub) hf]
    exact acknowledge_scrub (fun _ => runWord_scrub) h

theorem State.assertReset_scrub (s : State) : s.scrub.assertReset = s.assertReset.scrub := by
  have hreset : State.reset.scrub = State.reset := by
    simp [State.scrub, State.reset, PixelFile.scrub, EndpointFile.scrub, PaletteFile.scrub,
      EndpointFile.unspecified]
  exact congrArg (fun r : State => { r with
    mem := s.mem, draws := s.draws + 1, pending := s.pending, out := s.out }) hreset.symm

theorem State.abandon_scrub (w : Word) (s : State) : s.scrub.abandon w = (s.abandon w).scrub := by
  unfold State.abandon
  rw [apply_ite State.scrub]
  congr 1
  split
  · rw [apply_ite State.scrub]
    rfl
  · rfl

/-- A step on the scrubbed state is the scrubbed step, event by event. -/
theorem step_scrub (h : step s = .next t) : step s.scrub = .next t.scrub := by
  match hp : s.pending with
  | [] =>
    rw [step_idle hp] at h
    cases h
    exact step_idle hp
  | .read num :: rest =>
    rw [step_read hp] at h
    cases h
    exact step_read hp
  | .reset :: rest =>
    rw [step_reset hp] at h
    cases h
    rw [← State.assertReset_scrub]
    exact step_reset hp
  | .resetDuring w :: rest =>
    rw [step_resetDuring hp] at h
    cases h
    rw [← State.assertReset_scrub, ← State.abandon_scrub]
    exact step_resetDuring hp
  | .command w :: rest =>
    rw [step_command hp] at h
    exact (step_command (s := s.scrub) hp).trans (acceptWord_scrub h)

end

/-- Settles O31: states that are alike scrub to one state, whose step is what both steps scrub to. -/
theorem unwrittenBitsAreNeverSeen : Obligations.UnwrittenBitsAreNeverSeen := by
  intro s s' t halike hstep
  obtain ⟨t', hstep', -⟩ := step_served s'
  have hscrub : t.scrub = t'.scrub := by
    have hnext : Host.Outcome.next t.scrub = (Host.Outcome.next t'.scrub : Result) := by
      rw [← step_scrub hstep, ← step_scrub hstep', (alike_iff_scrub s s').mp halike]
    injection hnext
  have hout : t'.scrub.out = t.scrub.out := by rw [hscrub]
  exact ⟨t', hstep', (alike_iff_scrub t t').mpr hscrub, hout⟩

end Sys2Proof.Machine
end

section
/-! STATUS and ERR along a command (10_state.md rules R32, R36, R37; 42_index.md rule R151; 45_control.md rule
R196). -/

namespace Sys2Proof.Machine

/-! ### Counting -/

/-- Settles O26: a command completes, or takes its fault, and the effect of one that is not EMIT keeps the
memory. -/
theorem commandsCountAndOnlyEmitStores : Obligations.CommandsCountAndOnlyEmitStores := by
  intro i s t hf hexec
  rcases exec_cases hexec with ⟨-, rfl⟩ | ⟨-, f, rfl⟩
  · have hfault : (effect i s).complete.status.fault = false := (effect_fault i s).trans hf
    refine ⟨fun _ => ?_, fun hc => absurd (hfault.symm.trans hc) Bool.false_ne_true, fun he a => ?_⟩
    · rw [State.complete_cidx, effect_cidx]
    · rw [State.complete_mem, effect_mem i s he]
  · rw [State.raise_of_healthy hf]
    exact ⟨fun hc => absurd hc (by simp), fun _ => ⟨rfl, rfl⟩, fun _ _ => rfl⟩

/-! ### ERR -/

theorem toNat_le_errInf (v : BitVec 64) : v.toNat ≤ errInf.toNat :=
  Nat.le_of_lt_succ v.isLt

/-- A saturating sum is at least its first term (R17). -/
theorem toNat_le_sat64_add (v : BitVec 64) (n : Nat) : v.toNat ≤ (sat64 (v.toNat + n)).toNat := by
  have hv := v.isLt
  simp only [sat64, BitVec.toNat_ofNat]
  omega

/-- Only the sums of IDXN and IDXP and the sentinel of DELTA write ERR, apart from the two commands that clear it
(R32, R120, R151). -/
theorem err_le_effect_err {i : Instr} (hb : i ≠ .blkinit) (hc : i ≠ .candinit) (s : State) :
    s.err.toNat ≤ (effect i s).err.toNat := by
  cases i <;> dsimp only [effect]
  case blkinit => exact absurd rfl hb
  case candinit => exact absurd rfl hc
  case idxn | idxp => exact toNat_le_sat64_add _ _
  case delta =>
    rw [State.deltaCode_err]
    split
    · exact toNat_le_errInf _
    · exact le_rfl
  case ldc => split <;> simp
  case put => split <;> exact le_rfl
  case putix => rw [packAll_frame]
  all_goals simp

/-- Settles O28: a fault keeps ERR and an effect does not lower it; nothing is above the sentinel, so a state that
has it keeps it. -/
theorem errorNeverDecreases : Obligations.ErrorNeverDecreases := by
  intro i s t hb hc hexec
  have hle : s.err.toNat ≤ t.err.toNat := by
    rcases exec_cases hexec with ⟨-, rfl⟩ | ⟨-, f, rfl⟩
    · exact err_le_effect_err hb hc s
    · rw [State.raise_err]
  refine ⟨hle, fun hs => BitVec.eq_of_toNat_eq (Nat.le_antisymm (toNat_le_errInf t.err) ?_)⟩
  rwa [hs] at hle

/-! ### The advisory flags -/

/-- `s` with other values in DOVF, TRUNC and EQL (R37). -/
def State.withFlags (s : State) (d tr q : Bool) : State :=
  { s with status := { s.status with dovf := d, trunc := tr, eql := q } }

/-- `s` with the advisory flags clear: what of a state does not depend on them. -/
def State.clearFlags (s : State) : State := { s with status := s.status.candidateStart }

/-- Two states that agree when the advisory flags are cleared differ in these flags alone. -/
theorem eq_of_clearFlags_eq {t t' : State} (h : t.clearFlags = t'.clearFlags) :
    t' = { t with
      status := { t.status with dovf := t'.status.dovf, trunc := t'.status.trunc, eql := t'.status.eql } } :=
  congrArg (fun u : State => { u with
    status := { u.status with dovf := t'.status.dovf, trunc := t'.status.trunc, eql := t'.status.eql } }) h.symm

section
variable (s : State) (d tr q : Bool)

theorem State.complete_clearFlags {t t' : State} (h : t.clearFlags = t'.clearFlags) :
    t.complete.clearFlags = t'.complete.clearFlags := congrArg State.complete h

theorem State.raise_withFlags (f : FaultCause) :
    ((s.withFlags d tr q).raise f).clearFlags = (s.raise f).clearFlags := by
  simp only [State.raise, apply_ite State.clearFlags]
  rfl

theorem State.keepMin_withFlags : (s.withFlags d tr q).keepMin.clearFlags = s.keepMin.clearFlags := by
  simp only [State.keepMin, apply_ite State.clearFlags]
  rfl

theorem State.orderEndpoints_withFlags (b : Subset) (m : Mask) :
    ((s.withFlags d tr q).orderEndpoints b m).clearFlags = (s.orderEndpoints b m).clearFlags := by
  have hrise : (s.withFlags d tr q).endpointsRise b m = s.endpointsRise b m := rfl
  cases h : s.endpointsRise b m
  · rw [State.orderEndpoints_of_not_rise h, State.orderEndpoints_of_not_rise (hrise.trans h)]
    rfl
  · rw [State.orderEndpoints_of_rise h, State.orderEndpoints_of_rise (hrise.trans h)]
    rfl

theorem State.deltaCode_withFlags (b : Subset) (e : EndNo) (m : Mask) (n : Nat) :
    ((s.withFlags d tr q).deltaCode b e m n).clearFlags = (s.deltaCode b e m n).clearFlags := by
  rw [State.deltaCode_frame, State.deltaCode_frame]
  rfl

theorem State.storeCtrl_withFlags (r : CtrlReg) (v : Half) :
    ((s.withFlags d tr q).storeCtrl r v).clearFlags = (s.storeCtrl r v).clearFlags := by
  cases r <;> rfl

theorem State.fixAnchor_withFlags (t : Stream) (b : Subset) (m : Mask) (iw : Nat) :
    ((s.withFlags d tr q).fixAnchor t b m iw).clearFlags = (s.fixAnchor t b m iw).clearFlags := by
  simp only [State.fixAnchor, apply_ite State.clearFlags]
  rfl

/-- A pack adds to TRUNC and reads no flag otherwise (R171). -/
theorem packAll_withFlags (width : Pixel → Nat) (value : Pixel → Half) (ps : List Pixel) (pos : Nat) :
    (packAll width value ps pos (s.withFlags d tr q)).clearFlags = (packAll width value ps pos s).clearFlags := by
  induction ps generalizing pos s tr with
  | nil => rfl
  | cons p ps ih => exact ih (s.pack pos (width p) (value p)) _ (pos + width p)

/-- No effect reads an advisory flag, except to add to it (R37, R295). -/
theorem effect_withFlags (i : Instr) : (effect i (s.withFlags d tr q)).clearFlags = (effect i s).clearFlags := by
  cases i <;> dsimp only [effect]
  case ldc =>
    split
    · exact s.storeCtrl_withFlags d tr q _ _
    · rfl
  case keepmin => exact s.keepMin_withFlags d tr q
  case order => exact s.orderEndpoints_withFlags d tr q _ _
  case delta => exact s.deltaCode_withFlags d tr q _ _ _ _
  case fix => exact s.fixAnchor_withFlags d tr q _ _ _ _
  case put => split <;> rfl
  case putix => exact packAll_withFlags s d tr q _ _ _ _
  all_goals rfl

theorem State.checks_withFlags (i : Instr) : (s.withFlags d tr q).checks i = s.checks i := by
  cases i <;> rfl

end

/-- Settles O30: under other advisory flags the same checks pass, and the fault or the effect differs in these
flags alone. -/
theorem advisoryFlagsAreNeverRead : Obligations.AdvisoryFlagsAreNeverRead := by
  intro i s t d tr q hexec
  obtain ⟨t', hexec', heq⟩ := exec_related (R := fun t t' => t.clearFlags = t'.clearFlags)
    (s.checks_withFlags d tr q i) (fun f => (s.raise_withFlags d tr q f).symm)
    (State.complete_clearFlags (effect_withFlags s d tr q i).symm) hexec
  exact ⟨t', hexec', eq_of_clearFlags_eq heq⟩

end Sys2Proof.Machine
end

section
/-! The control registers (10_state.md rules R37 to R48, R52): what the read port shows of them, what LDC writes, and
what they are after reset. -/

namespace Sys2Proof.Machine

/-! ### The read port -/

/-- The view of STATUS bit by bit (R37). -/
theorem Status.word_getLsbD (f : Status) (j : Nat) :
    f.word.getLsbD j
      = ((j = 0 && f.fault) || (j = 1 && f.dovf) || (j = 2 && f.trunc) || (j = 3 && f.eql)
        || (j = 4 && f.bvalid)) := by
  match j with
  | 0 | 1 | 2 | 3 | 4 =>
    obtain ⟨fault, dovf, trunc, eql, bvalid⟩ := f
    revert fault dovf trunc eql bvalid
    decide
  | j + 5 => simp [Status.word]

/-- A view's half below the halves above it (R38). -/
theorem append_halfOf {w : Nat} (v : BitVec w) (j n : Nat) :
    v.extractLsb' (16 * (j + 1)) n ++ halfOf v j = v.extractLsb' (16 * j) (n + 16) :=
  BitVec.extractLsb'_append_extractLsb'_eq_extractLsb' (Nat.mul_succ 16 j)

/-- A 32-bit register from its two views (R38). -/
theorem halves_of_32 (v : BitVec 32) : halfOf v 1 ++ halfOf v 0 = v :=
  (append_halfOf v 0 16).trans BitVec.extractLsb'_eq_self

/-- A 64-bit register from its four views (R38). -/
theorem halves_of_64 (v : BitVec 64) : halfOf v 3 ++ halfOf v 2 ++ halfOf v 1 ++ halfOf v 0 = v := by
  have h2 : halfOf v 3 ++ halfOf v 2 = v.extractLsb' (16 * 2) (16 + 16) := append_halfOf v 2 16
  rw [h2]
  rw [append_halfOf v 1]
  rw [append_halfOf v 0]
  exact BitVec.extractLsb'_eq_self

/-- A 128-bit register from its eight views (R38). -/
theorem halves_of_128 (v : BitVec 128) :
    halfOf v 7 ++ halfOf v 6 ++ halfOf v 5 ++ halfOf v 4 ++ halfOf v 3 ++ halfOf v 2 ++ halfOf v 1 ++ halfOf v 0
      = v := by
  have h6 : halfOf v 7 ++ halfOf v 6 = v.extractLsb' (16 * 6) (16 + 16) := append_halfOf v 6 16
  rw [h6, append_halfOf v 5, append_halfOf v 4, append_halfOf v 3, append_halfOf v 2, append_halfOf v 1,
    append_halfOf v 0]
  exact BitVec.extractLsb'_eq_self

/-- A number that R38 gives no register reads 0. -/
theorem State.readPort_reserved (s : State) {n : BitVec 8}
    (h : n.toNat = 0x07 ∨ (0x18 ≤ n.toNat ∧ n.toNat ≤ 0x1F) ∨ 0x30 ≤ n.toNat) : s.readPort n = 0 := by
  unfold State.readPort
  generalize n.toNat = k at h ⊢
  have herr : ¬(0x10 ≤ k ∧ k ≤ 0x13) := by omega
  have hbestErr : ¬(0x14 ≤ k ∧ k ≤ 0x17) := by omega
  have hob : ¬(0x20 ≤ k ∧ k ≤ 0x27) := by omega
  have hbestOb : ¬(0x28 ≤ k ∧ k ≤ 0x2F) := by omega
  split
  case h_16 => rw [if_neg herr, if_neg hbestErr, if_neg hob, if_neg hbestOb]
  all_goals omega

/-- Settles O10: each number of the map selects its register or its half of one, and the halves make up the
register. -/
theorem readPortMap : Obligations.ReadPortMap := by
  intro s
  refine ⟨rfl, s.status.word_getLsbD, rfl, rfl, rfl, rfl, rfl, halves_of_32 s.oaddr, halves_of_32 s.cidx, ?_,
    halves_of_32 s.fcidx, rfl, halves_of_64 s.err, halves_of_64 s.bestErr, halves_of_128 s.ob,
    halves_of_128 s.bestOb, fun n => s.readPort_reserved⟩
  exact BitVec.toNat_setWidth_of_le (by decide)

/-! ### Reset -/

theorem EndpointFile.unspecified_get (b : Subset) (e : EndNo) (c : Chan) :
    EndpointFile.unspecified[b][e][c] = DataReg.unspecified := by
  simp [EndpointFile.unspecified]

/-- Settles O20: the listed values are those of `State.reset`, and its data files are filled with the register that
no command has written. -/
theorem resetStateHasTheListedValues : Obligations.ResetStateHasTheListedValues := by
  unfold Obligations.ResetStateHasTheListedValues
  intro r
  have hend (b : Subset) (e : EndNo) (c : Chan) : EndpointFile.unspecified[b][e][c].written = false := by
    rw [EndpointFile.unspecified_get]
    rfl
  refine ⟨?_, rfl, rfl, rfl, rfl, rfl, rfl, by decide, rfl, rfl, rfl, rfl, rfl, ?_, rfl, rfl, rfl, rfl, ?_,
    fun b e c => ⟨hend b e c, hend b e c, hend b e c, hend b e c⟩, ?_⟩
  · simp [r, State.reset]
  · simp [r, State.reset, State.pb]
  · simp [r, State.reset, DataReg.unspecified]
  · simp [r, State.reset, DataReg.unspecified]

/-! ### LDC -/

/-- LDC of a legal value to the register numbered `reg` (R188). -/
theorem exec_ldc_of_legal {reg : BitVec 8} {r : CtrlReg} {imm : Half} (s : State) (hr : ldcTarget reg = some r)
    (hl : ldcLegal r imm = true) : exec (.ldc reg imm) s = .next (s.storeCtrl r imm).complete := by
  simp [exec, execLdc, hr, hl]

/-- A half of OADDR over another (R45). -/
theorem append_toNat_32 (hi lo : Half) : (hi ++ lo : BitVec 32).toNat = hi.toNat * 2 ^ 16 + lo.toNat := by
  rw [BitVec.toNat_append, ← Nat.shiftLeft_add_eq_or_of_lt lo.isLt, Nat.shiftLeft_eq]

theorem halfOf_toNat {n : Nat} (v : BitVec n) (j : Nat) :
    (halfOf v j).toNat = v.toNat / 2 ^ (16 * j) % 2 ^ 16 := by
  rw [halfOf, BitVec.extractLsb'_toNat, Nat.shiftRight_eq_div_pow]

/-- Settles O34: each number names its register, the value is legal by hypothesis, and of OADDR the other half
stands beside it. -/
theorem ldcWritesTheRegister : Obligations.LdcWritesTheRegister := by
  intro s imm u
  refine ⟨fun h1 h2 h3 h4 => ?_, exec_ldc_of_legal s (r := .pm1) rfl rfl, exec_ldc_of_legal s (r := .pm2) rfl rfl,
    fun h => ?_, fun h => ?_, exec_ldc_of_legal s (r := .t) rfl rfl,
    ⟨_, exec_ldc_of_legal s (r := .oaddrLo) rfl rfl, rfl, ?_⟩,
    ⟨_, exec_ldc_of_legal s (r := .oaddrHi) rfl rfl, rfl, ?_⟩⟩
  · refine exec_ldc_of_legal s (r := .cfg) rfl (decide_eq_true ⟨h1, h2, h3, ?_⟩)
    omega
  · refine exec_ldc_of_legal s (r := .anch) rfl (decide_eq_true ?_)
    omega
  · refine exec_ldc_of_legal s (r := .pbits) rfl (decide_eq_true ?_)
    omega
  · have hs := s.oaddr.isLt
    show (halfOf s.oaddr 1 ++ imm : BitVec 32).toNat = _
    rw [append_toNat_32, halfOf_toNat]
    omega
  · show (imm ++ halfOf s.oaddr 0 : BitVec 32).toNat = _
    rw [append_toNat_32, halfOf_toNat]
    omega

/-! ### PM1, PM2 and ANCH -/

/-- Settles O49: PM2 decides before PM1. -/
theorem subsetOfAPixel : Obligations.SubsetOfAPixel := by
  intro s p
  refine ⟨fun h2 => if_pos h2, fun h2 h1 => ?_, fun h2 h1 => ?_⟩
  · exact (if_neg (ne_true_of_eq_false h2)).trans (if_pos h1)
  · exact (if_neg (ne_true_of_eq_false h2)).trans (if_neg (ne_true_of_eq_false h1))

theorem State.eq_anchor_one_iff (s : State) (p : Pixel) : p = s.anchor 1 ↔ p.val = s.anch.toNat % 16 := Fin.ext_iff

theorem State.eq_anchor_two_iff (s : State) (p : Pixel) : p = s.anchor 2 ↔ p.val = s.anch.toNat / 16 % 16 :=
  Fin.ext_iff

/-- Settles O58: the anchors are pixel numbers in ANCH (R43). -/
theorem anchorsArePackedShort : Obligations.AnchorsArePackedShort := by
  intro s iw na p
  have hshort : s.packedShort na p = true ↔
      (1 ≤ na.toNat ∧ p = 0) ∨ (2 ≤ na.toNat ∧ p.val = s.anch.toNat % 16) ∨
        (na.toNat = 3 ∧ p.val = s.anch.toNat / 16 % 16) := by
    simp only [State.packedShort, Bool.or_eq_true, Bool.and_eq_true, decide_eq_true_eq, or_assoc,
      State.eq_anchor_one_iff, State.eq_anchor_two_iff]
  simp only [State.indexBits, hshort]

end Sys2Proof.Machine
end

section
/-! DELTA (40_quantize.md rule R120; 10_state.md rule R24) and FIX (43_anchor.md rules R160, R161): the update that
each makes, in the numbers of the spec. -/

namespace Sys2Proof.Machine

/-! ### DELTA -/

theorem exec_delta_of_legal {b : BitVec 2} {m : Mask} {n : BitVec 5} (s : State) (e : BitVec 1) (hb : b ≠ 3)
    (hm : m ≠ 0) (hlo : 2 ≤ n.toNat) (hhi : n.toNat ≤ 16) :
    exec (.delta b e m n) s = .next (s.deltaCode (subsetOf b) (endOf e) m n.toNat).complete :=
  exec_of_legal (by
    simp [State.legal, Instr.wellFormed, State.rangeOk, (subsetOk_iff b).mpr hb, (maskOk_iff m).mpr hm,
      (bitsOk_iff 2 16 n).mpr ⟨hlo, hhi⟩])

/-- A clamped delta is in its field's range (R120). -/
theorem clampDelta_bounds (n : Nat) (d : Int) :
    -2 ^ (n - 1) ≤ clampDelta n d ∧ clampDelta n d ≤ 2 ^ (n - 1) - 1 := by
  have hpos : (0 : Int) < 2 ^ (n - 1) := by positivity
  unfold clampDelta deltaMin deltaMax
  omega

/-- The field of a delta holds it in two's complement (R24). -/
theorem deltaField_eq {n : Nat} (hn : 1 ≤ n) (d : Int) :
    (deltaField n d : Int) = if clampDelta n d < 0 then clampDelta n d + 2 ^ n else clampDelta n d := by
  obtain ⟨hlo, hhi⟩ := clampDelta_bounds n d
  have hpow : (2 : Int) ^ n = 2 * 2 ^ (n - 1) := by
    rw [← pow_succ', Nat.sub_add_cancel hn]
  have hpos : (0 : Int) < 2 ^ (n - 1) := by positivity
  have hmod : (0 : Int) ≤ clampDelta n d % 2 ^ n := Int.emod_nonneg _ (by positivity)
  rw [deltaField, Int.toNat_of_nonneg hmod]
  split
  · rw [← Int.add_emod_right, Int.emod_eq_of_lt (by omega) (by omega)]
  · rw [Int.emod_eq_of_lt (by omega) (by omega)]

/-- A delta's field fits its register (R24). -/
theorem deltaField_lt {n : Nat} (hn : n ≤ 16) (d : Int) : deltaField n d < 2 ^ 16 := by
  have hpow : (2 : Int) ^ n ≤ 2 ^ 16 := pow_le_pow_right₀ (by decide) hn
  have hmod : clampDelta n d % 2 ^ n < 2 ^ n := Int.emod_lt_of_pos _ (by positivity)
  have hnonneg : (0 : Int) ≤ clampDelta n d % 2 ^ n := Int.emod_nonneg _ (by positivity)
  unfold deltaField
  omega

/-- Settles O44: DELTA is `deltaCode` (`State.deltaCode_frame`), whose field holds the clamped difference. -/
theorem deltaClampsAndMarks : Obligations.DeltaClampsAndMarks := by
  intro s b e m n hb hm hlo hhi
  refine ⟨_, exec_delta_of_legal s e hb hm hlo hhi, ?_, ⟨?_, ?_, ?_, ?_⟩, ?_⟩
  · rw [State.deltaCode_frame]
    rfl
  · rintro b' e' c hsel
    rw [State.complete_ed, State.deltaCode_ed, EndpointFile.write_get, if_pos hsel]
    refine ⟨rfl, ?_⟩
    have hbits : (BitVec.ofNat 16 (deltaField n.toNat (s.deltaOf (subsetOf b) (endOf e) c))).toNat
        = deltaField n.toNat (s.deltaOf (subsetOf b) (endOf e) c) :=
      (BitVec.toNat_ofNat _ _).trans (Nat.mod_eq_of_lt (deltaField_lt hhi _))
    exact (congrArg Nat.cast hbits).trans (deltaField_eq (by omega) _)
  · intro b' e' c hsel
    rw [State.complete_ed, State.deltaCode_ed, EndpointFile.write_get, if_neg hsel]
  · intro hout
    have hany := (s.anyDeltaOverflows_iff (subsetOf b) (endOf e) m n.toNat).mpr hout
    simp [hany, errInf]
  · intro hout
    have hany : s.anyDeltaOverflows (subsetOf b) (endOf e) m n.toNat = false := by
      rw [Bool.eq_false_iff]
      exact fun h => hout ((s.anyDeltaOverflows_iff _ _ _ _).mp h)
    simp [hany]
  · simp

/-! ### FIX -/

theorem exec_fix_of_legal {b : BitVec 2} {m : Mask} {iw : BitVec 3} (s : State) (t : BitVec 1) (hb : b ≠ 3)
    (hm : m ≠ 0) (hlo : 2 ≤ iw.toNat) (hhi : iw.toNat ≤ 4) :
    exec (.fix t b m iw) s = .next (s.fixAnchor (streamOf t) (subsetOf b) m iw.toNat).complete :=
  exec_of_legal (by
    simp [State.legal, Instr.wellFormed, State.rangeOk, (subsetOk_iff b).mpr hb, (maskOk_iff m).mpr hm,
      (widthOk_iff iw).mpr ⟨hlo, hhi⟩])

/-- The anchor of the subset a field names, by its place in ANCH (R43). -/
theorem State.anchor_subsetOf (s : State) {b : BitVec 2} (hb : b ≠ 3) :
    (s.anchor (subsetOf b)).val
      = if b = 0 then 0 else if b = 1 then s.anch.toNat % 16 else s.anch.toNat / 16 % 16 := by
  have hcases : b = 0 ∨ b = 1 ∨ b = 2 := by
    revert b
    decide
  rcases hcases with rfl | rfl | rfl <;> rfl

/-- The entry that a reversal of the entries below `2 ^ iw` brings to `k` (R161). -/
theorem mirror_eq_entryOf (max : Nat) (k : Entry) : mirror max k = entryOf (max - k.val) := rfl

/-- The complement of an index, as a number (R161, R162). -/
theorem complementIndex_toNat {iw : Nat} (hiw : iw ≤ 4) (i : BitVec 4) :
    ((complementIndex iw i).toNat : Int) = (2 ^ iw - 1 - i.toNat) % 16 := by
  have hi := i.isLt
  have hpow : 2 ^ iw ≤ 2 ^ 4 := Nat.pow_le_pow_right (by decide) hiw
  have hpos : 0 < 2 ^ iw := Nat.two_pow_pos iw
  have hcast : (2 : Int) ^ iw = ((2 ^ iw : Nat) : Int) := (Nat.cast_pow 2 iw).symm
  rw [hcast, complementIndex, BitVec.toNat_sub, BitVec.toNat_ofNat]
  omega

/-- Settles O53: FIX is `fixAnchor`, which leaves the state with the anchor's top bit clear, and else is the
exchange with the palette reversed and the indices complemented. -/
theorem fixExchangesAtAHighAnchor : Obligations.FixExchangesAtAHighAnchor := by
  intro s t b m iw anchor hb hm hlo hhi hanchor
  have heq : anchor = s.anchor (subsetOf b) := Fin.ext (hanchor.trans (s.anchor_subsetOf hb).symm)
  subst heq
  rw [exec_fix_of_legal s t hb hm hlo hhi]
  refine ⟨fun hlow => ?_, fun hhigh => ?_⟩
  · rw [State.fixAnchor_of_low hlow]
    rfl
  · rw [State.fixAnchor_of_high hhigh]
    refine ⟨_, rfl, rfl, ?_, ?_, ?_, fun _ => rfl⟩
    · intro b' k c
      have hpos := Nat.two_pow_pos iw.toNat
      have hk : k.val ≤ 2 ^ iw.toNat - 1 ↔ k.val < 2 ^ iw.toNat := by omega
      simp only [State.complete_pal, PaletteFile.reverse_get, mirror_eq_entryOf, hk]
    · rintro t' p ⟨rfl, hp⟩
      simp only [State.complete_ix]
      rw [IndexFile.write_get, if_pos ⟨rfl, by simpa using hp⟩]
      exact complementIndex_toNat hhi _
    · intro t' p hsel
      simp only [State.complete_ix]
      rw [IndexFile.write_get, if_neg (by simpa using hsel)]

end Sys2Proof.Machine
end

section
/-! EMIT and the output memory (20_memory.md rules R60 to R69; 45_control.md rule R192; 70_reset_and_hazards.md rule
R285): the bytes a store of a block leaves and drives, and the three ways an EMIT can end: it completes, it faults, or
reset abandons it. -/

namespace Sys2Proof.Machine

/-! ### The store of a block's low bytes -/

/-- The byte writes of a run of bytes, each at its own address (R69). -/
theorem byteWrites_map_range (x n : Nat) (f : Nat → Byte) :
    byteWrites x ((List.range n).map f)
      = (List.range n).map fun i => .byteWrite (BitVec.ofNat 32 (x + i)) (f i) := by
  induction n generalizing x f with
  | zero => rfl
  | succ n ih =>
    have htail := ih (x + 1) (f ∘ Nat.succ)
    simp [List.range_succ_eq_map, byteWrites, htail, Nat.add_right_comm, Nat.add_assoc]

/-- What memory reads as after the `n` low bytes of `v` are stored (R62). -/
theorem State.storeAtOADDR_blockBytes_read (s : State) (v : Block) (n a : Nat) :
    (s.storeAtOADDR (blockBytes v n)).mem.read a
      = if s.oaddr.toNat ≤ a ∧ a < s.oaddr.toNat + n then some (v.extractLsb' (8 * (a - s.oaddr.toNat)) 8)
        else s.mem.read a := by
  rw [State.storeAtOADDR_read, blockBytes_length]
  by_cases ha : s.oaddr.toNat ≤ a ∧ a < s.oaddr.toNat + n
  · rw [if_pos ha, if_pos ha, blockBytes_getElem? v (by omega)]
  · rw [if_neg ha, if_neg ha]

/-! ### EMIT's one check (R65) -/

theorem State.emitFits_iff (s : State) : s.emitFits = true ↔ s.oaddr.toNat + s.blockSize ≤ 2 ^ 32 :=
  decide_eq_true_iff

theorem State.emitFits_eq_false_iff (s : State) :
    s.emitFits = false ↔ 2 ^ 32 < s.oaddr.toNat + s.blockSize := by
  rw [← Bool.not_eq_true, s.emitFits_iff, Nat.not_le]

theorem exec_emit_of_fits {s : State} (src : BitVec 1) (h : s.emitFits = true) :
    exec (.emit src) s = .next (s.storeAtOADDR (s.emitBytes src)).complete := by
  rw [exec_eq_checked, State.checks, h]
  rfl

theorem exec_emit_of_not_fits {s : State} (src : BitVec 1) (h : s.emitFits = false) :
    exec (.emit src) s = .next (s.raise .emitRange) := by
  rw [exec_eq_checked, State.checks, h]
  rfl

/-! ### The three ends of an EMIT -/

/-- An abandoned command does not touch the host's next acts. -/
theorem State.abandon_pending (w : Word) (s : State) : (s.abandon w).pending = s.pending := by
  rcases s.abandon_cases w with h | ⟨src, k, -, -, -, -, h⟩
  · rw [h]
  · rw [h, State.storeAtOADDR_pending]

/-- Reset puts every field but the memory, the draw counter and the port at its reset value (R285). -/
theorem State.assertReset_of_pending (s : State) {p : List PortEvent} (hp : s.pending = p) :
    s.assertReset = { State.reset with
      mem := s.assertReset.mem, draws := s.assertReset.draws, pending := p, out := s.assertReset.out } := by
  subst hp
  rfl

/-- Settles O22: the step resets what the abandoned command left, and `abandon_cases` says that this is the state
before it or a store of the first bytes of an EMIT's block. -/
theorem resetAbandonsTheCommand : Obligations.ResetAbandonsTheCommand := by
  intro s w rest hp
  refine ⟨_, step_resetDuring hp, State.assertReset_of_pending _ (State.abandon_pending w _), ?_⟩
  rcases State.abandon_cases w { s with pending := rest, out := [] } with
    hnone | ⟨src, k, hdecode, hhealthy, -, hk, hprefix⟩
  · exact .inl fun a => by rw [State.assertReset_mem, hnone]
  · refine .inr ⟨src, k, hdecode, hhealthy, hk, fun a => ?_⟩
    rw [State.assertReset_mem, hprefix]
    exact State.storeAtOADDR_blockBytes_read _ _ k a

/-- Settles O37: an EMIT that fits is the store of its block's bytes, read back and driven byte by byte. -/
theorem emitStoresTheBlock : Obligations.EmitStoresTheBlock := by
  intro s src n hn hfits
  have hsize : n = s.blockSize := hn
  subst hsize
  have hread := s.storeAtOADDR_blockBytes_read (s.emitBlock src) s.blockSize
  refine ⟨_, exec_emit_of_fits src (s.emitFits_iff.mpr hfits), rfl, fun i hi => ?_, fun a ha => ?_, ?_⟩
  · have hin : s.oaddr.toNat ≤ s.oaddr.toNat + i ∧ s.oaddr.toNat + i < s.oaddr.toNat + s.blockSize := by omega
    rw [State.complete_mem, State.emitBytes, hread, if_pos hin, Nat.add_sub_cancel_left]
    rfl
  · rw [State.complete_mem, State.emitBytes, hread, if_neg (by omega)]
  · rw [State.complete_out, State.storeAtOADDR_out, State.emitBytes, blockBytes, byteWrites_map_range]
    rfl

/-- Settles O17: an EMIT that does not fit fails its only check, which comes before the first write. -/
theorem emitPastTheEndFaults : Obligations.EmitPastTheEndFaults := by
  intro s src n hhealthy hn hpast
  have hsize : n = s.blockSize := hn
  subst hsize
  have hexec := exec_emit_of_not_fits src (s.emitFits_eq_false_iff.mpr hpast)
  rw [State.raise_of_healthy hhealthy] at hexec
  exact ⟨_, hexec, rfl, fun _ => rfl⟩

end Sys2Proof.Machine
end

section
/-! Decoding and encoding are inverse (30_encoding.md rules R82 to R96, R99): a row of the opcode map accepts exactly
the words with its opcode and its reserved bits clear, and the encoder puts each field where the row reads it. -/

namespace Sys2Proof

/-! ### Rows and the words they accept -/

/-- A word decodes to the command of the row with its opcode, if that row's reserved bits are clear (R96, R99). -/
theorem decode_eq_command_iff {w : Word} {i : Instr} :
    decode w = .command i ↔
      ∃ r, rowOf (opcodeOf w) = some r ∧ w &&& r.fmt.reserved = 0 ∧ r.build w = i := by
  unfold decode
  cases rowOf (opcodeOf w) with
  | none => simp
  | some r =>
    by_cases hz : w &&& r.fmt.reserved = 0
    · simp only [hz, ↓reduceIte, Decoded.command.injEq, Option.some.injEq, exists_eq_left', true_and]
    · simp only [hz, ↓reduceIte, reduceCtorEq, Option.some.injEq, exists_eq_left', false_and]

/-- No format reserves a bit of the opcode (R82). -/
theorem Format.reserved_below_opcode (f : Format) :
    ∀ i, i < 32 → f.reserved.getLsbD i = true → i < 24 := by
  cases f <;> decide

/-- R94's test of a word: the mask is the opcode's byte and the format's reserved bits, the match is the opcode. -/
theorem and_mask_eq_match_iff (w : Word) (f : Format) (op : BitVec 8) :
    w &&& (wordZ 0xFF ||| f.reserved) = wordZ op ↔ opcodeOf w = op ∧ w &&& f.reserved = 0 := by
  have hones : ∀ k, k < 8 → (0xFF : BitVec 8).getLsbD k = true := by decide
  constructor
  · intro h
    have hbit : ∀ i, (w.getLsbD i && ((wordZ 0xFF).getLsbD i || f.reserved.getLsbD i)) = (wordZ op).getLsbD i :=
      fun i => by rw [← h, BitVec.getLsbD_and, BitVec.getLsbD_or]
    refine ⟨field_eq fun i hi => ?_, and_eq_zero_of_bits fun i hi hr => ?_⟩
    · have := hbit (24 + i)
      rw [wordZ_getLsbD, wordZ_getLsbD, if_neg (by omega), if_neg (by omega), Nat.add_sub_cancel_left,
        hones i hi] at this
      simpa using this
    · have := hbit i
      rw [wordZ_getLsbD op, if_pos (f.reserved_below_opcode i hi hr), hr] at this
      simpa using this
  · rintro ⟨rfl, hz⟩
    apply BitVec.eq_of_getLsbD_eq
    intro i hi
    rw [BitVec.getLsbD_and, BitVec.getLsbD_or, wordZ_getLsbD, wordZ_getLsbD]
    by_cases hlow : i < 24
    · rw [if_pos hlow, if_pos hlow, Bool.false_or]
      cases hr : f.reserved.getLsbD i with
      | false => exact Bool.and_false _
      | true => rw [clear_of_and_eq_zero hz hr, Bool.false_and]
    · rw [if_neg hlow, if_neg hlow, hones _ (by omega), Bool.true_or, Bool.and_true, opcodeOf, field_getLsbD,
        decide_eq_true (by omega), Bool.true_and, Nat.add_sub_of_le (by omega)]

/-! ### Decoding an encoded command -/

/-- Settles O1: the word of a command has the opcode of its row and no reserved bit (`decode_of_row`), and the row
reads back each field that the encoder wrote. -/
theorem decodeOfEncode : Obligations.DecodeOfEncode := by
  intro i
  cases i
  case nop => exact decode_wordZ rowOf_nop
  case blkinit => exact decode_wordZ rowOf_blkinit
  case keepmin => exact decode_wordZ rowOf_keepmin
  case candinit => exact decode_wordZ rowOf_candinit
  case qntl => exact decode_wordQ rowOf_qntl ..
  case qntlp => exact decode_wordQ rowOf_qntlp ..
  case qnth => exact decode_wordQ rowOf_qnth ..
  case unql => exact decode_wordQ rowOf_unql ..
  case unqlp => exact decode_wordQ rowOf_unqlp ..
  case unqh => exact decode_wordQ rowOf_unqh ..
  case delta => exact decode_wordQ rowOf_delta ..
  case order => exact decode_wordO rowOf_order ..
  case palt => exact decode_wordO rowOf_palt ..
  case pals => exact decode_wordO rowOf_pals ..
  case palw => exact decode_wordL rowOf_palw ..
  case palh => exact decode_wordL rowOf_palh ..
  case idxn => exact decode_wordX rowOf_idxn ..
  case idxp => exact decode_wordX rowOf_idxp ..
  case fix => exact decode_wordX rowOf_fix ..
  case ldc reg imm =>
    exact (decode_of_row (by rw [encode, opcodeOf_wordC, rowOf_ldc]) (wordC_reserved ..)).trans
      (by simp [encode])
  case ldpx p c imm =>
    exact (decode_of_row (by rw [encode, opcodeOf_wordP, rowOf_ldpx]) (wordP_reserved ..)).trans
      (by simp [encode])
  case lder b e c imm =>
    exact (decode_of_row (by rw [encode, opcodeOf_wordE, rowOf_lder]) (wordE_reserved ..)).trans
      (by simp [encode])
  case emit src =>
    exact (decode_of_row (by rw [encode, opcodeOf_wordM, rowOf_emit]) (wordM_reserved ..)).trans
      (by simp [encode])
  case put off wm1 sh sel =>
    exact (decode_of_row (by rw [encode, opcodeOf_wordK, rowOf_put]) (wordK_reserved ..)).trans
      (by simp [encode])
  case putix t off iw na =>
    exact (decode_of_row (by rw [encode, opcodeOf_wordJ, rowOf_putix]) (wordJ_reserved ..)).trans
      (by simp [encode])

/-! ### Encoding a decoded command -/

/-- On the words that a row accepts the encoder undoes the row's reading of the fields. -/
def Respells (op : BitVec 8) (f : Format) (build : Word → Instr) : Prop :=
  ∀ w : Word, op = opcodeOf w → w &&& f.reserved = 0 → encode (build w) = w

section
variable {op : BitVec 8}

theorem respells_Z {i : Instr} (henc : encode i = wordZ op) : Respells op .Z fun _ => i :=
  fun _ hop hz => henc.trans (hop ▸ wordZ_fields hz)

theorem respells_Q {k : BitVec 2 → BitVec 1 → Mask → BitVec 5 → Instr}
    (henc : ∀ b e m n, encode (k b e m n) = wordQ op b e m n) : Respells op .Q (buildQ k) :=
  fun _ hop hz => (henc ..).trans (hop ▸ wordQ_fields hz)

theorem respells_O {k : BitVec 2 → Mask → Instr} (henc : ∀ b m, encode (k b m) = wordO op b m) :
    Respells op .O (buildO k) :=
  fun _ hop hz => (henc ..).trans (hop ▸ wordO_fields hz)

theorem respells_L {k : BitVec 2 → Mask → BitVec 3 → Instr}
    (henc : ∀ b m iw, encode (k b m iw) = wordL op b m iw) : Respells op .L (buildL k) :=
  fun _ hop hz => (henc ..).trans (hop ▸ wordL_fields hz)

theorem respells_X {k : BitVec 1 → BitVec 2 → Mask → BitVec 3 → Instr}
    (henc : ∀ t b m iw, encode (k t b m iw) = wordX op t b m iw) : Respells op .X (buildX k) :=
  fun _ hop hz => (henc ..).trans (hop ▸ wordX_fields hz)

end

/-- Row by row, in the order of the opcode map; the formats that one command uses stand here in full. -/
theorem opcodeMap_respells : ∀ r ∈ opcodeMap, Respells r.op r.fmt r.build := by
  simp only [opcodeMap, List.forall_mem_cons]
  exact ⟨respells_Z rfl, respells_Z rfl,
    fun _ hop _ => show wordC _ _ _ = _ from hop ▸ wordC_fields,
    fun _ hop hz => show wordP _ _ _ _ = _ from hop ▸ wordP_fields hz,
    fun _ hop hz => show wordE _ _ _ _ _ = _ from hop ▸ wordE_fields hz,
    respells_Z rfl,
    fun _ hop hz => show wordM _ _ = _ from hop ▸ wordM_fields hz,
    respells_Z rfl,
    respells_Q fun _ _ _ _ => rfl, respells_Q fun _ _ _ _ => rfl, respells_Q fun _ _ _ _ => rfl,
    respells_Q fun _ _ _ _ => rfl, respells_Q fun _ _ _ _ => rfl, respells_Q fun _ _ _ _ => rfl,
    respells_O fun _ _ => rfl, respells_Q fun _ _ _ _ => rfl,
    respells_L fun _ _ _ => rfl, respells_L fun _ _ _ => rfl,
    respells_O fun _ _ => rfl, respells_O fun _ _ => rfl,
    respells_X fun _ _ _ _ => rfl, respells_X fun _ _ _ _ => rfl, respells_X fun _ _ _ _ => rfl,
    fun _ hop hz => show wordK _ _ _ _ _ = _ from hop ▸ wordK_fields hz,
    fun _ hop hz => show wordJ _ _ _ _ _ = _ from hop ▸ wordJ_fields hz,
    List.forall_mem_nil _⟩

/-- Settles O2: the word was read by a row of the map (`row_of_decode`), and every row respells what it reads. -/
theorem encodeOfDecode : Obligations.EncodeOfDecode := by
  intro w i h
  obtain ⟨r, hr, hop, hz, rfl⟩ := row_of_decode h
  exact opcodeMap_respells r hr w hop hz

/-! ### Match and mask -/

section
variable {w : Word} {op : BitVec 8}

/-- A word decodes to a command of the row iff it passes the row's test: a command whose word has the row's opcode was
read by that row. -/
theorem spells_iff {f : Format} {build : Word → Instr} {p : Prop} (hr : rowOf op = some ⟨op, f, build⟩)
    (hop : p → ∃ i, decode w = .command i ∧ opcodeOf (encode i) = op) (hrow : decode w = .command (build w) → p) :
    p ↔ w &&& (wordZ 0xFF ||| f.reserved) = wordZ op := by
  rw [and_mask_eq_match_iff]
  constructor
  · intro hp
    obtain ⟨i, hdec, hi⟩ := hop hp
    rw [encodeOfDecode w i hdec] at hi
    obtain ⟨r, hr', hz, -⟩ := decode_eq_command_iff.mp hdec
    rw [hi, hr] at hr'
    cases hr'
    exact ⟨hi, hz⟩
  · rintro ⟨hw, hz⟩
    exact hrow (decode_of_row (r := ⟨op, f, build⟩) (by rw [hw, hr]) hz)

theorem spells_Z_iff {i : Instr} (hr : rowOf op = some ⟨op, .Z, fun _ => i⟩) (henc : encode i = wordZ op) :
    decode w = .command i ↔ w &&& 0xFFFFFFFF = wordZ op :=
  spells_iff hr (fun h => ⟨i, h, by rw [henc, opcodeOf_wordZ]⟩) id

theorem spells_Q_iff {k : BitVec 2 → BitVec 1 → Mask → BitVec 5 → Instr}
    (hr : rowOf op = some ⟨op, .Q, buildQ k⟩) (henc : ∀ b e m n, encode (k b e m n) = wordQ op b e m n) :
    (∃ b e m n, decode w = .command (k b e m n)) ↔ w &&& 0xFF000FFF = wordZ op :=
  spells_iff hr (fun ⟨b, e, m, n, h⟩ => ⟨k b e m n, h, by rw [henc, opcodeOf_wordQ]⟩) fun h => ⟨_, _, _, _, h⟩

theorem spells_O_iff {k : BitVec 2 → Mask → Instr} (hr : rowOf op = some ⟨op, .O, buildO k⟩)
    (henc : ∀ b m, encode (k b m) = wordO op b m) :
    (∃ b m, decode w = .command (k b m)) ↔ w &&& 0xFF21FFFF = wordZ op :=
  spells_iff hr (fun ⟨b, m, h⟩ => ⟨k b m, h, by rw [henc, opcodeOf_wordO]⟩) fun h => ⟨_, _, h⟩

theorem spells_L_iff {k : BitVec 2 → Mask → BitVec 3 → Instr} (hr : rowOf op = some ⟨op, .L, buildL k⟩)
    (henc : ∀ b m iw, encode (k b m iw) = wordL op b m iw) :
    (∃ b m iw, decode w = .command (k b m iw)) ↔ w &&& 0xFF203FFF = wordZ op :=
  spells_iff hr (fun ⟨b, m, iw, h⟩ => ⟨k b m iw, h, by rw [henc, opcodeOf_wordL]⟩) fun h => ⟨_, _, _, h⟩

theorem spells_X_iff {k : BitVec 1 → BitVec 2 → Mask → BitVec 3 → Instr}
    (hr : rowOf op = some ⟨op, .X, buildX k⟩) (henc : ∀ t b m iw, encode (k t b m iw) = wordX op t b m iw) :
    (∃ t b m iw, decode w = .command (k t b m iw)) ↔ w &&& 0xFF003FFF = wordZ op :=
  spells_iff hr (fun ⟨t, b, m, iw, h⟩ => ⟨k t b m iw, h, by rw [henc, opcodeOf_wordX]⟩) fun h => ⟨_, _, _, _, h⟩

end

/-- Settles O3: each clause is `spells_iff` of its row, whose mask and match are the numbers of R94. -/
theorem wordsSpellByMatchAndMask : Obligations.WordsSpellByMatchAndMask := fun _ =>
  ⟨spells_Z_iff rowOf_nop rfl, spells_Z_iff rowOf_blkinit rfl,
    spells_iff rowOf_ldc (fun ⟨reg, imm, h⟩ => ⟨.ldc reg imm, h, opcodeOf_wordC ..⟩) fun h => ⟨_, _, h⟩,
    spells_iff rowOf_ldpx (fun ⟨p, c, imm, h⟩ => ⟨.ldpx p c imm, h, opcodeOf_wordP ..⟩) fun h => ⟨_, _, _, h⟩,
    spells_iff rowOf_lder (fun ⟨b, e, c, imm, h⟩ => ⟨.lder b e c imm, h, opcodeOf_wordE ..⟩)
      fun h => ⟨_, _, _, _, h⟩,
    spells_Z_iff rowOf_keepmin rfl,
    spells_iff rowOf_emit (fun ⟨src, h⟩ => ⟨.emit src, h, opcodeOf_wordM ..⟩) fun h => ⟨_, h⟩,
    spells_Z_iff rowOf_candinit rfl,
    spells_Q_iff rowOf_qntl fun _ _ _ _ => rfl, spells_Q_iff rowOf_qntlp fun _ _ _ _ => rfl,
    spells_Q_iff rowOf_qnth fun _ _ _ _ => rfl, spells_Q_iff rowOf_unql fun _ _ _ _ => rfl,
    spells_Q_iff rowOf_unqlp fun _ _ _ _ => rfl, spells_Q_iff rowOf_unqh fun _ _ _ _ => rfl,
    spells_O_iff rowOf_order fun _ _ => rfl, spells_Q_iff rowOf_delta fun _ _ _ _ => rfl,
    spells_L_iff rowOf_palw fun _ _ _ => rfl, spells_L_iff rowOf_palh fun _ _ _ => rfl,
    spells_O_iff rowOf_palt fun _ _ => rfl, spells_O_iff rowOf_pals fun _ _ => rfl,
    spells_X_iff rowOf_idxn fun _ _ _ _ => rfl, spells_X_iff rowOf_idxp fun _ _ _ _ => rfl,
    spells_X_iff rowOf_fix fun _ _ _ _ => rfl,
    spells_iff rowOf_put (fun ⟨off, wm1, sh, sel, h⟩ => ⟨.put off wm1 sh sel, h, opcodeOf_wordK ..⟩)
      fun h => ⟨_, _, _, _, h⟩,
    spells_iff rowOf_putix (fun ⟨t, off, iw, na, h⟩ => ⟨.putix t off iw na, h, opcodeOf_wordJ ..⟩)
      fun h => ⟨_, _, _, _, h⟩⟩

/-! ### The value of an encoded word -/

/-- A field over the fields below it. -/
theorem toNat_append_eq_add {n k : Nat} (hi : BitVec n) (lo : BitVec k) :
    (hi ++ lo).toNat = hi.toNat * 2 ^ k + lo.toNat := by
  rw [BitVec.toNat_append, ← Nat.shiftLeft_add_eq_or_of_lt lo.isLt, Nat.shiftLeft_eq]

section
variable (op : BitVec 8)

theorem wordZ_toNat : (wordZ op).toNat = op.toNat * 2 ^ 24 := by
  simp only [wordZ, toNat_append_eq_add, BitVec.toNat_zero, Nat.add_zero]

theorem wordC_toNat (reg : BitVec 8) (imm : Half) :
    (wordC op reg imm).toNat = op.toNat * 2 ^ 24 + reg.toNat * 2 ^ 16 + imm.toNat := by
  simp only [wordC, toNat_append_eq_add]
  omega

theorem wordP_toNat (p : BitVec 4) (c : BitVec 2) (imm : Half) :
    (wordP op p c imm).toNat = op.toNat * 2 ^ 24 + p.toNat * 2 ^ 20 + c.toNat * 2 ^ 18 + imm.toNat := by
  simp only [wordP, toNat_append_eq_add, BitVec.toNat_zero]
  omega

theorem wordE_toNat (b : BitVec 2) (e : BitVec 1) (c : BitVec 2) (imm : Half) :
    (wordE op b e c imm).toNat
      = op.toNat * 2 ^ 24 + b.toNat * 2 ^ 22 + e.toNat * 2 ^ 21 + c.toNat * 2 ^ 19 + imm.toNat := by
  simp only [wordE, toNat_append_eq_add, BitVec.toNat_zero]
  omega

theorem wordQ_toNat (b : BitVec 2) (e : BitVec 1) (m : Mask) (n : BitVec 5) :
    (wordQ op b e m n).toNat
      = op.toNat * 2 ^ 24 + b.toNat * 2 ^ 22 + e.toNat * 2 ^ 21 + m.toNat * 2 ^ 17 + n.toNat * 2 ^ 12 := by
  simp only [wordQ, toNat_append_eq_add, BitVec.toNat_zero]
  omega

theorem wordO_toNat (b : BitVec 2) (m : Mask) :
    (wordO op b m).toNat = op.toNat * 2 ^ 24 + b.toNat * 2 ^ 22 + m.toNat * 2 ^ 17 := by
  simp only [wordO, toNat_append_eq_add, BitVec.toNat_zero]
  omega

theorem wordL_toNat (b : BitVec 2) (m : Mask) (iw : BitVec 3) :
    (wordL op b m iw).toNat
      = op.toNat * 2 ^ 24 + b.toNat * 2 ^ 22 + m.toNat * 2 ^ 17 + iw.toNat * 2 ^ 14 := by
  simp only [wordL, toNat_append_eq_add, BitVec.toNat_zero]
  omega

theorem wordX_toNat (t : BitVec 1) (b : BitVec 2) (m : Mask) (iw : BitVec 3) :
    (wordX op t b m iw).toNat
      = op.toNat * 2 ^ 24 + t.toNat * 2 ^ 23 + b.toNat * 2 ^ 21 + m.toNat * 2 ^ 17 + iw.toNat * 2 ^ 14 := by
  simp only [wordX, toNat_append_eq_add, BitVec.toNat_zero]
  omega

theorem wordK_toNat (off : BitVec 7) (wm1 sh : BitVec 4) (sel : BitVec 8) :
    (wordK op off wm1 sh sel).toNat
      = op.toNat * 2 ^ 24 + off.toNat * 2 ^ 17 + wm1.toNat * 2 ^ 13 + sh.toNat * 2 ^ 8 + sel.toNat := by
  simp only [wordK, toNat_append_eq_add, BitVec.toNat_zero]
  omega

theorem wordJ_toNat (t : BitVec 1) (off : BitVec 7) (iw : BitVec 3) (na : BitVec 2) :
    (wordJ op t off iw na).toNat
      = op.toNat * 2 ^ 24 + t.toNat * 2 ^ 23 + off.toNat * 2 ^ 16 + iw.toNat * 2 ^ 13 + na.toNat * 2 ^ 11 := by
  simp only [wordJ, toNat_append_eq_add, BitVec.toNat_zero]
  omega

theorem wordM_toNat (src : BitVec 1) :
    (wordM op src).toNat = op.toNat * 2 ^ 24 + src.toNat * 2 ^ 23 := by
  simp only [wordM, toNat_append_eq_add, BitVec.toNat_zero]
  omega

end

/-- Settles O4: each clause is the value of its format's word at its opcode. -/
theorem encodedWordIsSumOfFields : Obligations.EncodedWordIsSumOfFields := by
  intro b c na e t src m p wm1 sh n iw off reg sel imm
  simp only [List.mem_cons, Prod.mk.injEq, List.not_mem_nil, or_false]
  refine ⟨wordZ_toNat 0x00, wordZ_toNat 0x01, wordC_toNat 0x02 .., wordP_toNat 0x03 .., wordE_toNat 0x04 ..,
    wordZ_toNat 0x05, wordM_toNat 0x06 .., wordZ_toNat 0x07, ?_, ?_, ?_, ?_, wordK_toNat 0x50 ..,
    wordJ_toNat 0x51 ..⟩
  · rintro k op (⟨rfl, rfl⟩ | ⟨rfl, rfl⟩ | ⟨rfl, rfl⟩ | ⟨rfl, rfl⟩ | ⟨rfl, rfl⟩ | ⟨rfl, rfl⟩ | ⟨rfl, rfl⟩) <;>
      exact wordQ_toNat _ b e m n
  · rintro k op (⟨rfl, rfl⟩ | ⟨rfl, rfl⟩ | ⟨rfl, rfl⟩) <;> exact wordO_toNat _ b m
  · rintro k op (⟨rfl, rfl⟩ | ⟨rfl, rfl⟩) <;> exact wordL_toNat _ b m iw
  · rintro k op (⟨rfl, rfl⟩ | ⟨rfl, rfl⟩ | ⟨rfl, rfl⟩) <;> exact wordX_toNat _ t b m iw

end Sys2Proof
end

section
/-! The operand fields (30_encoding.md rule R93), and the commands whose operands fail a check that reads the command
alone (rules R95, R111; 60_exceptions.md rules R261, R262, R265). -/

namespace Sys2Proof.Machine

/-- Settles O6: a field of as many bits as the numbers it names is that number, and of the subset field the one value
without a subset is excluded. -/
theorem operandFieldsNameTheirNumbers : Obligations.OperandFieldsNameTheirNumbers := by
  refine ⟨fun b hb => ?_, fun _ => rfl, fun _ => rfl, fun _ => rfl, fun _ => rfl⟩
  have hlt : b.toNat < 3 := of_decide_eq_true ((subsetOk_iff b).mpr hb)
  exact Nat.mod_eq_of_lt hlt

/-! ### Checks that fail -/

section
variable {s : State} {b : BitVec 2} {m : Mask}

/-- Checks that all raise IllegalOperand write its record when one of them fails. -/
theorem checked_illegalOperand (hf : s.status.fault = false) {cs : List (Bool × FaultCause)}
    (hcause : ∀ c ∈ cs, c.2 = .illegalOperand) (hfails : cs.all (fun c => c.1) = false) (run : State) :
    checked cs s run = .next (s.faultRecord 3) := by
  rw [checked_of_all s run hcause, hfails, if_neg Bool.false_ne_true, State.raise_of_healthy hf]
  rfl

theorem subsetChecks_fail (h : b = 3 ∨ m = 0) : (subsetChecks b m).all (fun c => c.1) = false := by
  rcases h with rfl | rfl
  · rfl
  · exact Bool.and_false _

/-- A list of checks that adds one of its own to the checks on subset and mask. -/
theorem subsetChecks_append_fail {ok : Bool} {f : FaultCause} (h : b = 3 ∨ m = 0 ∨ ok = false) :
    (subsetChecks b m ++ [(ok, f)]).all (fun c => c.1) = false := by
  rw [List.all_append]
  rcases or_assoc.mpr h with hs | rfl
  · rw [subsetChecks_fail hs, Bool.false_and]
  · exact Bool.and_false _

theorem widthOk_eq_false (iw : BitVec 3) (h : iw.toNat < 2 ∨ 4 < iw.toNat) : widthOk iw = false := by
  rw [Bool.eq_false_iff, ne_eq, widthOk_iff]
  omega

theorem bitsOk_eq_false {lo hi : Nat} {n : BitVec 5} (h : n.toNat < lo ∨ hi < n.toNat) : bitsOk lo hi n = false := by
  rw [Bool.eq_false_iff, ne_eq, bitsOk_iff]
  omega

theorem checked_subsetChecks_illegal (hf : s.status.fault = false) (h : b = 3 ∨ m = 0) (run : State) :
    checked (subsetChecks b m) s run = .next (s.faultRecord 3) :=
  checked_illegalOperand hf (by simp [subsetChecks]) (subsetChecks_fail h) run

theorem checked_widthChecks_illegal (hf : s.status.fault = false) {lo hi : Nat} {n : BitVec 5}
    (h : b = 3 ∨ m = 0 ∨ n.toNat < lo ∨ hi < n.toNat) (run : State) :
    checked (widthChecks b m lo hi n) s run = .next (s.faultRecord 3) :=
  checked_illegalOperand hf (by simp [subsetChecks])
    (subsetChecks_append_fail (h.imp_right (Or.imp_right bitsOk_eq_false))) run

theorem checked_indexWidthChecks_illegal (hf : s.status.fault = false) {iw : BitVec 3}
    (h : b = 3 ∨ m = 0 ∨ iw.toNat < 2 ∨ 4 < iw.toNat) (run : State) :
    checked (indexWidthChecks b m iw) s run = .next (s.faultRecord 3) :=
  checked_illegalOperand hf (by simp [subsetChecks])
    (subsetChecks_append_fail (h.imp_right (Or.imp_right (widthOk_eq_false iw)))) run

end

/-- Settles O14: a command is its checks and its effect (`exec_eq_checked`), and in each clause one of the checks
fails. -/
theorem illegalOperandsFault : Obligations.IllegalOperandsFault := by
  intro s b e t c na m n iw off imm hf
  simp only [exec_eq_checked, State.checks]
  refine ⟨?_, fun h => ?_, fun h => ?_, fun h => ?_, fun h => ?_, fun h => ?_, fun h => ?_, fun h => ?_⟩
  · rintro rfl
    exact checked_illegalOperand hf (by simp) rfl _
  · have hfail := checked_subsetChecks_illegal hf h
    exact ⟨hfail _, hfail _, hfail _⟩
  · have hfail := checked_widthChecks_illegal hf h
    exact ⟨hfail _, hfail _⟩
  · have hfail := checked_widthChecks_illegal hf h
    exact ⟨hfail _, hfail _⟩
  · have hfail := checked_widthChecks_illegal hf h
    exact ⟨hfail _, hfail _⟩
  · exact checked_widthChecks_illegal hf h _
  · have hfail := checked_indexWidthChecks_illegal hf h
    exact ⟨hfail _, hfail _, hfail _, hfail _, hfail _⟩
  · rw [widthOk_eq_false iw h, checked_cons_false, State.raise_of_healthy hf]
    rfl

/-! ### Checks that hold -/

theorem State.streamFits_iff (s : State) (off : BitVec 7) (iw : Nat) (na : BitVec 2) :
    s.streamFits off iw na = true ↔ off.toNat + ∑ p : Pixel, s.indexBits iw na p ≤ 128 := by
  rw [State.streamFits, decide_eq_true_iff, State.streamBits, sum_allPixels]

/-- Settles O27: the hypotheses make the command legal, a legal command completes with its effect, and no effect sets
FAULT. -/
theorem legalCommandsNeverFault : Obligations.LegalCommandsNeverFault := by
  intro i s hf hwf hemit hputix
  have hrange : s.rangeOk i = true := by
    cases i
    case emit src => exact s.emitFits_iff.mpr (hemit src rfl)
    case putix t off iw na => exact (s.streamFits_iff off iw.toNat na).mpr (hputix t off iw na rfl)
    all_goals rfl
  have hlegal : s.legal i = true := by rw [State.legal, hwf, hrange, Bool.and_true]
  exact ⟨_, exec_of_legal hlegal, (effect_fault i s).trans hf⟩

end Sys2Proof.Machine
end

section
/-! What a step on a command word does before the command's own checks (30_encoding.md rules R80, R81, R96, R99;
60_exceptions.md rules R262, R266): the word runs, or its opcode or a reserved bit raises a fault, and in every case it
is acknowledged once. -/

namespace Sys2Proof.Machine

section
variable {s : State} {w : Word} {rest : List PortEvent}

/-- A healthy unit runs the word presented in the state without it, and acknowledges (R80, R81). -/
theorem step_command_of_healthy (hp : s.pending = .command w :: rest) (hf : s.status.fault = false) :
    step s = acknowledge (runWord w { s with pending := rest, out := [] }) := by
  rw [step_command hp]
  exact acceptWord_of_healthy (by exact hf) w

/-- A word that raises a fault whatever the state writes the record, and nothing else changes (R262). -/
theorem step_raises (hp : s.pending = .command w :: rest) (hf : s.status.fault = false) {f : FaultCause}
    (hw : ∀ u, runWord w u = .next (u.raise f)) :
    step s = .next { s.faultRecord (faultCode f) with pending := rest, out := [.ack] } := by
  rw [step_command_of_healthy hp hf, hw, State.raise_of_healthy (by exact hf)]
  rfl

end

/-- Settles O7: an accepted word runs as the command it decodes to. -/
theorem stepRunsTheDecodedCommand : Obligations.StepRunsTheDecodedCommand := by
  intro s w rest i hp hf hdec
  rw [step_command_of_healthy hp hf, runWord, hdec]

/-! ### The acknowledgement (R81) -/

/-- Performing a word answers a next state and drives no acknowledgement of its own. -/
theorem runWord_drives (w : Word) (s : State) :
    ∃ t ws, runWord w s = .next t ∧ t.out = s.out ++ ws ∧ PortOutput.ack ∉ ws := by
  rcases runWord_cases w s with ⟨i, -, -, h⟩ | ⟨f, h⟩
  · obtain ⟨ws, hout, hack⟩ := effect_drives i s
    exact ⟨_, ws, h, hout, hack⟩
  · exact ⟨_, [], h, by simp, List.not_mem_nil⟩

/-- A word abandoned by reset has driven byte writes at most. -/
theorem abandon_drives (w : Word) (s : State) :
    ∃ ws, (s.abandon w).out = s.out ++ ws ∧ PortOutput.ack ∉ ws := by
  rcases s.abandon_cases w with h | ⟨src, k, -, -, -, -, h⟩
  · exact ⟨[], by simp [h], List.not_mem_nil⟩
  · exact ⟨_, by rw [h, State.storeAtOADDR_out], ack_not_mem_byteWrites _ _⟩

/-- Settles O11: neither a discarded word nor one that runs drives an acknowledgement of its own, so the one that
follows is the only one; after a reset none follows. -/
theorem commandsAreAcknowledgedOnce : Obligations.CommandsAreAcknowledgedOnce := by
  intro s w rest
  refine ⟨fun hp => ?_, fun hp => ?_⟩
  · cases hf : s.status.fault with
    | true =>
      rw [step_command hp, acceptWord_of_faulted (by exact hf)]
      exact ⟨_, [], rfl, rfl, List.not_mem_nil⟩
    | false =>
      obtain ⟨t, ws, hrun, hout, hack⟩ := runWord_drives w { s with pending := rest, out := [] }
      rw [step_command_of_healthy hp hf, hrun]
      exact ⟨_, ws, rfl, congrArg (· ++ [.ack]) hout, hack⟩
  · obtain ⟨ws, hout, hack⟩ := abandon_drives w { s with pending := rest, out := [] }
    refine ⟨_, step_resetDuring hp, ?_⟩
    rw [State.assertReset_out, hout]
    exact hack

/-! ### Words that spell no command (R96) -/

theorem opcodeOf_toNat (w : Word) : (opcodeOf w).toNat = w.toNat / 2 ^ 24 := by
  have hw := w.isLt
  rw [opcodeOf, field, BitVec.extractLsb'_toNat, Nat.shiftRight_eq_div_pow]
  omega

/-- The opcodes without a row are those that the map does not list. -/
theorem rowOf_eq_none_iff (op : BitVec 8) :
    rowOf op = none ↔ op.toNat ∉ opcodeMap.map fun r => r.op.toNat := by
  simp only [rowOf, List.find?_eq_none, List.mem_map, beq_iff_eq, not_exists, not_and, BitVec.toNat_inj]

theorem runWord_of_no_row {w : Word} (h : rowOf (opcodeOf w) = none) (s : State) :
    runWord w s = .next (s.raise .illegalOpcode) := by
  simp only [runWord, decode, h]

theorem runWord_of_reserved {w : Word} {r : OpRow} (hr : rowOf (opcodeOf w) = some r)
    (hbit : w &&& r.fmt.reserved ≠ 0) (s : State) : runWord w s = .next (s.raise .reservedField) := by
  simp only [runWord, decode, hr, if_neg hbit]

/-- Settles O12: the opcode has no row, so the word raises IllegalOpcode. -/
theorem undefinedOpcodeFaults : Obligations.UndefinedOpcodeFaults := by
  intro s w rest hp hf hop
  rw [← opcodeOf_toNat] at hop
  exact step_raises hp hf (runWord_of_no_row ((rowOf_eq_none_iff _).mpr hop))

/-- The row of an opcode in a list of opcodes and reserved bits that agrees with the opcode map. -/
theorem row_of_mem_of_agrees {l : List (Nat × Word)} {op : Nat} {reserved : Word}
    (hl : ∀ p ∈ l, (rowOf (BitVec.ofNat 8 p.1)).map (fun r => r.fmt.reserved) = some p.2)
    (hmem : (op, reserved) ∈ l) : ∃ r, rowOf (BitVec.ofNat 8 op) = some r ∧ r.fmt.reserved = reserved :=
  Option.map_eq_some_iff.mp (hl _ hmem)

/-- Settles O13: the listed pairs are those of the opcode map, so the word has a row and fails its test of the reserved
bits before any operand is looked at. -/
theorem reservedBitFaults : Obligations.ReservedBitFaults := by
  intro s w rest op reserved hp hf hmem hop hbit
  obtain ⟨r, hr, rfl⟩ := row_of_mem_of_agrees (by decide) hmem
  have hopcode : BitVec.ofNat 8 op = opcodeOf w := by
    rw [← hop, ← opcodeOf_toNat, BitVec.ofNat_toNat, BitVec.setWidth_eq]
  rw [hopcode] at hr
  exact step_raises hp hf (runWord_of_reserved hr hbit)

end Sys2Proof.Machine
end

section
/-! The quantize unit (40_quantize.md rules R110 to R122): the functions of one channel in the numbers of the spec, and
what QNTL to UNQH, ORDER and `swap_endpoints` write. -/

namespace Sys2Proof.Machine

/-! ### The functions of one channel -/

/-- QNTL's function scales the expanded byte and rounds (R112). -/
theorem quantL_eq (n : Nat) (v : Half) :
    quantL n v = (257 * (v.toNat % 256) * (2 ^ n - 1) + 32768) / 65536 := by
  have hexpand (x : Nat) : (x <<< 8) + x = 257 * x := by
    rw [Nat.shiftLeft_eq]
    omega
  simp only [quantL, hexpand]
  exact Nat.shiftRight_eq_div_pow _ 16

/-- QNTLP's function is QNTL's of one bit more, without the lowest bit (R113). -/
theorem quantLP_eq (n : Nat) (v : Half) :
    quantLP n v = (257 * (v.toNat % 256) * (2 ^ (n + 1) - 1) + 32768) / 65536 / 2 := by
  rw [quantLP, quantL_eq]
  exact Nat.shiftRight_eq_div_pow _ 1

/-- Bit replication: the value at the top of the byte, and its own top bits in the space below (R116). -/
theorem replicateBits_eq {n q : Nat} (hlo : 4 ≤ n) (hhi : n ≤ 8) (hq : q < 2 ^ n) :
    replicateBits n q = q * 2 ^ (8 - n) + q / 2 ^ (2 * n - 8) := by
  have hbyte : q * 2 ^ (8 - n) < 256 := by
    calc q * 2 ^ (8 - n) < 2 ^ n * 2 ^ (8 - n) := Nat.mul_lt_mul_of_pos_right hq (Nat.two_pow_pos _)
      _ = 256 := by rw [← pow_add, Nat.add_sub_cancel' hhi]; rfl
  have htop : q <<< (8 - n) % 256 = q <<< (8 - n) :=
    Nat.mod_eq_of_lt (by rwa [Nat.shiftLeft_eq])
  have hlow : q <<< (8 - n) >>> n = q / 2 ^ (2 * n - 8) := by
    have hsplit : 2 ^ n = 2 ^ (2 * n - 8) * 2 ^ (8 - n) := by
      rw [← pow_add]
      congr 1
      omega
    rw [Nat.shiftLeft_eq, Nat.shiftRight_eq_div_pow, hsplit, Nat.mul_div_mul_right _ _ (Nat.two_pow_pos _)]
  have hfits : q / 2 ^ (2 * n - 8) < 2 ^ (8 - n) := by
    rw [Nat.div_lt_iff_lt_mul (Nat.two_pow_pos _), ← pow_add]
    exact hq.trans_eq (by congr 1; omega)
  simp only [replicateBits]
  rw [htop, hlow, ← Nat.shiftLeft_add_eq_or_of_lt hfits, Nat.shiftLeft_eq]

theorem unquantL_eq {n : Nat} (hlo : 4 ≤ n) (hhi : n ≤ 8) (v : Half) :
    unquantL n v = v.toNat % 2 ^ n * 2 ^ (8 - n) + v.toNat % 2 ^ n / 2 ^ (2 * n - 8) :=
  replicateBits_eq hlo hhi (Nat.mod_lt _ (Nat.two_pow_pos n))

/-- UNQLP's function puts the p-bit under the value before the replication (R117). -/
theorem unquantLP_eq {n : Nat} (hlo : 4 ≤ n) (hhi : n ≤ 7) (pb : Bool) (v : Half) :
    unquantLP n pb v
      = (2 * (v.toNat % 2 ^ n) + pb.toNat) * 2 ^ (7 - n)
        + (2 * (v.toNat % 2 ^ n) + pb.toNat) / 2 ^ (2 * n - 6) := by
  have hmod : v.toNat % 2 ^ n < 2 ^ n := Nat.mod_lt _ (Nat.two_pow_pos n)
  have hpb : pb.toNat < 2 ^ 1 := pb.toNat_lt
  have hor : (v.toNat % 2 ^ n) <<< 1 ||| pb.toNat = 2 * (v.toNat % 2 ^ n) + pb.toNat := by
    rw [← Nat.shiftLeft_add_eq_or_of_lt hpb, Nat.shiftLeft_eq]
    omega
  have h8 : 8 - (n + 1) = 7 - n := by omega
  have h2 : 2 * (n + 1) - 8 = 2 * n - 6 := by omega
  rw [unquantLP, hor, replicateBits_eq (by omega) (by omega) (by rw [pow_succ]; omega), h8, h2]

theorem unquantH_eq (n : Nat) (v : Half) :
    unquantH n v
      = if 15 ≤ n then v.toNat % 2 ^ n
        else if v.toNat % 2 ^ n = 0 then 0
        else if v.toNat % 2 ^ n = 2 ^ n - 1 then 65535
        else (v.toNat % 2 ^ n * 65536 + 32768) / 2 ^ n := by
  simp only [unquantH, Nat.shiftLeft_eq, Nat.shiftRight_eq_div_pow, ge_iff_le]

/-! ### QNTL and UNQL as inverses (R122) -/

theorem quantL_mono (n : Nat) {v w : Half} (hvw : v.toNat ≤ w.toNat) (hw : w.toNat ≤ 255) :
    quantL n v ≤ quantL n w := by
  have hmod : v.toNat % 256 ≤ w.toNat % 256 := by omega
  rw [quantL_eq, quantL_eq]
  gcongr

/-- The greatest byte is expanded to 65535, so that rounding a product with it gives the other factor. -/
theorem round_mul_65535 {x : Nat} (hx : x ≤ 32768) : (65535 * x + 32768) / 65536 = x := by omega

theorem quantL_zero (n : Nat) : quantL n 0 = 0 := by simp [quantL_eq]

theorem quantL_255 {n : Nat} (hn : n ≤ 8) : quantL n 255 = 2 ^ n - 1 := by
  have hpow : 2 ^ n ≤ 2 ^ 8 := Nat.pow_le_pow_right (by decide) hn
  rw [quantL_eq]
  exact round_mul_65535 (by omega)

theorem quantL_eight {v : Half} (hv : v.toNat ≤ 255) : quantL 8 v = v.toNat := by
  rw [quantL_eq, Nat.mod_eq_of_lt (by omega), Nat.mul_right_comm]
  exact round_mul_65535 (by omega)

/-- A replicated value is a byte. -/
theorem unquantL_lt {n : Nat} (hlo : 4 ≤ n) (hhi : n ≤ 8) (q : Half) : unquantL n q < 256 := by
  have hq : q.toNat % 2 ^ n < 2 ^ n := Nat.mod_lt _ (Nat.two_pow_pos n)
  rw [unquantL_eq hlo hhi]
  generalize q.toNat % 2 ^ n = x at hq ⊢
  interval_cases n <;> omega

/-- Replication is off the exact scaling by less than rounding forgives, at each of the five widths. -/
theorem quantL_unquantL {n : Nat} (hlo : 4 ≤ n) (hhi : n ≤ 8) {q : Half} (hq : q.toNat < 2 ^ n) :
    quantL n (BitVec.ofNat 16 (unquantL n q)) = q.toNat := by
  have hbyte := unquantL_lt hlo hhi q
  rw [quantL_eq, BitVec.toNat_ofNat, Nat.mod_eq_of_lt (by omega : unquantL n q < 2 ^ 16), Nat.mod_eq_of_lt hbyte,
    unquantL_eq hlo hhi, Nat.mod_eq_of_lt hq]
  generalize q.toNat = x at hq ⊢
  interval_cases n <;> omega

/-- Settles O40: the function is a rounded product (`quantL_eq`), and its inverse is read off bit replication as a sum
(`unquantL_eq`). -/
theorem quantizeRoundTrips : Obligations.QuantizeRoundTrips := by
  intro n hlo hhi
  exact ⟨fun v w => quantL_mono n, quantL_zero n, quantL_255 hhi, fun v => quantL_eight,
    fun q => quantL_unquantL hlo hhi⟩

/-! ### QUANT_H (R115) -/

section
variable (raw : Half → Nat → Nat)

theorem boundQuantH_zero (n : Nat) : boundQuantH raw 0 n = 0 := if_pos rfl

theorem boundQuantH_lt (h : Half) (n : Nat) : boundQuantH raw h n < 2 ^ n := by
  unfold boundQuantH
  split
  · exact Nat.two_pow_pos n
  · exact Nat.mod_lt _ (Nat.two_pow_pos n)

/-- A function within the bounds is held as it is. -/
theorem boundQuantH_of_bounded {n : Nat} (hzero : raw 0 n = 0) (hlt : ∀ h, raw h n < 2 ^ n) (h : Half) :
    boundQuantH raw h n = raw h n := by
  unfold boundQuantH
  split
  next h0 => rw [h0, hzero]
  · exact Nat.mod_eq_of_lt (hlt h)

end

theorem defaultQuantH_eq (h : Half) (n : Nat) :
    defaultQuantH h n = min (h.toNat * 2 ^ n / 0x7C00) (2 ^ n - 1) := by
  rw [defaultQuantH, Nat.shiftLeft_eq]

theorem defaultQuantH_zero (n : Nat) : defaultQuantH 0 n = 0 := by simp [defaultQuantH_eq]

theorem defaultQuantH_lt (h : Half) (n : Nat) : defaultQuantH h n < 2 ^ n := by
  have hpos := Nat.two_pow_pos n
  rw [defaultQuantH_eq]
  omega

/-- Settles O41: the default formula is within the bounds, and what is within them is held as it is. -/
theorem quantHIsBounded : Obligations.QuantHIsBounded := by
  refine ⟨fun h n _ _ => boundQuantH_lt _ h n, fun n _ _ => boundQuantH_zero _ n, fun h n _ _ => ?_,
    fun raw hzero hlt => ?_⟩
  · rw [boundQuantH_of_bounded _ (defaultQuantH_zero n) (defaultQuantH_lt · n), defaultQuantH_eq]
  · funext h n
    exact boundQuantH_of_bounded raw (hzero n) (hlt · n) h

/-! ### The writes to EQ and EU -/

section
variable {b : BitVec 2} {m : Mask}

/-- Checks that all hold let the command have its effect. -/
theorem checked_of_all_true {cs : List (Bool × FaultCause)} (h : cs.all (fun c => c.1) = true) (s run : State) :
    checked cs s run = .next run := by
  rcases checked_endsBy cs s run with ⟨-, hrun⟩ | ⟨hfails, -⟩
  · exact hrun
  · rw [h] at hfails
    cases hfails

theorem checked_subsetChecks_legal (s run : State) (hb : b ≠ 3) (hm : m ≠ 0) :
    checked (subsetChecks b m) s run = .next run :=
  checked_of_all_true (by simp [subsetChecks, (subsetOk_iff b).mpr hb, (maskOk_iff m).mpr hm]) s run

theorem checked_widthChecks_legal (s run : State) {lo hi : Nat} {n : BitVec 5} (hb : b ≠ 3) (hm : m ≠ 0)
    (hlo : lo ≤ n.toNat) (hhi : n.toNat ≤ hi) : checked (widthChecks b m lo hi n) s run = .next run :=
  checked_of_all_true
    (by
      simp [widthChecks, subsetChecks, (subsetOk_iff b).mpr hb, (maskOk_iff m).mpr hm,
        (bitsOk_iff lo hi n).mpr ⟨hlo, hhi⟩]) s run

end

/-- A write to one endpoint of values that are named for every endpoint. -/
theorem EndpointFile.write_get_of_named (f : EndpointFile) (b : Subset) (e : EndNo) (m : Mask)
    (w : Subset → EndNo → Chan → DataReg) (b' : Subset) (e' : EndNo) (c : Chan) :
    (f.write b e m (w b e))[b'][e'][c]
      = if b' = b ∧ e' = e ∧ inMask m c then w b' e' c else f[b'][e'][c] := by
  rw [EndpointFile.write_get]
  split
  next hsel =>
    obtain ⟨rfl, rfl, -⟩ := hsel
    rfl
  · rfl

/-- Settles O38: each of the three commands is `State.quantize` with a function of one channel that is the spec's. -/
theorem quantizeWritesEq : Obligations.QuantizeWritesEq := by
  intro s b e m n hb hm i lo hi f hmem hlo hhi
  have hrun (run : State) := checked_widthChecks_legal s run hb hm hlo hhi
  obtain ⟨g, hexec, hg⟩ : ∃ g : Half → Nat,
      exec i s = .next (s.quantize (subsetOf b) (endOf e) m g).complete ∧ ∀ v : Half, g v = f v.toNat := by
    simp only [List.mem_cons, Prod.mk.injEq, List.not_mem_nil, or_false] at hmem
    rcases hmem with ⟨rfl, rfl, rfl, rfl⟩ | ⟨rfl, rfl, rfl, rfl⟩ | ⟨rfl, rfl, rfl, rfl⟩
    · exact ⟨_, hrun _, quantL_eq n.toNat⟩
    · exact ⟨_, hrun _, quantLP_eq n.toNat⟩
    · refine ⟨_, hrun _, fun v => ?_⟩
      show quantH v n.toNat = quantH (BitVec.ofNat 16 v.toNat) n.toNat
      rw [BitVec.ofNat_toNat, BitVec.setWidth_eq]
  refine ⟨_, hexec, rfl, fun b' e' c => ?_, fun _ => rfl⟩
  simp only [State.complete_eq, State.quantize_eq, hg]
  exact s.eq.write_get_of_named _ _ m (fun b e c => .ofNat (f (s.readER b e c).toNat)) b' e' c

/-- Settles O39: each of the three commands is `State.unquantize` with a function of one channel that is the
spec's. -/
theorem unquantizeWritesEu : Obligations.UnquantizeWritesEu := by
  intro s b e m n hb hm i lo hi f hmem hlo hhi
  have hrun (run : State) := checked_widthChecks_legal s run hb hm hlo hhi
  obtain ⟨g, hexec, hg⟩ : ∃ g : Half → Nat,
      exec i s = .next (s.unquantize (subsetOf b) (endOf e) m g).complete ∧ ∀ v : Half, g v = f v.toNat := by
    simp only [List.mem_cons, Prod.mk.injEq, List.not_mem_nil, or_false] at hmem
    rcases hmem with ⟨rfl, rfl, rfl, rfl⟩ | ⟨rfl, rfl, rfl, rfl⟩ | ⟨rfl, rfl, rfl, rfl⟩
    · exact ⟨_, hrun _, unquantL_eq hlo hhi⟩
    · exact ⟨_, hrun _, unquantLP_eq hlo hhi _⟩
    · exact ⟨_, hrun _, unquantH_eq n.toNat⟩
  refine ⟨_, hexec, rfl, fun b' e' c => ?_, fun _ => rfl⟩
  simp only [State.complete_eu, State.unquantize_eu, hg]
  exact s.eu.write_get_of_named _ _ m (fun b e c => .ofNat (f (s.readEQ b e c).toNat)) b' e' c

/-! ### ORDER and `swap_endpoints` -/

section
variable (f : EndpointFile) {b b' : Subset} {m : Mask} {c : Chan}

theorem EndpointFile.exchange_get_of_mem (h : b' = b ∧ inMask m c = true) (e : EndNo) :
    (f.exchange b m)[b'][e][c] = f[b'][otherEnd e][c] := by
  rw [EndpointFile.exchange_get, if_pos h]

theorem EndpointFile.exchange_get_of_not_mem (h : ¬(b' = b ∧ inMask m c = true)) (e : EndNo) :
    (f.exchange b m)[b'][e][c] = f[b'][e][c] := by
  rw [EndpointFile.exchange_get, if_neg h]

end

/-- Settles O43: the three files are exchanged alike, and PBITS bit by bit. -/
theorem swapEndpointsExchanges : Obligations.SwapEndpointsExchanges := by
  intro s b m t
  refine ⟨rfl, fun b' c h => ?_, fun b' e c h => ?_, ?_, ?_, fun j hlow hhigh => ?_⟩
  · have hswap (f : EndpointFile) := f.exchange_get_of_mem h
    exact ⟨hswap s.er 0, hswap s.er 1, hswap s.eq 0, hswap s.eq 1, hswap s.eu 0, hswap s.eu 1⟩
  · have hkeep (f : EndpointFile) := f.exchange_get_of_not_mem h e
    exact ⟨hkeep s.er, hkeep s.eq, hkeep s.eu⟩
  · exact (exchangePBits_getLsbD _ _ _).trans (if_pos rfl)
  · exact (exchangePBits_getLsbD _ _ _).trans ((if_neg (by omega)).trans (if_pos rfl))
  · exact (exchangePBits_getLsbD _ _ _).trans ((if_neg hlow).trans (if_neg hhigh))

theorem exec_order_of_legal {b : BitVec 2} {m : Mask} (s : State) (hb : b ≠ 3) (hm : m ≠ 0) :
    exec (.order b m) s = .next (s.orderEndpoints (subsetOf b) m).complete :=
  checked_subsetChecks_legal s _ hb hm

/-- Settles O42: whether ORDER exchanges is `endpointsRise`, whose meaning and that of EQL are
`State.endpointsRise_iff` and `State.endpointsEqual_iff`. -/
theorem orderPutsTheLargerFirst : Obligations.OrderPutsTheLargerFirst := by
  intro s b m hb hm
  rw [exec_order_of_legal s hb hm, ← s.endpointsRise_iff, ← s.endpointsEqual_iff]
  cases hrise : s.endpointsRise (subsetOf b) m with
  | true =>
    rw [State.orderEndpoints_of_rise hrise]
    exact ⟨_, rfl, rfl, Iff.rfl, fun _ => ⟨rfl, rfl, rfl, rfl⟩, fun h => absurd rfl h, fun _ => rfl⟩
  | false =>
    rw [State.orderEndpoints_of_not_rise hrise]
    exact ⟨_, rfl, rfl, Iff.rfl, fun h => absurd h Bool.false_ne_true, fun _ => ⟨rfl, rfl, rfl, rfl⟩,
      fun _ => rfl⟩

end Sys2Proof.Machine
end

section
/-! The words that the rules print beside their commands (40_quantize.md to 45_control.md). -/

namespace Sys2Proof.Machine

/-- Settles O5: each printed word is the word that spells its command (`decodeOfEncode`). -/
theorem printedWordsDecode : Obligations.PrintedWordsDecode :=
  ⟨decodeOfEncode (.ldc 0x00 0x0015), decodeOfEncode (.ldpx 5 1 0x80), decodeOfEncode (.lder 0 1 0 255),
    decodeOfEncode (.emit 1), decodeOfEncode (.qntl 0 0 0b0101 5), decodeOfEncode (.order 0 0b0111),
    decodeOfEncode (.palh 1 0b0111 3), decodeOfEncode (.pals 2 0b0001), decodeOfEncode (.idxn 0 0 0b0001 3),
    decodeOfEncode (.fix 0 1 0b0001 3), decodeOfEncode (.put 44 0 10 0x00), decodeOfEncode (.putix 0 65 4 1)⟩

end Sys2Proof.Machine
end

section
/-! The palette interpolator (41_palette.md rules R130 to R136): the weight tables, each palette entry as the formula of
its rule, and what the four commands write. -/

namespace Sys2Proof.Machine

/-! ### The weights (R131) -/

section
variable {iw k : Nat}

/-- The tables are symmetric (R131). -/
theorem weight_mirror (hlo : 2 ≤ iw) (hhi : iw ≤ 4) (hk : k < 2 ^ iw) :
    weight iw (2 ^ iw - 1 - k) = 64 - weight iw k := by
  have two : ∀ k < 2 ^ 2, weight 2 (2 ^ 2 - 1 - k) = 64 - weight 2 k := by decide
  have three : ∀ k < 2 ^ 3, weight 3 (2 ^ 3 - 1 - k) = 64 - weight 3 k := by decide
  have four : ∀ k < 2 ^ 4, weight 4 (2 ^ 4 - 1 - k) = 64 - weight 4 k := by decide
  obtain rfl | rfl | rfl : iw = 2 ∨ iw = 3 ∨ iw = 4 := by omega
  · exact two k hk
  · exact three k hk
  · exact four k hk

/-- A weight is 64 minus the mirrored one, so at most 64. -/
theorem weight_le (hlo : 2 ≤ iw) (hhi : iw ≤ 4) (hk : k < 2 ^ iw) : weight iw k ≤ 64 := by
  have hmirror := weight_mirror (k := 2 ^ iw - 1 - k) hlo hhi (by omega)
  rw [show 2 ^ iw - 1 - (2 ^ iw - 1 - k) = k by omega] at hmirror
  omega

theorem weight_first (hlo : 2 ≤ iw) (hhi : iw ≤ 4) : weight iw 0 = 0 := by
  obtain rfl | rfl | rfl : iw = 2 ∨ iw = 3 ∨ iw = 4 := by omega
  all_goals rfl

theorem weight_last (hlo : 2 ≤ iw) (hhi : iw ≤ 4) : weight iw (2 ^ iw - 1) = 64 := by
  rw [← Nat.sub_zero (2 ^ iw - 1), weight_mirror hlo hhi (Nat.two_pow_pos iw), weight_first hlo hhi]

/-- The number of an entry of a palette, as an index below `2 ^ iw` (R28). -/
theorem entryOf_val (hhi : iw ≤ 4) (hk : k < 2 ^ iw) : (entryOf k).val = k :=
  Nat.mod_eq_of_lt (hk.trans_le (Nat.pow_le_pow_right (by decide) hhi))

end

/-- Settles O45: the tables are read off, and their symmetry is `weight_mirror`. -/
theorem weightsAreTheTables : Obligations.WeightsAreTheTables :=
  ⟨rfl, rfl, rfl, fun _ hlo hhi _ hk => weight_mirror hlo hhi hk⟩

/-! ### The entries as formulas -/

theorem interpolate_eq (low high w : Nat) : interpolate low high w = (low * (64 - w) + high * w + 32) / 64 :=
  Nat.shiftRight_eq_div_pow _ 6

/-- No weight on the second endpoint gives the first (R136). -/
theorem interpolate_zero (low high : Nat) : interpolate low high 0 = low := by
  rw [interpolate_eq]
  omega

/-- The whole weight on the second endpoint gives it (R136). -/
theorem interpolate_64 (low high : Nat) : interpolate low high 64 = high := by
  rw [interpolate_eq]
  omega

/-- Exchanging the endpoints exchanges their two weights. -/
theorem interpolate_exchange (low high : Nat) {w : Nat} (hw : w ≤ 64) :
    interpolate high low w = interpolate low high (64 - w) := by
  rw [interpolate_eq, interpolate_eq, Nat.sub_sub_self hw, Nat.add_comm (high * (64 - w))]

theorem palhEntry_eq (iw low high : Nat) (k : Entry) : palhEntry iw low high k = palwEntry iw low high k * 31 / 64 :=
  Nat.shiftRight_eq_div_pow _ 6

theorem palwEntry_first {iw : Nat} (hlo : 2 ≤ iw) (hhi : iw ≤ 4) (low high : Nat) : palwEntry iw low high 0 = low :=
  (congrArg (interpolate low high) (weight_first hlo hhi)).trans (interpolate_zero low high)

theorem palwEntry_last {iw : Nat} (hlo : 2 ≤ iw) (hhi : iw ≤ 4) (low high : Nat) :
    palwEntry iw low high (entryOf (2 ^ iw - 1)) = high := by
  have hlast : 2 ^ iw - 1 < 2 ^ iw := Nat.sub_one_lt (Nat.two_pow_pos iw).ne'
  rw [palwEntry, entryOf_val hhi hlast, weight_last hlo hhi, interpolate_64]

theorem palwEntry_exchange {iw : Nat} (hlo : 2 ≤ iw) (hhi : iw ≤ 4) (low high : Nat) {k : Entry}
    (hk : k.val < 2 ^ iw) : palwEntry iw high low k = palwEntry iw low high (entryOf (2 ^ iw - 1 - k.val)) := by
  have hmirror : 2 ^ iw - 1 - k.val < 2 ^ iw := by omega
  rw [palwEntry, palwEntry, entryOf_val hhi hmirror, weight_mirror hlo hhi hk,
    interpolate_exchange low high (weight_le hlo hhi hk)]

/-- Settles O48: PALW's entry is reversed (`palwEntry_exchange`), and PALH's is a function of it (`palhEntry_eq`). -/
theorem exchangeReversesThePalette : Obligations.ExchangeReversesThePalette := by
  intro iw low high hlo hhi _ _ k hk
  have hpalw := palwEntry_exchange hlo hhi low high hk
  exact ⟨hpalw, by rw [palhEntry_eq, palhEntry_eq, hpalw]⟩

theorem paltEntry_eq (c0 c1 : Nat) (k : Entry) :
    paltEntry c0 c1 k
      = if k.val = 0 then c0 else if k.val = 1 then c1
        else if k.val = 2 then (2 * c0 + c1 + 1) / 3 else (c0 + 2 * c1 + 1) / 3 := by
  unfold paltEntry
  split
  next h => rw [if_pos h]
  next h => simp [h]
  next h => simp [h]
  next h0 h1 h2 => rw [if_neg h0, if_neg h1, if_neg h2]

theorem palsEntry_eq (e0 e1 : Nat) (k : Entry) :
    palsEntry e0 e1 k
      = if k.val = 0 then e0 else if k.val = 1 then e1 else ((8 - k.val) * e0 + (k.val - 1) * e1 + 3) / 7 := by
  unfold palsEntry
  split
  next h => rw [if_pos h]
  next h => simp [h]
  next h0 h1 => rw [if_neg h0, if_neg h1]

/-! ### What the commands write (R130) -/

/-- A palette command writes, to the entries and channels it selects, any values `v` that its function of the two
endpoints agrees with. -/
theorem State.buildPalette_get (s : State) (b : Subset) (m : Mask) (n : Nat) {f : Nat → Nat → Entry → Nat}
    {v : Entry → Chan → Nat} (hf : ∀ k c, f (s.readEU b 0 c).toNat (s.readEU b 1 c).toNat k = v k c)
    (b' : Subset) (k : Entry) (c : Chan) :
    (s.buildPalette b m n f).pal[b'][k][c]
      = if b' = b ∧ k.val < n ∧ inMask m c then .ofNat (v k c) else s.pal[b'][k][c] := by
  rw [State.buildPalette_pal, PaletteFile.write_get, hf]

theorem checked_indexWidthChecks_legal {b : BitVec 2} {m : Mask} {iw : BitVec 3} (s run : State) (hb : b ≠ 3)
    (hm : m ≠ 0) (hlo : 2 ≤ iw.toNat) (hhi : iw.toNat ≤ 4) :
    checked (indexWidthChecks b m iw) s run = .next run :=
  checked_of_all_true
    (by
      simp [indexWidthChecks, subsetChecks, (subsetOk_iff b).mpr hb, (maskOk_iff m).mpr hm,
        (widthOk_iff iw).mpr ⟨hlo, hhi⟩]) s run

/-- Settles O46: both commands build a palette, PALW's entries being interpolated values that run from the one
endpoint to the other, PALH's a function of them. -/
theorem weightedPalettesInterpolate : Obligations.WeightedPalettesInterpolate := by
  intro s b m iw hb hm hlo hhi low high u
  have hrun (run : State) := checked_indexWidthChecks_legal s run hb hm hlo hhi
  have hu (k : Entry) (c : Chan) : palwEntry iw.toNat (low c) (high c) k = u k c := interpolate_eq _ _ _
  have hh (k : Entry) (c : Chan) : palhEntry iw.toNat (low c) (high c) k = u k c * 31 / 64 := by
    rw [palhEntry_eq, hu]
  refine ⟨⟨_, hrun _, rfl, s.buildPalette_get _ m _ hu, fun c => ?_, fun _ => rfl⟩,
    ⟨_, hrun _, rfl, s.buildPalette_get _ m _ hh, fun _ => rfl⟩⟩
  rw [← hu, ← hu]
  exact ⟨palwEntry_first hlo hhi _ _, palwEntry_last hlo hhi _ _⟩

/-- Settles O47: both commands build a palette, with the entries of `paltEntry_eq` and `palsEntry_eq`. -/
theorem dividedPalettes : Obligations.DividedPalettes := by
  intro s b m hb hm e0 e1
  have hrun (run : State) := checked_subsetChecks_legal s run hb hm
  exact ⟨⟨_, hrun _, rfl, s.buildPalette_get _ m 4 fun k c => paltEntry_eq (e0 c) (e1 c) k, fun _ => rfl⟩,
    ⟨_, hrun _, rfl, s.buildPalette_get _ m 8 fun k c => palsEntry_eq (e0 c) (e1 c) k, fun _ => rfl⟩⟩

end Sys2Proof.Machine
end

section
/-! The index assigner (42_index.md rules R145 to R151): what IDXN and IDXP choose for a pixel, the bounds that hold
ASSIGN_LUT, and what both commands write. -/

namespace Sys2Proof.Machine

/-! ### ASSIGN_LUT (R149) -/

section
variable (raw : Nat → Nat → Nat) (iw : Nat)

theorem boundLut_zero : boundLut raw iw 0 = 0 := rfl

theorem boundLut_of_ge {f : Nat} (hf : 63 ≤ f) : boundLut raw iw f = 2 ^ iw - 1 := by
  cases f with
  | zero => omega
  | succ f => exact if_pos hf

theorem boundLut_succ_of_lt {f : Nat} (hf : f + 1 < 63) :
    boundLut raw iw (f + 1) = min (2 ^ iw - 1) (max (boundLut raw iw f) (raw iw (f + 1))) :=
  if_neg (by omega)

theorem boundLut_le (f : Nat) : boundLut raw iw f ≤ 2 ^ iw - 1 := by
  cases f with
  | zero => exact Nat.zero_le _
  | succ f =>
    obtain hf | hf := lt_or_ge (f + 1) 63
    · exact (boundLut_succ_of_lt raw iw hf).trans_le (min_le_left _ _)
    · exact (boundLut_of_ge raw iw hf).le

theorem boundLut_monotone : Monotone (boundLut raw iw) := by
  refine monotone_nat_of_le_succ fun f => ?_
  obtain hf | hf := lt_or_ge (f + 1) 63
  · rw [boundLut_succ_of_lt raw iw hf]
    exact le_min (boundLut_le raw iw f) (le_max_left _ _)
  · rw [boundLut_of_ge raw iw hf]
    exact boundLut_le raw iw f

/-- A table within the bounds is held as it is. -/
theorem boundLut_of_bounded (hzero : raw iw 0 = 0) (hlast : raw iw 63 = 2 ^ iw - 1)
    (hmono : ∀ f g, f ≤ g → g ≤ 63 → raw iw f ≤ raw iw g) {f : Nat} (hf : f ≤ 63) :
    boundLut raw iw f = raw iw f := by
  induction f with
  | zero => exact hzero.symm
  | succ f ih =>
    obtain hlt | hge := lt_or_ge (f + 1) 63
    · have hstep : raw iw f ≤ raw iw (f + 1) := hmono _ _ (Nat.le_succ f) hf
      have htop : raw iw (f + 1) ≤ 2 ^ iw - 1 := hlast ▸ hmono _ _ hf le_rfl
      rw [boundLut_succ_of_lt raw iw hlt, ih (Nat.le_of_succ_le hf), max_eq_right hstep, min_eq_right htop]
    · have heq : f + 1 = 63 := le_antisymm hf hge
      rw [boundLut_of_ge raw iw hge, heq, hlast]

end

/-! ### The default table (R150) -/

section
variable {iw : Nat}

/-- The weights of a table rise strictly (R131). -/
theorem weight_lt_weight (hlo : 2 ≤ iw) (hhi : iw ≤ 4) {j k : Nat} (hjk : j < k) (hk : k < 2 ^ iw) :
    weight iw j < weight iw k := by
  have two : ∀ k < 2 ^ 2, ∀ j < k, weight 2 j < weight 2 k := by decide
  have three : ∀ k < 2 ^ 3, ∀ j < k, weight 3 j < weight 3 k := by decide
  have four : ∀ k < 2 ^ 4, ∀ j < k, weight 4 j < weight 4 k := by decide
  obtain rfl | rfl | rfl : iw = 2 ∨ iw = 3 ∨ iw = 4 := by omega
  · exact two k hk j hjk
  · exact three k hk j hjk
  · exact four k hk j hjk

theorem defaultLut_le (iw f : Nat) : defaultLut iw f ≤ 2 ^ iw - 1 := (firstLeast_spec _ _).1

/-- How far the weight of index `k` is from the fraction `f / 63`, in parts of `63 * 64` (R150). -/
def weightMiss (iw f k : Nat) : Nat := (63 * (weight iw k : Int) - 64 * (f : Int)).natAbs

/-- The default table's index misses the fraction least, and is the first that does (R150). -/
theorem defaultLut_spec (iw f : Nat) :
    (∀ j, j ≤ 2 ^ iw - 1 → weightMiss iw f (defaultLut iw f) ≤ weightMiss iw f j) ∧
      ∀ j, j < defaultLut iw f → weightMiss iw f (defaultLut iw f) < weightMiss iw f j :=
  (firstLeast_spec (weightMiss iw f) (2 ^ iw - 1)).2

theorem defaultLut_zero (hlo : 2 ≤ iw) (hhi : iw ≤ 4) : defaultLut iw 0 = 0 := by
  by_contra hne
  obtain ⟨-, hfirst⟩ := defaultLut_spec iw 0
  have hmiss := hfirst 0 (Nat.pos_of_ne_zero hne)
  rw [weightMiss, weightMiss, weight_first hlo hhi] at hmiss
  omega

/-- The last weight is 64, and no other is: at 63 it alone is at distance 0. -/
theorem defaultLut_last (hlo : 2 ≤ iw) (hhi : iw ≤ 4) : defaultLut iw 63 = 2 ^ iw - 1 := by
  have hpos := Nat.two_pow_pos iw
  obtain ⟨hleast, -⟩ := defaultLut_spec iw 63
  have hmiss := hleast _ le_rfl
  rw [weightMiss, weightMiss, weight_last hlo hhi] at hmiss
  refine (defaultLut_le iw 63).eq_of_not_lt fun hlt => ?_
  have hweight := weight_lt_weight hlo hhi hlt (by omega)
  rw [weight_last hlo hhi] at hweight
  omega

/-- Of two weights, a fraction nearer to the greater one stays so as it grows, so the chosen index does not fall. -/
theorem defaultLut_monotone (hlo : 2 ≤ iw) (hhi : iw ≤ 4) : Monotone (defaultLut iw) := by
  intro f g hfg
  by_contra hlt
  rw [not_le] at hlt
  have hpos := Nat.two_pow_pos iw
  have hle := defaultLut_le iw f
  have hweight := weight_lt_weight hlo hhi hlt (by omega)
  obtain ⟨-, hfirst⟩ := defaultLut_spec iw f
  obtain ⟨hleast, -⟩ := defaultLut_spec iw g
  have hf := hfirst _ hlt
  have hg := hleast _ hle
  rw [weightMiss, weightMiss] at hf hg
  omega

end

/-- Settles O52: `boundLut` holds any table to the bounds and keeps one that is within them, as the default is. -/
theorem assignLutIsBounded : Obligations.AssignLutIsBounded := by
  intro iw hlo hhi
  refine ⟨boundLut_zero _ iw, boundLut_of_ge _ iw le_rfl, fun f _ => boundLut_le _ iw f,
    fun f g hfg _ => boundLut_monotone _ iw hfg, ?_, ?_⟩
  · intro raw hzero hlast hmono f hf
    exact boundLut_of_bounded raw iw hzero hlast hmono hf
  · intro f hf
    exact boundLut_of_bounded defaultLut iw (defaultLut_zero hlo hhi) (defaultLut_last hlo hhi)
      (fun _ _ hfg _ => defaultLut_monotone hlo hhi hfg) hf

/-! ### The choice of an index -/

section
variable {iw : Nat} (s : State) (b : Subset) (m : Mask) (p : Pixel)

theorem State.nearestIndex_lt : s.nearestIndex b m iw p < 2 ^ iw :=
  Nat.lt_of_le_pred (Nat.two_pow_pos iw) (firstLeast_spec _ _).1

/-- IDXN's entry is nearest among those below `2 ^ iw`, and strictly nearer than those before it (R146). -/
theorem State.nearestIndex_spec (hhi : iw ≤ 4) {j : Entry} (hj : j.val < 2 ^ iw) :
    s.squaredError b m p (entryOf (s.nearestIndex b m iw p)) ≤ s.squaredError b m p j ∧
      (j < entryOf (s.nearestIndex b m iw p) →
        s.squaredError b m p (entryOf (s.nearestIndex b m iw p)) < s.squaredError b m p j) := by
  obtain ⟨-, hleast, hfirst⟩ := firstLeast_spec (fun k => s.dist b m p (entryOf k)) (2 ^ iw - 1)
  have hentry : entryOf j.val = j := Fin.ext (entryOf_val hhi hj)
  have hval := entryOf_val hhi (s.nearestIndex_lt b m p (iw := iw))
  rw [← State.dist_eq, ← State.dist_eq, Nat.cast_le, Nat.cast_lt, Fin.lt_def, hval]
  refine ⟨?_, fun hlt => ?_⟩
  · simpa only [hentry, State.nearestIndex] using hleast j.val (Nat.le_pred_of_lt hj)
  · simpa only [hentry, State.nearestIndex] using hfirst j.val hlt

theorem projectionStep_before {n d : Int} (h : n = 0 ∨ d ≤ 0) : projectionStep n d = 0 := if_pos h

theorem projectionStep_beyond {n d : Int} (hn : n ≠ 0) (hd : 0 < d) (hnd : n ≤ d) : projectionStep n d = 63 := by
  rw [projectionStep, if_neg (by omega), if_pos hnd]

/-- Strictly between the ends, the fraction is the nearest of the 63rds (R148). -/
theorem projectionStep_between {n d : Int} (hd : 0 < d) (hdn : d < n) {f : Nat}
    (hf : (f : Int) = (126 * d + n) / (2 * n)) : projectionStep n d = f ∧ f ≤ 63 := by
  have hlt : (126 * d + n) / (2 * n) < 64 := Int.ediv_lt_of_lt_mul (by omega) (by omega)
  refine ⟨?_, by omega⟩
  rw [projectionStep, if_neg (by omega), if_neg (by omega), ← hf, Int.toNat_natCast]

theorem State.projectedIndex_lt : s.projectedIndex assignLut b m iw p < 2 ^ iw :=
  Nat.lt_of_le_pred (Nat.two_pow_pos iw) (boundLut_le _ iw _)

/-- IDXP's index as the table's entry, in the quantities of the spec (R148). -/
theorem State.projectedIndex_eq (lut : Nat → Nat → Nat) :
    s.projectedIndex lut b m iw p
      = lut iw (projectionStep (s.spanNorm b m (entryOf (2 ^ iw - 1)))
          (s.spanDot b m (entryOf (2 ^ iw - 1)) p)) := by
  rw [State.projectedIndex, State.lineNorm_eq, State.lineDot_eq]

end

/-! ### What the commands write (R145) -/

section
variable (s : State) {t t' : Stream} {b : Subset} (m : Mask) (choose : Pixel → Nat) {p : Pixel}

theorem State.assignIndices_ix_selected (hp : s.subsetAt p = b) :
    (s.assignIndices t b m choose).ix[t][p] = BitVec.ofNat 4 (choose p) := by
  obtain ⟨-, hix, -⟩ := s.assignIndices_spec t b m choose
  rw [hix, if_pos ⟨rfl, hp⟩]

theorem State.assignIndices_ix_other (hp : ¬(t' = t ∧ s.subsetAt p = b)) :
    (s.assignIndices t b m choose).ix[t'][p] = s.ix[t'][p] := by
  obtain ⟨-, hix, -⟩ := s.assignIndices_spec t b m choose
  rw [hix, if_neg hp]

theorem State.assignIndices_err_toNat (t : Stream) (b : Subset) :
    ((s.assignIndices t b m choose).err.toNat : Int) = min (2 ^ 64 - 1) (s.err.toNat + ∑ p : Pixel,
      if s.subsetAt p = b then s.squaredError b m p (s.assignIndices t b m choose).ix[t][p].toFin else 0) := by
  obtain ⟨-, -, herr⟩ := s.assignIndices_spec t b m choose
  exact herr

end

/-- Settles O50: IDXN assigns `nearestIndex`, whose entry `nearestIndex_spec` compares with the others. -/
theorem idxnChoosesTheNearest : Obligations.IdxnChoosesTheNearest := by
  intro s t b m iw hb hm hlo hhi
  refine ⟨_, checked_indexWidthChecks_legal s _ hb hm hlo hhi, rfl,
    fun t' p hp => s.assignIndices_ix_other m _ hp, fun p hp => ?_, s.assignIndices_err_toNat m _ _ _, fun _ => rfl⟩
  have hlt := s.nearestIndex_lt (subsetOf b) m p (iw := iw.toNat)
  rw [State.complete_ix, State.assignIndices_ix_selected s m _ hp, entryOf_eq]
  exact ⟨(entryOf_val hhi hlt).trans_lt hlt, fun j hj => s.nearestIndex_spec (subsetOf b) m p hhi hj⟩

/-- Settles O51: IDXP assigns the table's entry of `projectionStep`, which has three cases; the table is below
`2 ^ iw`, so no index is cut. -/
theorem idxpProjectsAndLooksUp : Obligations.IdxpProjectsAndLooksUp := by
  intro s t b m iw hb hm hlo hhi
  refine ⟨_, checked_indexWidthChecks_legal s _ hb hm hlo hhi, rfl,
    fun t' p hp => s.assignIndices_ix_other m _ hp, fun p hp => ?_, s.assignIndices_err_toNat m _ _ _, fun _ => rfl⟩
  intro n d k
  have hk : k = assignLut iw.toNat (projectionStep n d) := by
    have hlt := s.projectedIndex_lt (subsetOf b) m p (iw := iw.toNat)
    have hix := State.assignIndices_ix_selected s (t := streamOf t) m
      (s.projectedIndex assignLut (subsetOf b) m iw.toNat) hp
    calc k = (s.projectedIndex assignLut (subsetOf b) m iw.toNat p) % 2 ^ 4 := by
          rw [← BitVec.toNat_ofNat]
          exact congrArg BitVec.toNat hix
      _ = s.projectedIndex assignLut (subsetOf b) m iw.toNat p := entryOf_val hhi hlt
      _ = assignLut iw.toNat (projectionStep n d) := s.projectedIndex_eq (subsetOf b) m p assignLut
  refine ⟨fun hbefore => ?_, fun hn hd hnd => ?_, fun _ hd hdn f hf => ?_⟩
  · rw [hk, projectionStep_before hbefore]
  · rw [hk, projectionStep_beyond hn hd hnd]
  · obtain ⟨hstep, hle⟩ := projectionStep_between hd hdn hf
    exact ⟨hle, by rw [hk, hstep]⟩

end Sys2Proof.Machine
end

section
/-! What FIX promises of the colours (43_anchor.md rules R162 (1), R163): its two changes undo each other, because a
complemented index finds, in the reversed palette, the entry it named before. -/

namespace Sys2Proof.Machine

/-! ### The complement of an index -/

section
variable {iw : Nat} (hlo : 2 ≤ iw) (hhi : iw ≤ 4) (i : BitVec 4)
include hlo hhi

/-- The complement turns the top bit over, whatever the index (R162 (1)). -/
theorem complementIndex_topBit : (complementIndex iw i).getLsbD (iw - 1) = !i.getLsbD (iw - 1) := by
  obtain rfl | rfl | rfl : iw = 2 ∨ iw = 3 ∨ iw = 4 := by omega
  all_goals
    revert i
    decide

omit hlo in
/-- The complement of an index below `2 ^ iw` does not wrap (R162 (2)). -/
theorem complementIndex_toNat_of_lt (hi : i.toNat < 2 ^ iw) :
    (complementIndex iw i).toNat = 2 ^ iw - 1 - i.toNat := by
  have hint := complementIndex_toNat hhi i
  have hpow : 2 ^ iw ≤ 2 ^ 4 := Nat.pow_le_pow_right (by decide) hhi
  have hcast : (2 : Int) ^ iw = ((2 ^ iw : Nat) : Int) := (Nat.cast_pow 2 iw).symm
  omega

omit hlo in
/-- An index below `2 ^ iw` is the mirror image of its complement. -/
theorem mirror_complementIndex (hi : i.toNat < 2 ^ iw) :
    mirror (2 ^ iw - 1) (complementIndex iw i).toFin = i.toFin := by
  apply Fin.ext
  calc (2 ^ iw - 1 - (complementIndex iw i).toNat) % 16
      = i.toNat % 16 := by
        rw [complementIndex_toNat_of_lt hhi i hi, Nat.sub_sub_self (Nat.le_sub_one_of_lt hi)]
    _ = i.toNat := Nat.mod_eq_of_lt i.isLt

end

/-! ### `State.fixAnchor` -/

section
variable (s : State) (t : Stream) {b : Subset} (m : Mask) {iw : Nat} {p : Pixel}

@[simp] theorem State.fixAnchor_anchor (b b' : Subset) (iw : Nat) :
    (s.fixAnchor t b m iw).anchor b' = s.anchor b' := by
  simp only [State.anchor, State.fixAnchor_anch]

theorem State.fixAnchor_ix_of_high (h : s.anchorHigh t b iw = true) (hp : s.subsetAt p = b) :
    (s.fixAnchor t b m iw).ix[t][p] = complementIndex iw s.ix[t][p] := by
  rw [State.fixAnchor_of_high h]
  exact (IndexFile.write_get ..).trans (if_pos ⟨rfl, decide_eq_true hp⟩)

/-- FIX leaves no high anchor, where the anchor lies in its subset (R163). -/
theorem State.fixAnchor_anchorHigh (hlo : 2 ≤ iw) (hhi : iw ≤ 4) (hanchor : s.subsetAt (s.anchor b) = b) :
    (s.fixAnchor t b m iw).anchorHigh t b iw = false := by
  cases h : s.anchorHigh t b iw with
  | false => rwa [State.fixAnchor_of_low h]
  | true =>
    calc (s.fixAnchor t b m iw).anchorHigh t b iw
        = (complementIndex iw s.ix[t][s.anchor b]).getLsbD (iw - 1) := by
          simp only [State.anchorHigh, State.fixAnchor_anchor, s.fixAnchor_ix_of_high t m h hanchor]
      _ = !s.anchorHigh t b iw := complementIndex_topBit hlo hhi _
      _ = false := by rw [h, Bool.not_true]

/-- A pixel of the subset whose index is below `2 ^ iw` selects the same entry's content before and after (R163). -/
theorem State.fixAnchor_selects {c : Chan} (hhi : iw ≤ 4) (hp : s.subsetAt p = b) (hi : s.ix[t][p].toNat < 2 ^ iw)
    (hc : inMask m c = true) :
    (s.fixAnchor t b m iw).pal[b][(s.fixAnchor t b m iw).ix[t][p].toFin][c] = s.pal[b][s.ix[t][p].toFin][c] := by
  cases h : s.anchorHigh t b iw with
  | false => simp only [State.fixAnchor_of_low h]
  | true =>
    have hle : (complementIndex iw s.ix[t][p]).toNat ≤ 2 ^ iw - 1 :=
      (complementIndex_toNat_of_lt hhi _ hi).trans_le (Nat.sub_le _ _)
    calc (s.fixAnchor t b m iw).pal[b][(s.fixAnchor t b m iw).ix[t][p].toFin][c]
        = (s.fixAnchor t b m iw).pal[b][(complementIndex iw s.ix[t][p]).toFin][c] := by
          simp only [s.fixAnchor_ix_of_high t m h hp]
      _ = s.pal[b][mirror (2 ^ iw - 1) (complementIndex iw s.ix[t][p]).toFin][c] := by
          rw [State.fixAnchor_of_high h]
          exact (PaletteFile.reverse_get ..).trans (if_pos ⟨rfl, hle, hc⟩)
      _ = s.pal[b][s.ix[t][p].toFin][c] := by simp only [mirror_complementIndex hhi _ hi]

end

/-- Settles O54: the anchor is low after `fixAnchor`, so a second `fixAnchor` is the identity. -/
theorem fixKeepsTheColours : Obligations.FixKeepsTheColours := by
  intro s u t b m iw hb hm hlo hhi hanchor hbelow hrun
  rw [exec_fix_of_legal s t hb hm hlo hhi] at hrun
  obtain rfl := Host.Outcome.next.inj hrun
  have hlow : (s.fixAnchor (streamOf t) (subsetOf b) m iw.toNat).complete.anchorHigh (streamOf t) (subsetOf b)
      iw.toNat = false := s.fixAnchor_anchorHigh (streamOf t) m hlo hhi hanchor
  refine ⟨hlow, fun p c hp hc => s.fixAnchor_selects (streamOf t) m hhi hp (hbelow p hp) hc, ?_⟩
  rw [exec_fix_of_legal _ t hb hm hlo hhi, State.fixAnchor_of_low hlow]
  rfl

end Sys2Proof.Machine
end

section
/-! The packer (44_packer.md rules R171 to R176): what one pack does, the registers that the selectors name, and PUT and
PUTIX with their faults (60_exceptions.md rules R262, R266). -/

namespace Sys2Proof.Machine

/-! ### One pack (R171) -/

section
variable (s : State) {off w : Nat} (v : Half)

/-- A packed field holds the low bits of the value. -/
theorem State.pack_inside (h : off + w ≤ 128) {j : Nat} (hj : j < w) :
    (s.pack off w v).ob.getLsbD (off + j) = v.getLsbD j := by
  rw [State.pack_ob, packBits_getLsbD _ _ h, if_pos ⟨Nat.le_add_right off j, Nat.add_lt_add_left hj off⟩,
    Nat.add_sub_cancel_left]

/-- The write is not an OR: outside the field every bit stays. -/
theorem State.pack_outside (h : off + w ≤ 128) {j : Nat} (hj : j < off ∨ off + w ≤ j) :
    (s.pack off w v).ob.getLsbD j = s.ob.getLsbD j := by
  rw [State.pack_ob, packBits_getLsbD _ _ h, if_neg (by omega)]

theorem State.pack_trunc_iff :
    (s.pack off w v).status.trunc = true ↔ s.status.trunc = true ∨ 2 ^ w ≤ v.toNat := by
  rw [State.pack_status, Bool.or_eq_true, truncates_iff]

end

/-- Settles O55: what is lost of the value is its quotient by `2 ^ w`. -/
theorem packReplacesTheField : Obligations.PackReplacesTheField := by
  intro s off w v _ _ hfit t
  refine ⟨rfl, fun j hj => s.pack_inside v hfit hj, fun j hj => s.pack_outside v hfit hj, ?_⟩
  rw [State.pack_status, Bool.or_eq_true, truncates, decide_eq_true_iff, Nat.shiftRight_eq_div_pow]

/-- Bit by bit: a bit is in one of the fields or in neither, and the order matters only to a bit in both. -/
theorem packBits_comm (ob : Block) {off w off' w' : Nat} (v v' : Half) (h : off + w ≤ 128) (h' : off' + w' ≤ 128)
    (hdisj : off + w ≤ off' ∨ off' + w' ≤ off) :
    packBits (packBits ob off w v) off' w' v' = packBits (packBits ob off' w' v') off w v := by
  refine BitVec.eq_of_getLsbD_eq fun k _ => ?_
  simp only [packBits_getLsbD _ _ h, packBits_getLsbD _ _ h']
  by_cases hk : off ≤ k ∧ k < off + w
  · have hk' : ¬(off' ≤ k ∧ k < off' + w') := by omega
    simp only [if_pos hk, if_neg hk']
  · simp only [if_neg hk]

/-- Settles O60: TRUNC collects both packs' losses in either order, and `packBits_comm` gives the block. -/
theorem disjointPacksCommute : Obligations.DisjointPacksCommute := by
  intro s off w off' w' v v' _ _ hfit _ _ hfit' hdisj
  simp only [State.pack, packBits_comm s.ob v v' hfit hfit' hdisj, Bool.or_right_comm]

/-! ### The sources (R172) -/

theorem selSource_eq_none_iff (sel : BitVec 8) :
    selSource sel = none ↔ (0x18 ≤ sel.toNat ∧ sel.toNat ≤ 0x1F) ∨ (0x38 ≤ sel.toNat ∧ sel.toNat ≤ 0x3F) ∨
      (0x66 ≤ sel.toNat ∧ sel.toNat ≤ 0x6F) ∨ 0x71 ≤ sel.toNat := by
  simp only [selSource]
  split_ifs <;> simp only [false_iff, true_iff] <;> omega

theorem State.sourceValue_ix_toNat (s : State) (t : Stream) (p : Pixel) :
    (s.sourceValue (.ix t p)).toNat = s.ix[t][p].toNat :=
  BitVec.toNat_setWidth_of_le (by decide)

/-- The bits above an index are 0, as they are of its zero-extension. -/
theorem State.sourceValue_ix_getLsbD (s : State) (t : Stream) (p : Pixel) (j : Nat) :
    (s.sourceValue (.ix t p)).getLsbD j = s.ix[t][p].getLsbD j := by
  rw [← BitVec.testBit_toNat, State.sourceValue_ix_toNat, BitVec.testBit_toNat]

theorem State.sourceValue_pb_toNat (s : State) (b : Subset) (e : EndNo) :
    (s.sourceValue (.pb b e)).toNat = (s.pb b e).toNat :=
  (BitVec.toNat_setWidth_of_le (by decide)).trans (BitVec.toNat_ofBool _)

/-- Settles O56: the selectors with a register are the table's finitely many rows. -/
theorem selectorsNameRegisters : Obligations.SelectorsNameRegisters := by
  refine ⟨by decide, by decide, by decide, by decide, fun sel => (selSource_eq_none_iff sel).mpr,
    fun s b e c t p => ⟨rfl, rfl, s.sourceValue_ix_toNat t p, s.sourceValue_pb_toNat b e, rfl⟩⟩

/-! ### PUT (R173) and PUTIX (R175) -/

theorem putFits_iff (off : BitVec 7) (wm1 : BitVec 4) :
    putFits off wm1 = true ↔ off.toNat + (wm1.toNat + 1) ≤ 128 := by
  rw [putFits, decide_eq_true_iff, putWidth]

/-- With a register selected, PUT checks the range alone. -/
theorem exec_put_of_source (s : State) (off : BitVec 7) (wm1 sh : BitVec 4) {sel : BitVec 8} {src : Source}
    (h : selSource sel = some src) :
    exec (.put off wm1 sh sel) s = checked [(putFits off wm1, .packRange)] s
      (s.pack off.toNat (wm1.toNat + 1) (s.sourceValue src >>> sh.toNat)).complete := by
  simp only [exec_eq_checked, State.checks, effect, h, putWidth]

/-- Without one, PUT faults before the range is looked at (R266). -/
theorem exec_put_of_none (s : State) (off : BitVec 7) (wm1 sh : BitVec 4) {sel : BitVec 8}
    (h : selSource sel = none) : exec (.put off wm1 sh sel) s = .next (s.raise .illegalOperand) := by
  simp only [exec_eq_checked, State.checks, effect, h, checked_cons_false]

/-- Settles O16: an undefined selector ends PUT before its range is checked; of the other checks it is the range that
fails. -/
theorem packingFaults : Obligations.PackingFaults := by
  intro s off wm1 sh sel t iw na hf
  refine ⟨fun hsel => ?_, fun hsel hlong => ?_, fun hlo hhi hlong => ?_⟩
  · rw [exec_put_of_none s off wm1 sh ((selSource_eq_none_iff sel).mpr hsel), State.raise_of_healthy hf]
    rfl
  · have hdefined : selSource sel ≠ none := by
      rw [ne_eq, selSource_eq_none_iff]
      omega
    obtain ⟨src, hsrc⟩ := Option.ne_none_iff_exists'.mp hdefined
    have hfits : putFits off wm1 = false := by
      rw [Bool.eq_false_iff, ne_eq, putFits_iff]
      omega
    rw [exec_put_of_source s off wm1 sh hsrc, hfits, checked_cons_false, State.raise_of_healthy hf]
    rfl
  · have hfits : s.streamFits off iw.toNat na = false := by
      rw [Bool.eq_false_iff, ne_eq, State.streamFits_iff]
      omega
    rw [exec_eq_checked, State.checks, (widthOk_iff iw).mpr ⟨hlo, hhi⟩, hfits, checked_cons_true,
      checked_cons_false, State.raise_of_healthy hf]
    rfl

/-- Settles O57: PUT is one pack of the shifted register. -/
theorem putPacksAField : Obligations.PutPacksAField := by
  intro s off wm1 sh sel src hsrc hfit
  refine ⟨(s.pack off.toNat (wm1.toNat + 1) (s.sourceValue src >>> sh.toNat)).complete, ?_, rfl, fun j hj => ?_,
    fun j hj => s.pack_outside _ hfit hj, ?_, fun _ => rfl⟩
  · rw [exec_put_of_source s off wm1 sh hsrc, (putFits_iff off wm1).mpr hfit, checked_cons_true, checked_nil]
  · rw [State.complete_ob, s.pack_inside _ hfit hj, BitVec.getLsbD_ushiftRight]
  · rw [State.complete_status, s.pack_trunc_iff, BitVec.toNat_ushiftRight, Nat.shiftRight_eq_div_pow]

/-! ### The sixteen packs of a stream -/

theorem mem_allPixels : ∀ p : Pixel, p ∈ allPixels := by decide

section
variable (s : State) (width : Pixel → Nat) (value : Pixel → Half) {off : Nat}

/-- Each pixel's value stands after the widths of the pixels before it. -/
theorem packAll_allPixels_inside (h : off + ∑ p : Pixel, width p ≤ 128) {p : Pixel} {j : Nat} (hj : j < width p) :
    (packAll width value allPixels off s).ob.getLsbD (off + (∑ q : Pixel, if q < p then width q else 0) + j)
      = (value p).getLsbD j := by
  have hsplit := allPixels_split p
  rw [← sum_allPixels, hsplit] at h
  have hbit := packAll_inside width value _ p _ off s h hj
  rwa [← hsplit, sum_pixels_before] at hbit

theorem packAll_allPixels_outside (h : off + ∑ p : Pixel, width p ≤ 128) {j : Nat}
    (hj : j < off ∨ off + ∑ p : Pixel, width p ≤ j) :
    (packAll width value allPixels off s).ob.getLsbD j = s.ob.getLsbD j := by
  rw [← sum_allPixels] at h hj
  exact packAll_outside width value allPixels off s h hj

theorem packAll_allPixels_trunc_iff :
    (packAll width value allPixels off s).status.trunc = true
      ↔ s.status.trunc = true ∨ ∃ p : Pixel, 2 ^ width p ≤ (value p).toNat := by
  simp only [packAll_trunc, Bool.or_eq_true, List.any_eq_true, mem_allPixels, true_and, truncates_iff]

end

/-- A PUTIX whose checks hold is the sixteen packs, of what the index selectors read. -/
theorem exec_putix_of_legal {s : State} {off : BitVec 7} {iw : BitVec 3} {na : BitVec 2} (t : BitVec 1)
    (hlo : 2 ≤ iw.toNat) (hhi : iw.toNat ≤ 4) (hfit : off.toNat + ∑ p : Pixel, s.indexBits iw.toNat na p ≤ 128) :
    exec (.putix t off iw na) s
      = .next (packAll (s.indexBits iw.toNat na) (fun p => s.sourceValue (.ix (streamOf t) p)) allPixels off.toNat
          s).complete := by
  rw [exec_eq_checked, State.checks, (widthOk_iff iw).mpr ⟨hlo, hhi⟩, (s.streamFits_iff off iw.toNat na).mpr hfit,
    checked_cons_true, checked_cons_true, checked_nil]
  rfl

/-- A state that differs in OB and TRUNC alone, completed. -/
theorem State.complete_of_frame {s u : State}
    (h : u = { s with ob := u.ob, status := { s.status with trunc := u.status.trunc } }) :
    u.complete = { s with
      ob := u.complete.ob, status := { s.status with trunc := u.complete.status.trunc },
      cidx := s.cidx + 1, draws := s.draws + 1 } :=
  congrArg State.complete h

theorem packAll_mem (width : Pixel → Nat) (value : Pixel → Half) (ps : List Pixel) (pos : Nat) (s : State) :
    (packAll width value ps pos s).mem = s.mem := by
  rw [packAll_frame]

/-- Settles O59: PUTIX is the sixteen packs, and of those the rules of a whole stream say each clause. -/
theorem putixPacksTheStream : Obligations.PutixPacksTheStream := by
  intro s t off iw na hlo hhi hfit
  refine ⟨_, exec_putix_of_legal t hlo hhi hfit, State.complete_of_frame (packAll_frame ..), fun p j hj => ?_,
    fun j hj => ?_, ?_, fun a => ?_⟩
  · rw [State.complete_ob, State.pixelStart, packAll_allPixels_inside s _ _ hfit hj, State.sourceValue_ix_getLsbD]
  · rw [State.complete_ob, packAll_allPixels_outside s _ _ hfit hj]
  · rw [State.complete_status, packAll_allPixels_trunc_iff]
    simp only [State.sourceValue_ix_toNat]
  · rw [State.complete_mem, packAll_mem]

end Sys2Proof.Machine
end

section
/-! The load and candidate commands (45_control.md rules R185 to R191): an LDC that faults, and what NOP, BLKINIT,
CANDINIT, LDPX, LDER and KEEPMIN write and keep. -/

namespace Sys2Proof.Machine

/-! ### LDC's two faults (R188, R266) -/

/-- The numbers that LDC may not write are the read-only and the reserved ones (R38). -/
theorem ldcTarget_eq_none_iff (reg : BitVec 8) :
    ldcTarget reg = none ↔ reg.toNat = 0x01 ∨ reg.toNat = 0x07 ∨ 0x0A ≤ reg.toNat := by
  revert reg
  decide

/-- Without a register to write, LDC faults before the value is looked at. -/
theorem exec_ldc_of_none {s : State} (hf : s.status.fault = false) {reg : BitVec 8} (imm : Half)
    (hr : ldcTarget reg = none) : exec (.ldc reg imm) s = .next (s.faultRecord 6) := by
  simp only [exec_eq_checked, State.checks, hr, checked_cons_false, State.raise_of_healthy hf, faultCode]

/-- LDC of an illegal value to the register numbered `reg`. -/
theorem exec_ldc_of_illegal {s : State} (hf : s.status.fault = false) {reg : BitVec 8} {r : CtrlReg} {imm : Half}
    (hr : ldcTarget reg = some r) (hl : ¬ldcLegal r imm = true) :
    exec (.ldc reg imm) s = .next (s.faultRecord 3) := by
  simp only [exec_eq_checked, State.checks, hr, Bool.eq_false_of_not_eq_true hl, checked_cons_false,
    State.raise_of_healthy hf, faultCode]

theorem ldcLegal_cfg_iff (v : Half) :
    ldcLegal .cfg v = true ↔
      v.toNat % 8 ≤ 5 ∧ v.toNat / 8 % 2 = 0 ∧ v.toNat / 16 % 4 ≠ 3 ∧ v.toNat / 64 = 0 :=
  decide_eq_true_iff

theorem ldcLegal_anch_iff (v : Half) : ldcLegal .anch v = true ↔ v.toNat / 256 = 0 := decide_eq_true_iff

theorem ldcLegal_pbits_iff (v : Half) : ldcLegal .pbits v = true ↔ v.toNat / 64 = 0 := decide_eq_true_iff

/-- Settles O15: a number without a register ends LDC before its value is checked; of the three registers with illegal
values, each clause breaks the condition of its register. -/
theorem illegalLoadsFault : Obligations.IllegalLoadsFault := by
  intro s reg imm hf
  refine ⟨fun hreg => ?_, fun hreg hbad => ?_, fun hreg hbad => ?_, fun hreg hbad => ?_⟩
  · exact exec_ldc_of_none hf imm ((ldcTarget_eq_none_iff reg).mpr hreg)
  · obtain rfl : reg = 0x00 := BitVec.eq_of_toNat_eq hreg
    refine exec_ldc_of_illegal hf (r := .cfg) rfl ?_
    rw [ldcLegal_cfg_iff]
    omega
  · obtain rfl : reg = 0x04 := BitVec.eq_of_toNat_eq hreg
    refine exec_ldc_of_illegal hf (r := .anch) rfl ?_
    rw [ldcLegal_anch_iff]
    omega
  · obtain rfl : reg = 0x05 := BitVec.eq_of_toNat_eq hreg
    refine exec_ldc_of_illegal hf (r := .pbits) rfl ?_
    rw [ldcLegal_pbits_iff]
    omega

/-! ### NOP, BLKINIT and CANDINIT (R185 to R187) -/

/-- Settles O32: NOP is always legal and its effect is the state itself, completed. -/
theorem nopOnlyCounts : Obligations.NopOnlyCounts := fun s =>
  ⟨s.complete, exec_of_legal (i := .nop) rfl, rfl, fun _ => rfl⟩

/-- Settles O33: both commands are always legal; each effect is one record update whose index file reads as 0. -/
theorem initCommandsClear : Obligations.InitCommandsClear := by
  intro s
  refine ⟨⟨s.blockStart.complete, exec_of_legal (i := .blkinit) rfl, rfl, fun k p => ?_, fun a => ?_⟩,
    ⟨s.candidateStart.complete, exec_of_legal (i := .candinit) rfl, rfl, fun k p => ?_, fun a => ?_⟩⟩
  · rw [State.complete_ix, State.blockStart_ix, IndexFile.zero_get]
  · rw [State.complete_mem, State.blockStart_mem]
  · rw [State.complete_ix, State.candidateStart_ix, IndexFile.zero_get]
  · rw [State.complete_mem, State.candidateStart_mem]

/-! ### LDPX and LDER (R189, R190) -/

/-- The mask of one channel holds that channel alone. -/
theorem inMask_chanMask_iff (c c' : Chan) : inMask (chanMask c) c' = true ↔ c' = c := by
  revert c c'
  decide

/-- LDER of a legal subset (R190). -/
theorem exec_lder_of_legal {b : BitVec 2} (s : State) (e : BitVec 1) (c : BitVec 2) (imm : Half) (hb : b ≠ 3) :
    exec (.lder b e c imm) s = .next (effect (.lder b e c imm) s).complete := by
  refine exec_of_legal ?_
  rw [State.legal, Instr.wellFormed, State.rangeOk, (subsetOk_iff b).mpr hb, Bool.and_true]

/-- Settles O35: a write to a register file is read back at the one register named, the mask of LDER being that of one
channel, and elsewhere as before. -/
theorem loadsWriteOneRegister : Obligations.LoadsWriteOneRegister := by
  intro s p c b e imm
  refine ⟨⟨(effect (.ldpx p c imm) s).complete, exec_of_legal rfl, rfl, fun p' c' => ?_, fun a => ?_⟩,
    fun hb => ⟨(effect (.lder b e c imm) s).complete, exec_lder_of_legal s e c imm hb, rfl, fun b' e' c' => ?_,
      fun a => ?_⟩⟩
  · exact PixelFile.write_get s.px (pixelOf p) p' (chanOf c) c' (.ofValue imm)
  · rw [State.complete_mem, effect_mem _ s fun _ => Instr.noConfusion]
  · simp only [State.complete_er, effect, EndpointFile.write_get, inMask_chanMask_iff]
  · rw [State.complete_mem, effect_mem _ s fun _ => Instr.noConfusion]

/-! ### KEEPMIN (R191) -/

theorem State.candidateWins_iff (s : State) :
    s.candidateWins = true ↔ s.status.bvalid = false ∨ s.err.toNat < s.bestErr.toNat := by
  rw [State.candidateWins, Bool.or_eq_true, Bool.not_eq_true', decide_eq_true_iff]

theorem State.candidateWins_eq_false_iff (s : State) :
    s.candidateWins = false ↔ s.status.bvalid = true ∧ s.bestErr.toNat ≤ s.err.toNat := by
  rw [← Bool.not_eq_true, s.candidateWins_iff, not_or, Bool.not_eq_false, Nat.not_lt]

theorem exec_keepmin (s : State) : exec .keepmin s = .next s.keepMin.complete := exec_of_legal (i := .keepmin) rfl

/-- Settles O36: the hypotheses of the two clauses are that the candidate wins and that it does not. -/
theorem keepminKeepsTheBetter : Obligations.KeepminKeepsTheBetter := by
  intro s
  refine ⟨fun hwins => ?_, fun hheld hworse => ?_⟩
  · rw [exec_keepmin, State.keepMin_of_wins (s.candidateWins_iff.mpr hwins)]
    rfl
  · rw [exec_keepmin, State.keepMin_of_not_wins (s.candidateWins_eq_false_iff.mpr ⟨hheld, hworse⟩)]
    rfl

end Sys2Proof.Machine
end

section
/-! The faulted state and its ways in and out (60_exceptions.md rules R260 to R264, R270; 70_reset_and_hazards.md rules
R279, R285, R301): each statement goes through what the step served. -/

namespace Sys2Proof.Machine

/-! ### The way in (R262, R264) -/

/-- Settles O18: of all that a healthy unit serves, only a word that takes a fault leaves FAULT set. A completed
command keeps the flag, and reset clears it. -/
theorem raisingAFaultWritesTheRecord : Obligations.RaisingAFaultWritesTheRecord := by
  intro s t hf hstep ht
  cases served_of_step hstep with
  | faulted hp _ f => exact ⟨_, _, f, hp, rfl, rfl, fun _ => rfl⟩
  | discarded _ hf' => exact absurd hf' (Bool.eq_false_iff.mp hf)
  | completed _ _ hu _ _ =>
    subst hu
    exact absurd ht (Bool.eq_false_iff.mp ((effect_fault _ _).trans hf))
  | idle | answered => exact absurd ht (Bool.eq_false_iff.mp hf)
  | reset | abandoned => exact absurd ht Bool.false_ne_true

/-! ### The faulted state, and the way out (R263, R270) -/

/-- A faulted unit acknowledges and discards the word presented (R263). -/
theorem step_command_of_faulted {s : State} {w : Word} {rest : List PortEvent}
    (hp : s.pending = .command w :: rest) (hf : s.status.fault = true) :
    step s = .next { s with pending := rest, out := [.ack] } := by
  rw [step_command hp]
  exact acceptWord_of_faulted (by exact hf) w

/-- Settles O19: a command is discarded and a read answered as ever; of all that a faulted unit serves, only the two
resets leave FAULT clear. -/
theorem faultedUnitDiscards : Obligations.FaultedUnitDiscards := by
  intro s hf
  refine ⟨fun w rest hp => step_command_of_faulted hp hf, fun num rest hp => step_read hp, fun t hstep ht => ?_⟩
  cases served_of_step hstep with
  | reset hp => exact ⟨_, .inl hp⟩
  | abandoned hp => exact ⟨_, .inr ⟨_, hp⟩⟩
  | completed _ hf' | faulted _ hf' => exact absurd hf (Bool.eq_false_iff.mp hf')
  | idle | discarded | answered => exact absurd hf (Bool.eq_false_iff.mp ht)

/-- Settles O21: the step asserts reset, which keeps the memory, in the faulted state too. -/
theorem resetRestoresTheState : Obligations.ResetRestoresTheState := by
  intro s rest hp
  refine ⟨_, step_reset hp, State.assertReset_of_pending _ rfl, fun a => ?_⟩
  rw [State.assertReset_mem]

/-! ### Waiting, and totality (R260, R279) -/

/-- Settles O8: the step with nothing presented is the one case of waiting. -/
theorem idleUnitWaits : Obligations.IdleUnitWaits :=
  fun _ h => step_idle h

/-- Settles O25: a legal command completes, and an illegal one takes its fault. -/
theorem everyCommandAnswersANextState : Obligations.EveryCommandAnswersANextState := by
  intro i s
  rcases exec_endsBy i s with ⟨-, hdone⟩ | ⟨-, f, hraised⟩
  · exact ⟨_, hdone⟩
  · exact ⟨_, hraised⟩

end Sys2Proof.Machine
end
